-- ==== Sys2Proof/Word.lean ====
section
/-! DEFINITION. The word types of the B3C (00_scope.md R5, R6): 32-bit Words, bytes, 64-bit counters, and the
fixed-length sequences of them that the registers hold. Every value is unsigned (R6). -/

namespace Sys2Proof

/-- A Word: "a 32-bit unsigned value in 0 to 2^32-1" (R6). `+` on it is addition mod 2^32 (R7). -/
abbrev Word := BitVec 32

/-- A u8 (R6). -/
abbrev Byte := BitVec 8

/-- A u64 (R6): the chunk counter, the XOF position, the counter operand of a compression. -/
abbrev U64 := BitVec 64

/-- A chaining value: 8 Words (R5, CV_WORDS). -/
abbrev CV := Vector Word 8

/-- A message block, and the 16-Word state or result of a compression (R5, BLOCK_LEN and STATE_WORDS). -/
abbrev Block := Vector Word 16

/-- 64 bytes: the block buffer, and one block as a byte sequence (R5, BLOCK_LEN). -/
abbrev Bytes64 := Vector Byte 64

/-- 32 bytes: a key, "exactly 32 bytes" (20_memory.md R66). -/
abbrev Bytes32 := Vector Byte 32

end Sys2Proof
end

