-- ==== Sys2Proof/Syntax.lean ====
section
/-! DEFINITION. The seven commands (30_encoding.md R81), the mode set of INIT (R87), and the names of the host
registers (10_state.md R34, 30_encoding.md R88). -/

namespace Sys2Proof

/-- The hashing modes (R87), in the order of their numbers 0 to 3. -/
inductive Mode where
  | plain
  | keyed
  | deriveCtx
  | deriveMat
deriving DecidableEq, Repr

/-- A command (R81). ABSORB and XOF_READ carry their byte count, INIT its mode; no other command has an argument
(R82): every other operand is a host register. -/
inductive Instr where
  | nop
  | init (m : Mode)
  | absorb (n : Nat)
  | finalize
  | xofRead (n : Nat)
  | xofSeek
  | compress
deriving DecidableEq, Repr

/-- The host registers of the window (R34). -/
inductive Reg where
  | id | cmd | status | info
  | ccntLo | ccntHi | xposLo | xposHi
  | seekLo | seekHi | cctrLo | cctrHi | cparam
  | reserved (j : Fin 3)
  | key (j : Fin 8)
  | cv (j : Fin 8)
  | din (j : Fin 16)
  | dout (j : Fin 16)
deriving DecidableEq, Repr

end Sys2Proof
end

