-- ==== Sys2Proof/WellFormed.lean ====
section
/-! DEFINITION. Which terms of `Instr` are commands of the B3C: the ARG constraints of 30_encoding.md R81 that the
types do not already say. -/

namespace Sys2Proof

/-- The ARG constraint of R81: a byte count is at most 64 (MAX_XFER, R5). A mode number is at most 3 by its type. -/
def Instr.wf : Instr → Bool
  | .nop => true
  | .init _ => true
  | .absorb n => decide (n ≤ 64)
  | .finalize => true
  | .xofRead n => decide (n ≤ 64)
  | .xofSeek => true
  | .compress => true

end Sys2Proof
end

