-- ==== Sys2Proof/Decode.lean ====
section
/-! DEFINITION. The command word (30_encoding.md R80 to R85): its fields, the decoder, total on every 32-bit word and
refusing by name, and the encoder written from the same table (R81, R88). -/

namespace Sys2Proof

/-- OP: bits 7:0 of the command word (R80). -/
def opField (w : Word) : Nat := (w.extractLsb' 0 8).toNat

/-- ARG: bits 15:8 of the command word, read unsigned (R80, R82). -/
def argField (w : Word) : Nat := (w.extractLsb' 8 8).toNat

/-- RSV: bits 31:16 of the command word (R80). -/
def rsvField (w : Word) : Nat := (w.extractLsb' 16 16).toNat

/-- Why a word is illegal (R83): the three conditions, in the order R83 lists them. -/
inductive Illegal where
  /-- `RSV != 0`. -/
  | reservedBits
  /-- OP is in 0x07 to 0xFF. -/
  | unknownOp
  /-- ARG breaks the constraint R81 gives for OP. -/
  | argRange
deriving DecidableEq, Repr

/-- The number of a mode (R87). -/
def Mode.number : Mode → Nat
  | .plain => 0
  | .keyed => 1
  | .deriveCtx => 2
  | .deriveMat => 3

/-- The mode with a number, for numbers 0 to 3 (R87). -/
def Mode.ofNumber (n : Nat) : Option Mode :=
  if n = 0 then some .plain
  else if n = 1 then some .keyed
  else if n = 2 then some .deriveCtx
  else if n = 3 then some .deriveMat
  else none

/-- A command whose ARG must be 0 (R81, R82). -/
def decodeBare (n : Nat) (i : Instr) : Except Illegal Instr :=
  if n = 0 then .ok i else .error .argRange

/-- A command whose ARG is a byte count of at most 64 (R81, R82). -/
def decodeCount (n : Nat) (f : Nat → Instr) : Except Illegal Instr :=
  if n ≤ 64 then .ok (f n) else .error .argRange

/-- INIT: ARG is a mode number (R81, R87). -/
def decodeMode (n : Nat) : Except Illegal Instr :=
  match Mode.ofNumber n with
  | some m => .ok (.init m)
  | none => .error .argRange

/-- The decoder (R81, R83): "A decoder needs nothing but the word" (R80). -/
def decode (w : Word) : Except Illegal Instr :=
  let op := opField w
  let n := argField w
  if rsvField w ≠ 0 then .error .reservedBits
  else if op = 0x00 then decodeBare n .nop
  else if op = 0x01 then decodeMode n
  else if op = 0x02 then decodeCount n .absorb
  else if op = 0x03 then decodeBare n .finalize
  else if op = 0x04 then decodeCount n .xofRead
  else if op = 0x05 then decodeBare n .xofSeek
  else if op = 0x06 then decodeBare n .compress
  else .error .unknownOp

/-- A command word with RSV = 0 (R80). -/
def commandWord (op arg : Nat) : Word := BitVec.ofNat 32 (op + arg * 2 ^ 8)

/-- The encoder: the words of R88's table. -/
def encode : Instr → Word
  | .nop => commandWord 0x00 0
  | .init m => commandWord 0x01 m.number
  | .absorb n => commandWord 0x02 n
  | .finalize => commandWord 0x03 0
  | .xofRead n => commandWord 0x04 n
  | .xofSeek => commandWord 0x05 0
  | .compress => commandWord 0x06 0

/-- The word of a table row: the low `nbits` bits of `w`, every bit above them 0. A command is exactly one 32-bit
word (R80, R85), so there is none for a row wider than that (log 16). -/
def tableWord (nbits w : Nat) : Option Word :=
  if nbits ≤ 32 then some (BitVec.ofNat 32 (w % 2 ^ nbits)) else none

/-- The command the decoder reads from a word given as the opcode table numbers its bits. -/
def decodeTableWord (nbits w : Nat) : Option Instr :=
  match tableWord nbits w with
  | some x => (decode x).toOption
  | none => none

end Sys2Proof
end

