-- ==== Sys2Proof/Machine/State.lean ====
section
/-! DEFINITION. The machine's state as plain data: the record `B3C` holds exactly the elements of 10_state.md R20, and
`State` puts beside it what the model itself needs of the other two agents (00_scope.md R12). The reset values are R20's
and R250's. -/

namespace Sys2Proof.Machine

/-- PHASE (R22): "0 = IDLE, 1 = ABSORBING, 2 = FINALIZED; value 3 is never held". -/
inductive Phase where
  | idle
  | absorbing
  | finalized
deriving DecidableEq, Repr

/-- The values ERRCODE takes (R221), in the order of their codes 0 to 9; "every other value is never written". -/
inductive ErrCode where
  | none
  | illegalCmd
  | notInit
  | afterFinal
  | notFinal
  | blenRange
  | xofRange
  | ctrOverflow
  | stackOverflow
  | busyWrite
deriving DecidableEq, Repr

/-- The B3C's complete architectural state: exactly the elements of R20, with R20's names and widths. -/
structure B3C where
  /-- PHASE (R22). -/
  phase : Phase
  /-- MODE (R23). -/
  mode : Mode
  /-- BK, the base key (R24). -/
  bk : CV
  /-- BF, the base flags (R24). -/
  bf : Byte
  /-- CSCV, the chunk's running chaining value (R25). -/
  cscv : CV
  /-- CCNT, the chunk counter (R25). -/
  ccnt : U64
  /-- BLOCKS, 0 to 15 (R25). -/
  blocks : Fin 16
  /-- BUF, the current block's bytes (R25). -/
  buf : Bytes64
  /-- BUFLEN, 0 to 64 (R25). -/
  bufLen : Fin 65
  /-- STACK, 54 chaining values (R27). -/
  stack : Vector CV 54
  /-- DEPTH, 0 to 54 (R27). -/
  depth : Fin 55
  /-- R_CV, the root node's cv (R28). -/
  rCv : CV
  /-- R_BLK, the root node's block (R28). -/
  rBlk : Block
  /-- R_BLEN, the root node's block length (R28). -/
  rBlen : Byte
  /-- R_FLG, the root node's flags, ROOT included (R28). -/
  rFlg : Byte
  /-- XPOS, the byte position of the next XOF byte (R28). -/
  xpos : U64
  /-- BUSY: a command is pending (R29). -/
  busy : Bool
  /-- PEND, the pending command word (R29). -/
  pend : Word
  /-- ERR: an error has been recorded (R30). -/
  err : Bool
  /-- ERRCODE, the first error's code (R30). -/
  errCode : ErrCode
  /-- KEY[0..7] (R44). -/
  key : CV
  /-- CV[0..7], the chaining-value operand of COMPRESS (R45). -/
  cv : CV
  /-- DIN[0..15] (R46). -/
  din : Block
  /-- DOUT[0..15] (R47). -/
  dout : Block
  /-- CCTR_LO (R42). -/
  cctrLo : Word
  /-- CCTR_HI (R42). -/
  cctrHi : Word
  /-- CPARAM bits 15:0; its bits 31:16 are hard-wired 0 and hold nothing (R43, R48). -/
  cparam : BitVec 16
  /-- SEEK_LO (R41). -/
  seekLo : Word
  /-- SEEK_HI (R41). -/
  seekHi : Word
deriving DecidableEq, Repr

/-- One move of an agent (R12), as the interleaving of R72 orders them. -/
inductive Event where
  /-- The host `host` writes `value` with an access of `width` bytes at byte address `addr` (R9, R60). -/
  | write (host addr width : Nat) (value : Word)
  /-- The host `host` reads `width` bytes at byte address `addr` (R9, R60). -/
  | read (host addr width : Nat)
  /-- The core's turn: it takes its step here if it has one (R91). -/
  | coreTurn
  /-- The reset input (R250). -/
  | reset
deriving DecidableEq, Repr

/-- The state of the model. `b3c` is the machine (R20). The other fields are the MODEL's own and hold the other agents
(R12): no rule of the spec names them. -/
structure State where
  /-- The B3C: R20's record. -/
  b3c : B3C
  /-- The moves still to come, the next one first; when none is left the core moves (log 2). -/
  inputs : List Event
  /-- The register values the host has read, newest first: "A host program's result is the register values it read"
  (R263; log 4). -/
  reads : List Word
  /-- The one host that drives the instance, once one has accessed it (R77; log 5). -/
  owner : Option Nat
  /-- How many unspecified reads there have been: the argument of the next free value (R257; log 3). -/
  freeCount : Nat
deriving DecidableEq, Repr

/-- Why the machine stops with a fault. -/
inductive Fault where
  /-- Raised by ABSORB when ChunkClose would merge with a stack entry that does not exist (DEPTH < tz(CCNT + 1)).
  "Every merge finds a live entry" (R153) in every state reached from reset, and "No rule depends on a state that
  breaks them" (R26), so the spec gives such a state no meaning. Safe: log 8. -/
  | mergeWithoutEntry
deriving DecidableEq, Repr

/-- Why the model gives a situation no meaning. -/
inductive Refusal where
  /-- An instruction with no meaning yet, by its mnemonic. Safe. -/
  | notModelled (mnemonic : String)
  /-- Raised by a host access of a width other than 4 bytes that reaches the window: "refused" (R62, U17). Safe. -/
  | accessWidth
  /-- Raised by a 4-byte host access that reaches the window at an address that is no multiple of 4: "refused" (R62, U17).
  Safe. -/
  | misaligned
  /-- Raised by an access of a second host: "Two hosts interleaving accesses to one instance are refused" (R77, U2).
  Safe. -/
  | secondHost
deriving DecidableEq, Repr

/-- What the reset input makes of the machine: every element of R20 at its reset value (R20, R250). -/
def B3C.reset : B3C where
  phase := .idle
  mode := .plain
  bk := Vector.replicate 8 0
  bf := 0
  cscv := Vector.replicate 8 0
  ccnt := 0
  blocks := 0
  buf := Vector.replicate 64 0
  bufLen := 0
  stack := Vector.replicate 54 (Vector.replicate 8 0)
  depth := 0
  rCv := Vector.replicate 8 0
  rBlk := Vector.replicate 16 0
  rBlen := 0
  rFlg := 0
  xpos := 0
  busy := false
  pend := 0
  err := false
  errCode := .none
  key := Vector.replicate 8 0
  cv := Vector.replicate 8 0
  din := Vector.replicate 16 0
  dout := Vector.replicate 16 0
  cctrLo := 0
  cctrHi := 0
  cparam := 0
  seekLo := 0
  seekHi := 0

/-- The machine right after reset or power-up (R250, R252): the B3C at its reset values, and nothing yet asked of it by
the other agents. -/
def State.reset : State where
  b3c := B3C.reset
  inputs := []
  reads := []
  owner := none
  freeCount := 0

end Sys2Proof.Machine
end

