-- ==== Sys2Proof/Machine/Ops.lean ====
section
/-! DEFINITION. The operations the rules share: the arithmetic primitives (00_scope.md R7), bytes and Words (R8), how a
command ends (30_encoding.md R91), and error entry, this machine's only exception (60_exceptions.md R223). There is no
return from it: "ERR and ERRCODE are cleared only by reset" (R229). The B3C owns no addressable memory (20_memory.md R60),
so no operation here is about one. -/

namespace Sys2Proof.Machine

/-! ## Arithmetic primitives (R7) -/

/-- `rotr(x, n)` for `0 < n < 32` (R7; the spec's GK4). -/
def rotr (x : Word) (n : Nat) : Word := (x >>> n) ||| (x <<< (32 - n))

/-- `lo32(t) = t[31:0]` (R7). -/
def lo32 (t : U64) : Word := t.extractLsb' 0 32

/-- `hi32(t) = t[63:32]` (R7). -/
def hi32 (t : U64) : Word := t.extractLsb' 32 32

/-- The low-order zero bits of `x` among its lowest `bits` bits. -/
def tzUpTo : (bits x : Nat) → Nat
  | 0, _ => 0
  | bits + 1, x => if x % 2 = 0 then tzUpTo bits (x / 2) + 1 else 0

/-- `tz(x)`, "the number of low-order zero bits of `x`", for `0 < x < 2^64` (R7). -/
def tz (x : Nat) : Nat := tzUpTo 64 x

/-- The one bits of `x` among its lowest `bits` bits. -/
def popcountUpTo : (bits x : Nat) → Nat
  | 0, _ => 0
  | bits + 1, x => x % 2 + popcountUpTo bits (x / 2)

/-- `popcount(x)`, "the number of one bits of `x`", for `x < 2^64` (R7). -/
def popcount (x : Nat) : Nat := popcountUpTo 64 x

/-! ## Bytes and Words (R8, 20_memory.md R63 to R69: little-endian, fixed) -/

/-- `LE32(b0, b1, b2, b3)` (R8). -/
def le32 (b0 b1 b2 b3 : Byte) : Word :=
  b0.zeroExtend 32 ||| (b1.zeroExtend 32 <<< 8) ||| (b2.zeroExtend 32 <<< 16) ||| (b3.zeroExtend 32 <<< 24)

/-- Byte `k` of a Word: `w[8k+7:8k]` (R8, R63). -/
def byteOf (w : Word) (k : Nat) : Byte := w.extractLsb' (8 * k) 8

/-- `Words(B)`: 64 bytes as 16 Words (R8, R67). -/
def wordsOf (b : Bytes64) : Block :=
  Vector.ofFn fun i => le32 b[4 * i.val] b[4 * i.val + 1] b[4 * i.val + 2] b[4 * i.val + 3]

/-- `Bytes(W)`: 16 Words as 64 bytes, byte `4i+k` being byte `k` of `W[i]` (R8, R68). -/
def bytesOf (w : Block) : Bytes64 :=
  Vector.ofFn fun j => byteOf w[j.val / 4] (j.val % 4)

/-- `Zero64` (R8). -/
def zero64 : Bytes64 := Vector.replicate 64 0

/-- 64 bytes that begin with `xs` and are 0 after it (the zero fill of R202). -/
def padTo64 (xs : List Byte) : Bytes64 := Vector.ofFn fun j => xs.getD j.val 0

/-- `buf` with the bytes `xs` written from index `at_` on (R132's buffer write). -/
def writeBytes (buf : Bytes64) (at_ : Nat) (xs : List Byte) : Bytes64 :=
  Vector.ofFn fun j => if at_ ≤ j.val ∧ j.val < at_ + xs.length then xs.getD (j.val - at_) 0 else buf[j]

/-- Eight zero Words. -/
def zeroCV : CV := Vector.replicate 8 0

/-- The first 8 of 16 Words (R10: `NodeOut(N)[0..7]`). -/
def first8 (w : Block) : CV := Vector.ofFn fun i => w[i.val]

/-- `L ‖ R` as a block: "block word i = L[i] for i < 8, R[i-8] for i >= 8" (R151). -/
def joinCV (l r : CV) : Block :=
  Vector.ofFn fun i => if h : i.val < 8 then l[i.val] else r[i.val - 8]

/-! ## How a command ends (R91, R223) -/

/-- What ends a command early: an error it raises (R9 `raise Error(code)`), or a stop of the model's own. -/
inductive Stop where
  | error (c : ErrCode)
  | fault (f : Fault)
deriving DecidableEq, Repr

/-- The first error is kept: `if ERR = 0: ERR <- 1; ERRCODE <- c` (R223, R256). -/
def recordError (c : ErrCode) (b : B3C) : B3C :=
  if b.err then b else { b with err := true, errCode := c }

/-- ERROR ENTRY (R223), this machine's taking of an exception: no write of the command is committed, the first error is
recorded, and BUSY is cleared. -/
def errorEntry (c : ErrCode) (s : State) : State :=
  { s with b3c := { recordError c s.b3c with busy := false } }

/-- The end of a command's `Exec` (R91): `Ok(S')` commits every write of `S'`, `Err(c)` commits nothing and enters the
error. -/
def commit (s : State) : Except Stop B3C → Host.Outcome State Fault Refusal
  | .ok b => .next { s with b3c := b }
  | .error (.error c) => .next (errorEntry c s)
  | .error (.fault f) => .fault f

/-- `BUSY <- 0`, the core step's last line (R91). -/
def clearBusy (s : State) : State := { s with b3c := { s.b3c with busy := false } }

end Sys2Proof.Machine
end

