-- ==== Sys2Proof/Machine/Flags.lean ====
section
/-! DEFINITION. The B3C has no condition codes (10_state.md R33). Its flags are the domain flag byte of a compression
(30_encoding.md R86), which is data, and the status fields that STATUS and INFO show (R37, R38). -/

namespace Sys2Proof.Machine

/-! ## The domain flag byte (R86) -/

def chunkStart : Byte := 0x01
def chunkEnd : Byte := 0x02
def parentFlag : Byte := 0x04
def rootFlag : Byte := 0x08
def keyedHash : Byte := 0x10
def deriveKeyContext : Byte := 0x20
def deriveKeyMaterial : Byte := 0x40

/-- The base flags of a mode: "BF <- [0x00, 0x10, 0x20, 0x40][m]" (R87, R182). -/
def baseFlags : Mode → Byte
  | .plain => 0x00
  | .keyed => keyedHash
  | .deriveCtx => deriveKeyContext
  | .deriveMat => deriveKeyMaterial

/-- StartFlag (R130): "CHUNK_START is set only on the first block of a chunk". -/
def startFlag (b : B3C) : Byte := if b.blocks.val = 0 then chunkStart else 0x00

/-- The flags of a chunk block that is not the last: `BF | StartFlag` (R133). -/
def blockFlags (b : B3C) : Byte := b.bf ||| startFlag b

/-- The flags of a chunk's final block: `BF | StartFlag | CHUNK_END` (R133, R134). -/
def chunkEndFlags (b : B3C) : Byte := b.bf ||| startFlag b ||| chunkEnd

/-- The flags of a parent: `BF | PARENT` (R151). -/
def parentFlags (b : B3C) : Byte := b.bf ||| parentFlag

/-! ## The status fields -/

/-- The 2-bit code of PHASE (R22). -/
def Phase.code : Phase → BitVec 2
  | .idle => 0
  | .absorbing => 1
  | .finalized => 2

/-- The 2-bit code of MODE (R23, R87). -/
def modeCode : Mode → BitVec 2
  | .plain => 0
  | .keyed => 1
  | .deriveCtx => 2
  | .deriveMat => 3

/-- The 8-bit ERRCODE (R221). -/
def ErrCode.code : ErrCode → Byte
  | .none => 0
  | .illegalCmd => 1
  | .notInit => 2
  | .afterFinal => 3
  | .notFinal => 4
  | .blenRange => 5
  | .xofRange => 6
  | .ctrOverflow => 7
  | .stackOverflow => 8
  | .busyWrite => 9

/-- STATUS (R37): BUSY [0], ERR [1], PHASE [3:2], MODE [5:4], ERRCODE [15:8], every other bit 0. -/
def statusWord (b : B3C) : Word :=
  (0 : BitVec 16) ++ b.errCode.code ++ (0 : BitVec 2) ++ modeCode b.mode ++ b.phase.code
    ++ BitVec.ofBool b.err ++ BitVec.ofBool b.busy

/-- INFO (R38): BUFLEN [6:0], BLOCKS [11:8], DEPTH [21:16], every other bit 0. -/
def infoWord (b : B3C) : Word :=
  (0 : BitVec 10) ++ BitVec.ofNat 6 b.depth.val ++ (0 : BitVec 4) ++ BitVec.ofNat 4 b.blocks.val
    ++ (0 : BitVec 1) ++ BitVec.ofNat 7 b.bufLen.val

end Sys2Proof.Machine
end

