-- ==== Sys2Proof/Machine/Operands.lean ====
section
/-! DEFINITION. The operands of the commands: "Commands take every other operand from the host registers of 10_state.md
rules R41 to R46, never from the command word" (30_encoding.md R82). All are read at the core step (70_reset_and_hazards.md
R259). -/

namespace Sys2Proof.Machine

/-- ABSORB's input bytes, `D = Bytes(DIN)[0..n-1]` (20_memory.md R64). -/
def absorbOperand (b : B3C) (n : Nat) : List Byte := (bytesOf b.din).toList.take n

/-- `SEEK = {SEEK_HI, SEEK_LO}`, the operand of XOF_SEEK (R41). -/
def seekOperand (b : B3C) : U64 := b.seekHi ++ b.seekLo

/-- `CCTR = {CCTR_HI, CCTR_LO}`, the counter operand of COMPRESS (R42). -/
def cctrOperand (b : B3C) : U64 := b.cctrHi ++ b.cctrLo

/-- `BLEN = CPARAM[7:0]`, the block-length operand of COMPRESS (R43). -/
def blenOperand (b : B3C) : Byte := b.cparam.extractLsb' 0 8

/-- `FLAGS = CPARAM[15:8]`, the flag operand of COMPRESS (R43). -/
def flagsOperand (b : B3C) : Byte := b.cparam.extractLsb' 8 8

end Sys2Proof.Machine
end

