-- ==== Sys2Proof/Machine/Compress.lean ====
section
/-! DEFINITION. The compression function (40_compress.md R100 to R109), Node (00_scope.md R10), and the COMPRESS command
(R110). -/

namespace Sys2Proof.Machine

/-! ## Constants (10_state.md R49, 40_compress.md R104) -/

/-- IV (R49). -/
def iv : CV :=
  #v[0x6a09e667, 0xbb67ae85, 0x3c6ef372, 0xa54ff53a, 0x510e527f, 0x9b05688c, 0x1f83d9ab, 0x5be0cd19]

/-- The message permutation π (R104). -/
def msgPerm : Vector (Fin 16) 16 := #v[2, 6, 3, 10, 7, 0, 4, 13, 1, 11, 12, 5, 9, 14, 15, 8]

/-! ## The function -/

/-- The initial state: cv, IV[0..3], and the row (counter_lo, counter_hi, blockLen, flags) (R101). -/
def initialState (cv : CV) (t : U64) (blen flags : Byte) : Block :=
  #v[cv[0], cv[1], cv[2], cv[3], cv[4], cv[5], cv[6], cv[7],
     iv[0], iv[1], iv[2], iv[3], lo32 t, hi32 t, blen.zeroExtend 32, flags.zeroExtend 32]

/-- `G(a, b, c, d, mx, my)`, in place on the state; "each line reads the values the previous lines wrote" (R102). -/
def g (s : Block) (a b c d : Fin 16) (mx my : Word) : Block :=
  let s := s.set a (s[a] + s[b] + mx)
  let s := s.set d (rotr (s[d] ^^^ s[a]) 16)
  let s := s.set c (s[c] + s[d])
  let s := s.set b (rotr (s[b] ^^^ s[c]) 12)
  let s := s.set a (s[a] + s[b] + my)
  let s := s.set d (rotr (s[d] ^^^ s[a]) 8)
  let s := s.set c (s[c] + s[d])
  s.set b (rotr (s[b] ^^^ s[c]) 7)

/-- One round: four columns, then four diagonals; the k-th G takes `m'[2k]` and `m'[2k+1]` (R103; the spec's GK1). -/
def round (s m : Block) : Block :=
  let s := g s 0 4 8 12 m[0] m[1]
  let s := g s 1 5 9 13 m[2] m[3]
  let s := g s 2 6 10 14 m[4] m[5]
  let s := g s 3 7 11 15 m[6] m[7]
  let s := g s 0 5 10 15 m[8] m[9]
  let s := g s 1 6 11 12 m[10] m[11]
  let s := g s 2 7 8 13 m[12] m[13]
  g s 3 4 9 14 m[14] m[15]

/-- `P(m)[i] = m[π[i]]` (R104), on a schedule of anything: Words here, four-lane vectors in FourLane.lean. -/
def permute {α : Type} (m : Vector α 16) : Vector α 16 := Vector.ofFn fun i => m[msgPerm[i]]

/-- `k` further rounds, the schedule permuted before each (R105). -/
def moreRounds : (k : Nat) → (s m : Block) → Block
  | 0, s, _ => s
  | k + 1, s, m => moreRounds k (round s (permute m)) (permute m)

/-- The output words: `s[i] ⊕ s[i+8]`, then `s[i+8] ⊕ cv[i]` (R106). -/
def outputWords (s : Block) (cv : CV) : Block :=
  Vector.ofFn fun i => if h : i.val < 8 then s[i.val] ^^^ s[i.val + 8] else s[i.val] ^^^ cv[i.val - 8]

/-- Compress in full (R107): round 1 on the block itself, then six rounds each after a permutation. -/
def compress (cv : CV) (m : Block) (t : U64) (blen flags : Byte) : Block :=
  outputWords (moreRounds 6 (round (initialState cv t blen flags) m) m) cv

/-! ## Node (R10) -/

/-- A Node: "the complete argument list of one compression" (R10). -/
structure Node where
  cv : CV
  block : Block
  counter : U64
  blen : Byte
  flags : Byte
deriving DecidableEq, Repr

/-- `NodeOut(N)` (R10). -/
def nodeOut (n : Node) : Block := compress n.cv n.block n.counter n.blen n.flags

/-- `NodeCV(N) = NodeOut(N)[0..7]` (R10). -/
def nodeCV (n : Node) : CV := first8 (nodeOut n)

/-! ## COMPRESS (R110) -/

/-- `Exec(COMPRESS)` (R110): BLEN_RANGE when BLEN > 64, else DOUT is the compression of the host operands, in any
phase. -/
def compressBody (b : B3C) : Except Stop B3C :=
  if (blenOperand b).toNat > 64 then .error (.error .blenRange)
  else .ok { b with dout := compress b.cv b.din (cctrOperand b) (blenOperand b) (flagsOperand b) }

/-- COMPRESS (R110). -/
def execCompress (s : State) : Host.Outcome State Fault Refusal := commit s (compressBody s.b3c)

end Sys2Proof.Machine
end

