-- ==== Sys2Proof/Machine/Chunk.lean ====
section
/-! DEFINITION. The chunk accumulator's internal procedures (41_chunk.md R130 to R140). ABSORB and FINALIZE call them; no
command reaches them directly. -/

namespace Sys2Proof.Machine

/-- `ChunkLen = 64 * BLOCKS + BUFLEN` (R130). -/
def chunkLen (b : B3C) : Nat := 64 * b.blocks.val + b.bufLen.val

/-- CompressBlock (R131). Its precondition, BUFLEN = 64 and BLOCKS <= 14, holds at its one call (R132), so BLOCKS never
wraps. -/
def compressBlock (b : B3C) : B3C :=
  { b with
    cscv := first8 (compress b.cscv (wordsOf b.buf) b.ccnt 64 (blockFlags b))
    blocks := b.blocks + 1
    buf := zero64
    bufLen := 0 }

/-- How many of `k` further bytes the buffer takes: `min(64 - BUFLEN, k)` (R132). -/
def bufTake (b : B3C) (k : Nat) : Nat := min (64 - b.bufLen.val) k

theorem bufLen_bufTake_lt (b : B3C) (k : Nat) : b.bufLen.val + bufTake b k < 65 := by
  have := b.bufLen.isLt
  unfold bufTake
  omega

/-- `BUF[BUFLEN .. BUFLEN+take-1] <- D`, `BUFLEN <- BUFLEN + take` (R132), for as many bytes of `xs` as fit. -/
def fillBuf (b : B3C) (xs : List Byte) : B3C :=
  { b with
    buf := writeBytes b.buf b.bufLen.val (xs.take (bufTake b xs.length))
    bufLen := ⟨b.bufLen.val + bufTake b xs.length, bufLen_bufTake_lt b xs.length⟩ }

/-- A full buffer, met when a further byte follows, is compressed first (R132). -/
def makeRoom (b : B3C) : B3C := if b.bufLen.val = 64 then compressBlock b else b

/-- The loop of ChunkUpdate, at most `fuel` turns; each turn takes at least one byte, so as many turns as bytes are
enough. -/
def chunkUpdateLoop : (fuel : Nat) → List Byte → B3C → B3C
  | 0, _, b => b
  | _, [], b => b
  | fuel + 1, xs, b =>
    let b := makeRoom b
    chunkUpdateLoop fuel (xs.drop (bufTake b xs.length)) (fillBuf b xs)

/-- ChunkUpdate (R132), lazy: "A full buffer is compressed only when a further byte follows". -/
def chunkUpdate (xs : List Byte) (b : B3C) : B3C := chunkUpdateLoop xs.length xs b

/-- ChunkNode (R134): the chunk's final compression. -/
def chunkNode (b : B3C) : Node where
  cv := b.cscv
  block := wordsOf b.buf
  counter := b.ccnt
  blen := BitVec.ofNat 8 b.bufLen.val
  flags := chunkEndFlags b

/-- ChunkReset (R139). CCNT is advanced by ChunkClose, not here. -/
def chunkReset (b : B3C) : B3C :=
  { b with cscv := b.bk, blocks := 0, buf := zero64, bufLen := 0 }

end Sys2Proof.Machine
end

