-- ==== Sys2Proof/Machine/Tree.lean ====
section
/-! DEFINITION. The CV stack and the Merkle tree (42_tree.md R150 to R161): ParentNode, ChunkClose with its checks, and
RootFold. -/

namespace Sys2Proof.Machine

/-- `STACK[d]`, for `d` in 0 to 53 (R27). No rule asks for another entry. -/
def stackEntry (b : B3C) (d : Nat) : CV := if h : d < 54 then b.stack[d] else zeroCV

/-- ParentNode (R151): cv = BK, block = left ‖ right, counter 0, block length 64, flags BF | PARENT. -/
def parentNode (b : B3C) (l r : CV) : Node where
  cv := b.bk
  block := joinCV l r
  counter := 0
  blen := 64
  flags := parentFlags b

/-- ParentCV (R151). -/
def parentCV (b : B3C) (l r : CV) : CV := nodeCV (parentNode b l r)

/-- The merges of ChunkClose (R152): while `t` is even, merge the CV in hand with the top of the stack, left the older
one, and halve `t`. Answers the CV in hand and the DEPTH left, or nothing where a merge would find no entry (DEPTH = 0).
`t < 2^64`, so 64 turns are enough. -/
def mergeLoop (b : B3C) : (fuel t depth : Nat) → CV → Option (CV × Nat)
  | 0, _, depth, cv => some (cv, depth)
  | fuel + 1, t, depth, cv =>
    if t % 2 = 0 then
      match depth with
      | 0 => none
      | d + 1 => mergeLoop b fuel (t / 2) d (parentCV b (stackEntry b d) cv)
    else some (cv, depth)

/-- `STACK[DEPTH] <- cv; DEPTH <- DEPTH + 1` (R152), for a DEPTH of at most 53, which R155(b) has checked. -/
def pushCV (b : B3C) (depth : Nat) (cv : CV) : B3C :=
  { b with stack := b.stack.setIfInBounds depth cv, depth := Fin.ofNat 55 (depth + 1) }

/-- ChunkClose (R152): the chunk's CV, exactly tz(CCNT + 1) merges, one push, CCNT + 1, ChunkReset. -/
def chunkClose (b : B3C) : Option B3C :=
  match mergeLoop b 64 (b.ccnt.toNat + 1) b.depth.val (nodeCV (chunkNode b)) with
  | none => none
  | some (cv, depth) => some (chunkReset { pushCV b depth cv with ccnt := b.ccnt + 1 })

/-- A chunk close with its two checks before it, in R155's order: (a) CTR_OVERFLOW, (b) STACK_OVERFLOW. -/
def closeChecked (b : B3C) : Except Stop B3C :=
  if b.ccnt.toNat = 2 ^ 64 - 1 then .error (.error .ctrOverflow)
  else if b.depth.val - tz (b.ccnt.toNat + 1) ≥ 54 then .error (.error .stackOverflow)
  else
    match chunkClose b with
    | some b' => .ok b'
    | none => .error (.fault .mergeWithoutEntry)

/-- The fold of RootFold (R156), with `d` entries still to take, from the newest to the oldest. -/
def foldFrom (b : B3C) : (d : Nat) → Node → Node
  | 0, n => n
  | d + 1, n => foldFrom b d (parentNode b (stackEntry b d) (nodeCV n))

/-- RootFold (R156): the last chunk's Node folded through the stack; only the last Node formed gets ROOT. It writes no
register. -/
def rootFold (b : B3C) : Node :=
  let n := foldFrom b b.depth.val (chunkNode b)
  { n with flags := n.flags ||| rootFlag }

end Sys2Proof.Machine
end

