-- ==== Sys2Proof/Machine/Hasher.lean ====
section
/-! DEFINITION. The streaming hasher's commands NOP, INIT, ABSORB and FINALIZE (44_hasher.md R180 to R189). -/

namespace Sys2Proof.Machine

/-! ## NOP (R181) -/

/-- NOP (R181): "no write". -/
def execNop (s : State) : Host.Outcome State Fault Refusal := commit s (.ok s.b3c)

/-! ## INIT (R182) -/

/-- The base key of a mode (R87, R182): KEY for modes 1 and 3, IV for modes 0 and 2. -/
def baseKey (m : Mode) (b : B3C) : CV :=
  match m with
  | .plain => iv
  | .keyed => b.key
  | .deriveCtx => iv
  | .deriveMat => b.key

/-- `Exec(INIT m)` (R182): every write of the rule, in any phase. -/
def initBody (m : Mode) (b : B3C) : B3C :=
  { b with
    bk := baseKey m b
    bf := baseFlags m
    mode := m
    phase := .absorbing
    cscv := baseKey m b
    ccnt := 0
    blocks := 0
    buf := zero64
    bufLen := 0
    stack := Vector.replicate 54 zeroCV
    depth := 0
    rCv := zeroCV
    rBlk := Vector.replicate 16 0
    rBlen := 0
    rFlg := 0
    xpos := 0 }

/-- INIT (R182). -/
def execInit (m : Mode) (s : State) : Host.Outcome State Fault Refusal := commit s (.ok (initBody m s.b3c))

/-! ## ABSORB (R183) -/

/-- How many of `k` further bytes the chunk takes: `min(1024 - ChunkLen, k)` (R183). -/
def chunkTake (b : B3C) (k : Nat) : Nat := min (1024 - chunkLen b) k

/-- "full chunk AND a further byte: close it" (R183, R154). -/
def closeIfFull (b : B3C) : Except Stop B3C := if chunkLen b = 1024 then closeChecked b else .ok b

/-- The loop of ABSORB (R183), at most `fuel` turns; each turn takes at least one byte, so as many turns as bytes are
enough. -/
def absorbLoop : (fuel : Nat) → List Byte → B3C → Except Stop B3C
  | 0, _, b => .ok b
  | _, [], b => .ok b
  | fuel + 1, xs, b =>
    match closeIfFull b with
    | .error e => .error e
    | .ok b =>
      let take := chunkTake b xs.length
      absorbLoop fuel (xs.drop take) (chunkUpdate (xs.take take) b)

/-- The bytes `xs` absorbed in order: the loop of ABSORB for an input of any length. -/
def absorbBytes (xs : List Byte) (b : B3C) : Except Stop B3C := absorbLoop xs.length xs b

/-- `Exec(ABSORB n)` (R183). A count over 64 has no legal word, and is ILLEGAL_CMD before any other error (R222;
log 17). -/
def absorbBody (n : Nat) (b : B3C) : Except Stop B3C :=
  if n > 64 then .error (.error .illegalCmd)
  else
    match b.phase with
    | .idle => .error (.error .notInit)
    | .finalized => .error (.error .afterFinal)
    | .absorbing => absorbBytes (absorbOperand b n) b

/-- ABSORB (R183). -/
def execAbsorb (n : Nat) (s : State) : Host.Outcome State Fault Refusal := commit s (absorbBody n s.b3c)

/-! ## FINALIZE (R184) -/

/-- The root registers take a Node; its counter "is not stored" (R184, R204). -/
def captureRoot (n : Node) (b : B3C) : B3C :=
  { b with rCv := n.cv, rBlk := n.block, rBlen := n.blen, rFlg := n.flags, xpos := 0, phase := .finalized }

/-- `Exec(FINALIZE)` (R184). The accumulator, STACK and DEPTH keep their values. -/
def finalizeBody (b : B3C) : Except Stop B3C :=
  match b.phase with
  | .idle => .error (.error .notInit)
  | .finalized => .error (.error .afterFinal)
  | .absorbing => .ok (captureRoot (rootFold b) b)

/-- FINALIZE (R184). -/
def execFinalize (s : State) : Host.Outcome State Fault Refusal := commit s (finalizeBody s.b3c)

end Sys2Proof.Machine
end

