-- ==== Sys2Proof/Machine/Xof.lean ====
section
/-! DEFINITION. The XOF output generator (45_xof.md R200 to R206): the output blocks, the output stream, XOF_READ and
XOF_SEEK. -/

namespace Sys2Proof.Machine

/-- `OutputBlock(k)` (R200): the root Node compressed with the output counter `k` in the counter's place (R204). -/
def outputBlock (b : B3C) (k : Nat) : Block := compress b.rCv b.rBlk (BitVec.ofNat 64 k) b.rBlen b.rFlg

/-- `Stream(p) = Bytes(OutputBlock(p div 64))[p mod 64]`, for `p <= 2^64 - 2` (R201). -/
def stream (b : B3C) (p : Nat) : Byte := (bytesOf (outputBlock b (p / 64)))[p % 64]'(Nat.mod_lt _ (by decide))

/-- The `n` stream bytes from position `p` on, for `n <= 64`, from the two output blocks they can lie in: "a read never
needs more than two" (R202; log 18). -/
def streamBytes (b : B3C) (p n : Nat) : List Byte :=
  (((bytesOf (outputBlock b (p / 64))).toList ++ (bytesOf (outputBlock b (p / 64 + 1))).toList).drop (p % 64)).take n

/-- `Exec(XOF_READ n)` (R202). The sum XPOS + n is exact. A count over 64 has no legal word, and is ILLEGAL_CMD before
any other error (R222; log 17). -/
def xofReadBody (n : Nat) (b : B3C) : Except Stop B3C :=
  if n > 64 then .error (.error .illegalCmd)
  else if b.phase ≠ .finalized then .error (.error .notFinal)
  else if b.xpos.toNat + n > 2 ^ 64 - 1 then .error (.error .xofRange)
  else .ok { b with
    dout := wordsOf (padTo64 (streamBytes b b.xpos.toNat n))
    xpos := BitVec.ofNat 64 (b.xpos.toNat + n) }

/-- XOF_READ (R202). -/
def execXofRead (n : Nat) (s : State) : Host.Outcome State Fault Refusal := commit s (xofReadBody n s.b3c)

/-- `Exec(XOF_SEEK)` (R203): any 64-bit value is accepted. -/
def xofSeekBody (b : B3C) : Except Stop B3C :=
  if b.phase ≠ .finalized then .error (.error .notFinal)
  else .ok { b with xpos := seekOperand b }

/-- XOF_SEEK (R203). -/
def execXofSeek (s : State) : Host.Outcome State Fault Refusal := commit s (xofSeekBody s.b3c)

end Sys2Proof.Machine
end

