-- ==== Sys2Proof/Machine/Dispatch.lean ====
section
/-! DEFINITION. One arm per command: each calls its meaning (30_encoding.md R81, R91). -/

namespace Sys2Proof.Machine

def exec (i : Instr) (s : State) : Host.Outcome State Fault Refusal :=
  match i with
  | .nop => Sys2Proof.Machine.execNop s
  | .init m => Sys2Proof.Machine.execInit m s
  | .absorb n => Sys2Proof.Machine.execAbsorb n s
  | .finalize => Sys2Proof.Machine.execFinalize s
  | .xofRead n => Sys2Proof.Machine.execXofRead n s
  | .xofSeek => Sys2Proof.Machine.execXofSeek s
  | .compress => Sys2Proof.Machine.execCompress s

end Sys2Proof.Machine
end

