-- ==== Sys2Proof/Machine/FourLane.lean ====
section
/-! DEFINITION. The four-lane chunk engine (43_compress4x.md R170 to R173), written beside the scalar rules as DOC0
describes it: "Four 128-bit SIMD lanes hold the same state word across the four chunks". No command uses it and no
register shows it (R173, log 13); an obligation says that its lanes give the scalar rules' chaining values (R170). -/

namespace Sys2Proof.Machine

/-- A 128-bit vector: lane `j` holds the Word of chunk `k + j` (R171). -/
abbrev Lanes := Vector Word 4

/-- Addition "mod 2^32 in each lane with no carry between lanes" (R171). -/
def addLanes (x y : Lanes) : Lanes := Vector.ofFn fun j => x[j] + y[j]

/-- Exclusive or, lane by lane (R171). -/
def xorLanes (x y : Lanes) : Lanes := Vector.ofFn fun j => x[j] ^^^ y[j]

/-- "`rotr` by 16, 12, 8 or 7 rotates each lane by itself" (R171). -/
def rotrLanes (x : Lanes) (n : Nat) : Lanes := Vector.ofFn fun j => rotr x[j] n

/-- The same Word in every lane. -/
def sameLanes (w : Word) : Lanes := Vector.replicate 4 w

/-- G on four lanes (R171, R102). -/
def gLanes (s : Vector Lanes 16) (a b c d : Fin 16) (mx my : Lanes) : Vector Lanes 16 :=
  let s := s.set a (addLanes (addLanes s[a] s[b]) mx)
  let s := s.set d (rotrLanes (xorLanes s[d] s[a]) 16)
  let s := s.set c (addLanes s[c] s[d])
  let s := s.set b (rotrLanes (xorLanes s[b] s[c]) 12)
  let s := s.set a (addLanes (addLanes s[a] s[b]) my)
  let s := s.set d (rotrLanes (xorLanes s[d] s[a]) 8)
  let s := s.set c (addLanes s[c] s[d])
  s.set b (rotrLanes (xorLanes s[b] s[c]) 7)

/-- One round on four lanes (R171, R103). -/
def roundLanes (s m : Vector Lanes 16) : Vector Lanes 16 :=
  let s := gLanes s 0 4 8 12 m[0] m[1]
  let s := gLanes s 1 5 9 13 m[2] m[3]
  let s := gLanes s 2 6 10 14 m[4] m[5]
  let s := gLanes s 3 7 11 15 m[6] m[7]
  let s := gLanes s 0 5 10 15 m[8] m[9]
  let s := gLanes s 1 6 11 12 m[10] m[11]
  let s := gLanes s 2 7 8 13 m[12] m[13]
  gLanes s 3 4 9 14 m[14] m[15]

/-- Further rounds; "the message schedule and π are the same in every lane" (R171, R105). -/
def moreRoundsLanes : (k : Nat) → (s m : Vector Lanes 16) → Vector Lanes 16
  | 0, s, _ => s
  | k + 1, s, m => moreRoundsLanes k (roundLanes s (permute m)) (permute m)

/-- Compress on four lanes: the lanes differ in their chaining values, their message Words and their counters, and share
block length and flags (R171). -/
def compressLanes (cv : Vector Lanes 8) (m : Vector Lanes 16) (t : Vector U64 4) (blen flags : Byte) :
    Vector Lanes 8 :=
  let s : Vector Lanes 16 :=
    #v[cv[0], cv[1], cv[2], cv[3], cv[4], cv[5], cv[6], cv[7],
       sameLanes iv[0], sameLanes iv[1], sameLanes iv[2], sameLanes iv[3],
       Vector.ofFn fun j => lo32 t[j], Vector.ofFn fun j => hi32 t[j],
       sameLanes (blen.zeroExtend 32), sameLanes (flags.zeroExtend 32)]
  let s := moreRoundsLanes 6 (roundLanes s m) m
  Vector.ofFn fun i => xorLanes s[i.val] s[i.val + 8]

/-- A full chunk: 1024 bytes (R5, CHUNK_LEN). -/
abbrev FullChunk := Vector Byte 1024

/-- Block `i` of a full chunk as 16 Words (R67). -/
def chunkBlock (x : FullChunk) (i : Fin 16) : Block :=
  wordsOf (Vector.ofFn fun j => x[64 * i.val + j.val])

/-- The message vectors of block `i` of four chunks: "every lane processes block `b` of its own chunk at the same time"
(R171). -/
def blockLanes (xs : Vector FullChunk 4) (i : Fin 16) : Vector Lanes 16 :=
  Vector.ofFn fun w => Vector.ofFn fun j => (chunkBlock xs[j] i)[w]

/-- The flags of block `i` of a full chunk (R133): CHUNK_START on the first, CHUNK_END on the last. -/
def fullChunkFlags (bf : Byte) (i : Fin 16) : Byte :=
  bf ||| (if i.val = 0 then chunkStart else 0x00) ||| (if i.val = 15 then chunkEnd else 0x00)

/-- The chaining values after the first `n` blocks of four chunks. -/
def fourLaneBlocks (bk : CV) (bf : Byte) (k : U64) (xs : Vector FullChunk 4) : (n : Nat) → Vector Lanes 8
  | 0 => Vector.ofFn fun w => sameLanes bk[w]
  | n + 1 =>
    compressLanes (fourLaneBlocks bk bf k xs n) (blockLanes xs (Fin.ofNat 16 n))
      (Vector.ofFn fun j => k + BitVec.ofNat 64 j.val) 64 (fullChunkFlags bf (Fin.ofNat 16 n))

/-- The engine (R170): "Given four independent full chunks ... and a base chunk counter `k`, produce four CVs for chunks
`k, k+1, k+2, k+3`". "A single call processes all 16 blocks of all 4 chunks end-to-end" (R171). -/
def compress4x (bk : CV) (bf : Byte) (k : U64) (xs : Vector FullChunk 4) : Vector CV 4 :=
  let r := fourLaneBlocks bk bf k xs 16
  Vector.ofFn fun j => Vector.ofFn fun w => r[w][j]

end Sys2Proof.Machine
end

