-- ==== Sys2Proof/Config.lean ====
section
/-! DEFINITION. What the spec leaves OPEN for an implementation to fix (00_scope.md R5, 92_eei_decisions.md "Open
parameters") and the free values. Each is an opaque constant: nothing can be proved about its value, so a claim
holds whatever it is. LATENCY is not here: where a core step falls is the list `inputs` of State (log 2). HAS_4X is not
here: it has no architectural effect (R173, log 13). -/

namespace Sys2Proof.Config

/-- The OPEN parameter B3C_BASE, divided by 256: "aligned to 256" (R5, R60, D2). DESIGN CHOICE (log 1), safe. -/
opaque b3cPage : Nat

/-- The value the `n`-th unspecified read returns: "read an unspecified value while BUSY = 1, and a model returns any
value for them" (R257, U16). A free value; log 3, safe. -/
opaque unspecifiedRead : Nat → Word

end Sys2Proof.Config

namespace Sys2Proof

/-- B3C_BASE: the byte address of the register window on the host bus (R60). -/
def Config.b3cBase : Nat := 256 * Config.b3cPage

end Sys2Proof
end

