-- ==== Sys2Proof/Machine/Registers.lean ====
section
/-! DEFINITION. The host register window (10_state.md R34 to R48): which register stands at which offset, what a read of
it returns, and what a write to it does. Every access of the host to a register goes through these. -/

namespace Sys2Proof.Machine

/-- The offset of a register in the window (R34). -/
def regOffset : Reg → Nat
  | .id => 0x000
  | .cmd => 0x004
  | .status => 0x008
  | .info => 0x00C
  | .ccntLo => 0x010
  | .ccntHi => 0x014
  | .xposLo => 0x018
  | .xposHi => 0x01C
  | .seekLo => 0x020
  | .seekHi => 0x024
  | .cctrLo => 0x028
  | .cctrHi => 0x02C
  | .cparam => 0x030
  | .reserved j => 0x034 + 4 * j.val
  | .key j => 0x040 + 4 * j.val
  | .cv j => 0x060 + 4 * j.val
  | .din j => 0x080 + 4 * j.val
  | .dout j => 0x0C0 + 4 * j.val

/-- The register at word offset `i`, for `i` in 0 to 63 (R34); there is none beyond. -/
def regAtWord (i : Nat) : Option Reg :=
  if i = 0 then some .id
  else if i = 1 then some .cmd
  else if i = 2 then some .status
  else if i = 3 then some .info
  else if i = 4 then some .ccntLo
  else if i = 5 then some .ccntHi
  else if i = 6 then some .xposLo
  else if i = 7 then some .xposHi
  else if i = 8 then some .seekLo
  else if i = 9 then some .seekHi
  else if i = 10 then some .cctrLo
  else if i = 11 then some .cctrHi
  else if i = 12 then some .cparam
  else if i < 16 then some (.reserved (Fin.ofNat 3 (i - 13)))
  else if i < 24 then some (.key (Fin.ofNat 8 (i - 16)))
  else if i < 32 then some (.cv (Fin.ofNat 8 (i - 24)))
  else if i < 48 then some (.din (Fin.ofNat 16 (i - 32)))
  else if i < 64 then some (.dout (Fin.ofNat 16 (i - 48)))
  else none

/-- ID (R35). -/
def idValue : Word := 0x42330007

/-- What a read of a register returns while its value is defined (R34 to R48). -/
def readReg (b : B3C) : Reg → Word
  | .id => idValue
  | .cmd => 0
  | .status => statusWord b
  | .info => infoWord b
  | .ccntLo => lo32 b.ccnt
  | .ccntHi => hi32 b.ccnt
  | .xposLo => lo32 b.xpos
  | .xposHi => hi32 b.xpos
  | .seekLo => b.seekLo
  | .seekHi => b.seekHi
  | .cctrLo => b.cctrLo
  | .cctrHi => b.cctrHi
  | .cparam => b.cparam.zeroExtend 32
  | .reserved _ => 0
  | .key j => b.key[j]
  | .cv j => b.cv[j]
  | .din j => b.din[j]
  | .dout j => b.dout[j]

/-- The results and mirrors whose reads are unspecified while BUSY = 1 (R257, U16). -/
def unspecifiedWhenBusy : Reg → Bool
  | .info | .ccntLo | .ccntHi | .xposLo | .xposHi | .dout _ => true
  | .id | .cmd | .status | .seekLo | .seekHi | .cctrLo | .cctrHi | .cparam => false
  | .reserved _ | .key _ | .cv _ | .din _ => false

/-- A host write to a register other than CMD, with BUSY = 0: an RW register stores the value (CPARAM its bits 15:0,
R43); "A write to an RO register or a reserved offset is ignored" (R70, R48). -/
def storeReg (r : Reg) (v : Word) (b : B3C) : B3C :=
  match r with
  | .seekLo => { b with seekLo := v }
  | .seekHi => { b with seekHi := v }
  | .cctrLo => { b with cctrLo := v }
  | .cctrHi => { b with cctrHi := v }
  | .cparam => { b with cparam := v.extractLsb' 0 16 }
  | .key j => { b with key := b.key.set j v }
  | .cv j => { b with cv := b.cv.set j v }
  | .din j => { b with din := b.din.set j v }
  | .id | .cmd | .status | .info | .ccntLo | .ccntHi | .xposLo | .xposHi => b
  | .reserved _ | .dout _ => b

/-- A write to CMD with BUSY = 0 (R254): ignored while ERR = 1 (R226), else accepted. The word is not decoded here. -/
def issueCommand (w : Word) (b : B3C) : B3C :=
  if b.err then b else { b with pend := w, busy := true }

/-- A host write to the register `r` (R254, R256): while BUSY = 1 it is ignored and raises BUSY_WRITE, whatever the
offset; the pending command stays (R227). -/
def hostWrite (r : Reg) (v : Word) (b : B3C) : B3C :=
  if b.busy then recordError .busyWrite b
  else if r = .cmd then issueCommand v b
  else storeReg r v b

/-- What a host read of the register `r` returns: its value, or the free value `free` where R257 leaves it
unspecified. -/
def hostReadValue (r : Reg) (free : Word) (b : B3C) : Word :=
  if b.busy && unspecifiedWhenBusy r then free else readReg b r

end Sys2Proof.Machine
end

