-- ==== Sys2Proof/Machine/HostBus.lean ====
section
/-! DEFINITION. The host's bus accesses (20_memory.md R60 to R77) and the reset input (70_reset_and_hazards.md R250): what
one move of the host or of the reset agent does to the state. -/

namespace Sys2Proof.Machine

/-- Whether an access of `width` bytes at `addr` touches the window: some byte of it has B3C_BASE <= a < B3C_BASE + 256
(R60). -/
def reachesWindow (addr width : Nat) : Bool :=
  decide (addr < Config.b3cBase + 256 ∧ Config.b3cBase < addr + max width 1)

/-- What an access comes to. -/
inductive Access where
  /-- "The B3C does not answer addresses outside the window" (R60). -/
  | unanswered
  /-- The spec has the model refuse it (R62, R77). -/
  | refused (r : Refusal)
  /-- It reaches this register (R60, R34). -/
  | register (r : Reg)
deriving DecidableEq, Repr

/-- Whether `host` may drive the instance: it is the first host, or the one that already does (R77; log 5). -/
def mayDrive (owner : Option Nat) (host : Nat) : Bool :=
  match owner with
  | none => true
  | some h => h == host

/-- The access of `width` bytes at `addr` by `host` (R60, R62, R77): "The B3C admits only 32-bit accesses at word-aligned
addresses", and the register reached is the one at offset `a - B3C_BASE`. -/
def resolveAccess (owner : Option Nat) (host addr width : Nat) : Access :=
  if reachesWindow addr width = false then .unanswered
  else if width ≠ 4 then .refused .accessWidth
  else if addr % 4 ≠ 0 then .refused .misaligned
  else if mayDrive owner host = false then .refused .secondHost
  else
    match regAtWord ((addr - Config.b3cBase) / 4) with
    | some r => .register r
    | none => .unanswered

/-- A host write at a register (R70: one access, one effect). -/
def writeAccess (host : Nat) (r : Reg) (v : Word) (s : State) : State :=
  { s with b3c := hostWrite r v s.b3c, owner := some host }

/-- A host read at a register: the value joins `reads`, the B3C is untouched (R70), and an unspecified read uses up one
free value (R257). -/
def readAccess (host : Nat) (r : Reg) (s : State) : State :=
  { s with
    reads := hostReadValue r (Config.unspecifiedRead s.freeCount) s.b3c :: s.reads
    freeCount := if s.b3c.busy && unspecifiedWhenBusy r then s.freeCount + 1 else s.freeCount
    owner := some host }

/-- The host's `MemWrite(addr, width, v)` (R9). -/
def memWrite (host addr width : Nat) (v : Word) (s : State) : Host.Outcome State Fault Refusal :=
  match resolveAccess s.owner host addr width with
  | .unanswered => .next s
  | .refused r => .refused r
  | .register r => .next (writeAccess host r v s)

/-- The host's `MemRead(addr, width)` (R9). -/
def memRead (host addr width : Nat) (s : State) : Host.Outcome State Fault Refusal :=
  match resolveAccess s.owner host addr width with
  | .unanswered => .next s
  | .refused r => .refused r
  | .register r => .next (readAccess host r s)

/-- The reset input (R250): every element of R20 takes its reset value; a pending command is discarded. -/
def resetInput (s : State) : State := { s with b3c := B3C.reset }

/-- `wr NAME, imm32` (R88). -/
def wrReg (host : Nat) (r : Reg) (v : Word) : Event := .write host (Config.b3cBase + regOffset r) 4 v

/-- `rd NAME` (R88). -/
def rdReg (host : Nat) (r : Reg) : Event := .read host (Config.b3cBase + regOffset r) 4

end Sys2Proof.Machine
end

