-- ==== Sys2Proof/Machine/Step.lean ====
section
/-! DEFINITION. One step: the next move of the interleaving (20_memory.md R72). `coreStep` is 30_encoding.md R91. -/

namespace Sys2Proof.Machine

/-- CoreStep (R91), enabled iff BUSY = 1: the pending word is decoded, an illegal one raises ILLEGAL_CMD, a legal one is
executed and committed, and BUSY is cleared. With BUSY = 0 the core has no step. -/
def coreStep (s : State) : Host.Outcome State Fault Refusal :=
  if s.b3c.busy = false then .next s
  else
    match decode s.b3c.pend with
    | .error _ => .next (clearBusy (errorEntry .illegalCmd s))
    | .ok i =>
      match exec i s with
      | .next t => .next (clearBusy t)
      | .fault f => .fault f
      | .refused r => .refused r

/-- One move of an agent (R12). -/
def eventStep (e : Event) (s : State) : Host.Outcome State Fault Refusal :=
  match e with
  | .write host addr width v => memWrite host addr width v s
  | .read host addr width => memRead host addr width s
  | .coreTurn => coreStep s
  | .reset => .next (resetInput s)

/-- One step: the next move that `inputs` holds, or the core's when it holds none. So every position of the core step
between a CMD write and the next host access is some `inputs` (R72), the core is delayed by finitely many accesses only
(R255), and with nothing pending and nothing asked the B3C waits (R251, R263). -/
def step (s : State) : Host.Outcome State Fault Refusal :=
  match s.inputs with
  | [] => coreStep s
  | e :: rest => eventStep e { s with inputs := rest }

/-- The state with the table word `w` of `nbits` bits as the pending command and the core's turn next: an accepted CMD
write (R29, R254). A row wider than the 32-bit command word has none (log 15, log 16). -/
def State.withFetchWord (s : State) (nbits w : Nat) : State :=
  match tableWord nbits w with
  | some x => { s with b3c := { s.b3c with pend := x, busy := true }, inputs := .coreTurn :: s.inputs }
  | none => s

end Sys2Proof.Machine
end

