-- ==== Sys2Proof/Machine/HostProgram.lean ====
section
/-! DEFINITION. Host programs (30_encoding.md R88, R89; 44_hasher.md R186, R187): the lines a host program is made of, what
the host agent does at each line (R12), and the pseudo-commands as the lines they expand to. The machine's step does not
depend on this file. Which agent moves when is a list of turns (R72, log 2, log 23), so a `wait` polls as often as the turns
make it. -/

namespace Sys2Proof.Machine

/-! ## Lines and the host that runs them -/

/-- One line of a host program. -/
inductive Line where
  /-- `wr NAME, imm32` (R88). -/
  | wr (r : Reg) (v : Word)
  /-- `rd NAME -> v` (R88). -/
  | rd (r : Reg)
  /-- `wr NAME, v`, with the value `v` that the last `rd` named (R89, `key_from_out`). -/
  | wrRead (r : Reg)
  /-- `wait`: `L: rd STATUS -> s ; if s[0] = 1 go to L` (R89). -/
  | wait
  /-- "append `Bytes(DOUT)[0..m-1]` to y" (R89, `read_out`), of the DOUT words the host has read; no access. -/
  | append (m : Nat)
deriving DecidableEq, Repr

/-- A host program at work on a B3C: the machine, the lines still to come, and what the host itself holds (log 23). -/
structure HostRun where
  /-- The machine, with its bus. -/
  machine : State
  /-- The number of this host (R77). -/
  host : Nat
  /-- The lines still to come, the current one first. -/
  lines : List Line
  /-- `v`: the value of the last `rd`. -/
  value : Word
  /-- The DOUT words as the host last read them. -/
  words : Block
  /-- `y`: the output bytes formed so far. -/
  bytes : List Byte
deriving DecidableEq, Repr

/-- A host about to run `lines`. -/
def HostRun.start (s : State) (host : Nat) (lines : List Line) : HostRun where
  machine := s
  host := host
  lines := lines
  value := 0
  words := Vector.replicate 16 0
  bytes := []

/-- The host's copy of DOUT after it read `v` from the register `r`. -/
def keepWord (r : Reg) (v : Word) (ws : Block) : Block :=
  match r with
  | .dout j => ws.set j v
  | .id | .cmd | .status | .info | .ccntLo | .ccntHi | .xposLo | .xposHi => ws
  | .seekLo | .seekHi | .cctrLo | .cctrHi | .cparam => ws
  | .reserved _ | .key _ | .cv _ | .din _ => ws

/-- The value of the read that was just made (R263; log 4). -/
def lastRead (s : State) : Word := s.reads.headD 0

/-- One access of the host, and what the host makes of the state after it. -/
def access (h : HostRun) (e : Event) (k : State → HostRun) : Host.Outcome HostRun Fault Refusal :=
  match eventStep e h.machine with
  | .next t => .next (k t)
  | .fault f => .fault f
  | .refused r => .refused r

/-- The host's move (R12): one access of the current line, or the forming of output bytes. A `wait` stays the current line as
long as the STATUS it reads has bit 0 set (R89). With no line left the program has ended (R263). -/
def hostMove (h : HostRun) : Host.Outcome HostRun Fault Refusal :=
  match h.lines with
  | [] => .next h
  | .wr r v :: rest => access h (wrReg h.host r v) fun t => { h with machine := t, lines := rest }
  | .rd r :: rest => access h (rdReg h.host r) fun t =>
      { h with machine := t, lines := rest, value := lastRead t, words := keepWord r (lastRead t) h.words }
  | .wrRead r :: rest => access h (wrReg h.host r h.value) fun t => { h with machine := t, lines := rest }
  | .wait :: rest => access h (rdReg h.host .status) fun t =>
      { h with machine := t, lines := if (lastRead t).getLsbD 0 then .wait :: rest else rest }
  | .append m :: rest => .next { h with lines := rest, bytes := h.bytes ++ (bytesOf h.words).toList.take m }

/-- Whose move it is (R12, R72). -/
inductive Turn where
  | host
  | core
  | reset
deriving DecidableEq, Repr

/-- The move of one agent. -/
def turnMove (a : Turn) (h : HostRun) : Host.Outcome HostRun Fault Refusal :=
  match a with
  | .host => hostMove h
  | .core => access h .coreTurn fun t => { h with machine := t }
  | .reset => access h .reset fun t => { h with machine := t }

/-- The moves of a list of turns, up to the first stop. -/
def runTurns : List Turn → HostRun → Host.Outcome HostRun Fault Refusal
  | [], h => .next h
  | a :: turns, h =>
    match turnMove a h with
    | .next k => runTurns turns k
    | .fault f => .fault f
    | .refused r => .refused r

/-! ## Commands and pseudo-commands (R88, R89) -/

/-- A command mnemonic: "stands for `wr CMD, word`" (R88). -/
def issue (i : Instr) : Line := .wr .cmd (encode i)

/-- `LE32(x[4j..4j+3])`, with 0 for the bytes that `x` does not have (R89, R64). -/
def wordAt (xs : List Byte) (j : Nat) : Word :=
  le32 (xs.getD (4 * j) 0) (xs.getD (4 * j + 1) 0) (xs.getD (4 * j + 2) 0) (xs.getD (4 * j + 3) 0)

/-- `ld_din x[0..n-1]`, for n at most 64 (R89). What it does with more bytes is the model's choice, and no program here gives
it more (log 27). -/
def ldDin (xs : List Byte) : List Line :=
  (List.range ((xs.length + 3) / 4)).map fun j => .wr (.din (Fin.ofNat 16 j)) (wordAt xs j)

/-- `ld_key k[0..31]`: `KEY[j] = LE32(k[4j..4j+3])`, of exactly 32 bytes (R89, R66). -/
def ldKey (k : Bytes32) : List Line :=
  (List.finRange 8).map fun j =>
    .wr (.key j) (le32 k[4 * j.val] k[4 * j.val + 1] k[4 * j.val + 2] k[4 * j.val + 3])

/-- The host library's check of a key given as a byte string: 32 bytes are a key, and every other length is rejected (R233,
U10). -/
def keyOfBytes (k : List Byte) : Option Bytes32 := if h : k.length = 32 then some ⟨k.toArray, h⟩ else none

/-- The pieces of `absorb_bytes`: 64 bytes each, the last one shorter; none of an empty input (R89). -/
def pieces : (fuel : Nat) → List Byte → List (List Byte)
  | 0, _ => []
  | _, [] => []
  | fuel + 1, xs => xs.take 64 :: pieces fuel (xs.drop 64)

/-- `absorb_bytes x` (R89). -/
def absorbLines (xs : List Byte) : List Line :=
  (pieces xs.length xs).flatMap fun p => ldDin p ++ [issue (.absorb p.length), .wait]

/-- One turn of `read_out` (R89): `xof_read m`, `wait`, the DOUT words that hold the `m` bytes, and the bytes to y. R89 has `m` at
most 64, and so has every turn of `readLines` (log 27). -/
def readTurn (m : Nat) : List Line :=
  [issue (.xofRead m), .wait] ++ (List.range ((m + 3) / 4)).map (fun j => .rd (.dout (Fin.ofNat 16 j))) ++ [.append m]

/-- `read_out N -> y` (R89): turns of 64 bytes, then the rest. -/
def readLines (n : Nat) : List Line :=
  (List.replicate (n / 64) (readTurn 64)).flatten ++ (if n % 64 = 0 then [] else readTurn (n % 64))

/-- `key_from_out` (R89): "word j to word j, with no byte swap" (R186). -/
def keyFromOut : List Line := (List.finRange 8).flatMap fun j => [.rd (.dout (Fin.ofNat 16 j.val)), .wrRead (.key j)]

/-- From INIT to the captured root: `init m`, `absorb_bytes x`, `finalize`, each with its `wait` (R89). -/
def hashLines (m : Mode) (xs : List Byte) : List Line :=
  [issue (.init m), .wait] ++ absorbLines xs ++ [issue .finalize, .wait]

/-- `hash x, N -> y` (R89, R187). -/
def hashProgram (xs : List Byte) (n : Nat) : List Line := hashLines .plain xs ++ readLines n

/-- `keyed_hash k, x, N -> y` (R89, R187: `keyed_hash(key32, input, out)`). -/
def keyedHashProgram (k : Bytes32) (xs : List Byte) (n : Nat) : List Line := ldKey k ++ hashLines .keyed xs ++ readLines n

/-- The host library's `keyed_hash` of a key given as a byte string: a key of other than 32 bytes is refused "before it loads
KEY", so there is no program for it and no access is made (R233, U10; log 26). -/
def keyedHashOfBytes (k xs : List Byte) (n : Nat) : Option (List Line) :=
  (keyOfBytes k).map fun key => keyedHashProgram key xs n

/-- `derive_key c, x, N -> y` (R89, R186, R187). -/
def deriveKeyProgram (c xs : List Byte) (n : Nat) : List Line :=
  hashLines .deriveCtx c ++ [issue (.xofRead 32), .wait] ++ keyFromOut ++ hashLines .deriveMat xs ++ readLines n

end Sys2Proof.Machine
end

