-- ==== Sys2Proof/Safety.lean ====
section
/-! DEFINITION. What the claims call a good state and a safe run: the invariants the spec says hold "in every state the
rules reach from reset" (10_state.md R26, R27), with the ones that follow from which command writes which register (R22 to
R30), and the words the statements use for a step of the core. -/

namespace Sys2Proof.Machine

/-- The invariant of the B3C. -/
structure B3C.Inv (b : B3C) : Prop where
  /-- R26(b): "`BUF[j] = 0` for every `j >= BUFLEN`". -/
  buf_zero : ∀ j : Fin 64, b.bufLen.val ≤ j.val → b.buf[j] = 0
  /-- R26(c): "if `BLOCKS > 0` then `BUFLEN >= 1`". -/
  block_follows : 0 < b.blocks.val → 1 ≤ b.bufLen.val
  /-- DEDUCED from R154: a chunk is closed only when a further byte arrives, so a chunk after the first is not empty. -/
  chunk_follows : b.ccnt ≠ 0 → 1 ≤ b.bufLen.val
  /-- R25: CSCV is "equal to BK at the chunk's start". -/
  chunk_start : b.blocks.val = 0 → b.cscv = b.bk
  /-- R27: "`DEPTH = popcount(CCNT)`". -/
  depth_popcount : b.depth.val = popcount b.ccnt.toNat
  /-- R26(d), and R23, R24, R27: only INIT and reset write these from IDLE. -/
  idle_hash : b.phase = .idle → b.mode = .plain ∧ b.bk = zeroCV ∧ b.bf = 0 ∧ b.cscv = zeroCV ∧ b.ccnt = 0 ∧
    b.blocks = 0 ∧ b.buf = zero64 ∧ b.bufLen = 0 ∧ b.stack = Vector.replicate 54 zeroCV ∧ b.depth = 0
  /-- R24, R87: BF is the base flag byte of MODE after an INIT. -/
  base_flags : b.phase ≠ .idle → b.bf = baseFlags b.mode
  /-- R24, R87: modes 0 and 2 have the base key IV. -/
  base_key : b.phase ≠ .idle → b.mode = .plain ∨ b.mode = .deriveCtx → b.bk = iv
  /-- R28: only FINALIZE captures a root, and INIT and reset zero it. -/
  root_clear : b.phase ≠ .finalized → b.rCv = zeroCV ∧ b.rBlk = Vector.replicate 16 0 ∧ b.rBlen = 0 ∧ b.rFlg = 0 ∧
    b.xpos = 0
  /-- R28, R184: in FINALIZED the root registers hold the root Node of the input that the accumulator and the stack still
  show. -/
  root_fold : b.phase = .finalized → b.rCv = (rootFold b).cv ∧ b.rBlk = (rootFold b).block ∧
    b.rBlen = (rootFold b).blen ∧ b.rFlg = (rootFold b).flags
  /-- R20, R111: R_BLEN is 0 to 64. -/
  root_blen : b.rBlen.toNat ≤ 64
  /-- R30: ERRCODE holds a code exactly when ERR is set. -/
  err_code : b.err = true ↔ b.errCode ≠ .none

/-- The invariant of the model's state is the machine's. -/
def State.Inv (s : State) : Prop := s.b3c.Inv

/-- A step that goes on: neither a fault nor a refusal. -/
def goesOn (o : Host.Outcome State Fault Refusal) : Prop := ∃ t, o = .next t

/-- The core's step comes next (R91, R72): a command is pending, and either no move is left or the next one is the core's
turn. `s'` is the state in which it executes the command. -/
def CoreMoves (s s' : State) : Prop :=
  s.b3c.busy = true ∧
    ((s.inputs = [] ∧ s' = s) ∨ ∃ rest, s.inputs = .coreTurn :: rest ∧ s' = { s with inputs := rest })

/-- The next move is the reset input (R250). -/
def ResetMoves (s : State) : Prop := ∃ rest, s.inputs = .reset :: rest

/-- Two machines hold the same hash: every element that INIT writes (R182), and nothing said of the others. -/
def SameHash (b c : B3C) : Prop :=
  b.phase = c.phase ∧ b.mode = c.mode ∧ b.bk = c.bk ∧ b.bf = c.bf ∧ b.cscv = c.cscv ∧ b.ccnt = c.ccnt ∧
    b.blocks = c.blocks ∧ b.buf = c.buf ∧ b.bufLen = c.bufLen ∧ b.stack = c.stack ∧ b.depth = c.depth ∧
    b.rCv = c.rCv ∧ b.rBlk = c.rBlk ∧ b.rBlen = c.rBlen ∧ b.rFlg = c.rFlg ∧ b.xpos = c.xpos

/-- Two machines hold the same host operands: the registers that only host writes and reset change (R31). -/
def SameOperands (b c : B3C) : Prop :=
  b.key = c.key ∧ b.cv = c.cv ∧ b.din = c.din ∧ b.cctrLo = c.cctrLo ∧ b.cctrHi = c.cctrHi ∧ b.cparam = c.cparam ∧
    b.seekLo = c.seekLo ∧ b.seekHi = c.seekHi

/-- Two machines show the same handshake and error status (R29, R30). -/
def SameStatus (b c : B3C) : Prop :=
  b.busy = c.busy ∧ b.pend = c.pend ∧ b.err = c.err ∧ b.errCode = c.errCode

/-- The model's own fields are the same: the other agents have not moved. -/
def SameAgents (s t : State) : Prop :=
  s.inputs = t.inputs ∧ s.reads = t.reads ∧ s.owner = t.owner ∧ s.freeCount = t.freeCount

end Sys2Proof.Machine
end

