-- ==== Sys2Proof/Certificates/Slice0/Obligations.lean ====
section
/-! DEFINITION. The statements for the provers: what the numbered rules of spec/ say a command, a host access, the reset or
the machine does, said of `Sys2Proof.Machine.exec` and `Sys2Proof.Machine.step`. Each docstring names the rule it formalises.
The definitions before the statements spell out the rules' own expressions, apart from the model's meanings. -/

open Sys2Proof Sys2Proof.Machine

namespace Sys2Proof.Claims

/-- Byte `j` of 16 Words in stream order: `W[j div 4][8(j mod 4)+7 : 8(j mod 4)]` (R46, R64, R65). -/
def streamByte (w : Block) (j : Nat) : Byte := (w.toList.getD (j / 4) 0).extractLsb' (8 * (j % 4)) 8

/-- The block buffer filled up to 64 bytes with the first bytes of DIN (R132, R64). -/
def filledBuf (b : B3C) : Bytes64 :=
  Vector.ofFn fun j => if j.val < b.bufLen.val then b.buf[j] else streamByte b.din (j.val - b.bufLen.val)

/-- A cleared buffer that then takes DIN's bytes number `first` to `n - 1` (R131, R139, R132). -/
def restBuf (b : B3C) (first n : Nat) : Bytes64 :=
  Vector.ofFn fun j => if first + j.val < n then streamByte b.din (first + j.val) else 0

/-- The CV of the current chunk, filled from DIN to its 1024 bytes: flags `BF | CHUNK_END`, counter CCNT, length 64
(R152, R134). -/
def fullChunkCV (b : B3C) : CV :=
  first8 (compress b.cscv (wordsOf (filledBuf b)) b.ccnt 64 (b.bf ||| 0x02))

/-- The CV in hand after `k` merges of a chunk close: each takes the next older stack entry as its left input (R151,
R152). -/
def mergedCV (b : B3C) : Nat → CV
  | 0 => fullChunkCV b
  | k + 1 =>
    first8 (compress b.bk (joinCV (stackEntry b (b.depth.val - 1 - k)) (mergedCV b k)) 0 64 (b.bf ||| 0x04))

/-- The final block of the current chunk as it is compressed when the chunk is not the root (R134). -/
def lastChunkCV (b : B3C) : CV :=
  first8 (compress b.cscv (wordsOf b.buf) b.ccnt (BitVec.ofNat 8 b.bufLen.val)
    (b.bf ||| (if b.blocks.val = 0 then 0x01 else 0x00) ||| 0x02))

/-- The CV of everything to the right of STACK[0]: the last chunk's CV joined with STACK[DEPTH-1], ..., STACK[1], in that
order (R156). -/
def rightCV (b : B3C) : CV :=
  (List.range' 1 (b.depth.val - 1)).foldr
    (fun d cv => first8 (compress b.bk (joinCV (stackEntry b d) cv) 0 64 (b.bf ||| 0x04))) (lastChunkCV b)

/-- The bytes that a sequence of XOF_READ commands returns, in order (R205). -/
def readAll : List Nat → State → Option (List Byte)
  | [], _ => some []
  | n :: ns, s =>
    match exec (.xofRead n) s with
    | .next t => (readAll ns t).map fun bytes => (bytesOf t.b3c.dout).toList.take n ++ bytes
    | .fault _ => none
    | .refused _ => none

/-- The registers the host can write and read back (R34: RW). -/
def isRW : Reg → Bool
  | .seekLo | .seekHi | .cctrLo | .cctrHi | .cparam | .key _ | .cv _ | .din _ => true
  | .id | .cmd | .status | .info | .ccntLo | .ccntHi | .xposLo | .xposHi | .reserved _ | .dout _ => false

/-- What an RW register reads after `v` is written to it: all 32 bits, but for CPARAM's bits 31:16 (R41 to R46, R43). -/
def readBack : Reg → Word → Word
  | .cparam, v => v &&& 0x0000FFFF
  | _, v => v

/-- Chunk `i` of an input (R159, R140). -/
def chunkBytes (xs : List Byte) (i : Nat) : List Byte := (xs.drop (1024 * i)).take 1024

/-- The number of chunks of an input of `len` bytes: `C = max(1, ceil(L / 1024))` (R159). -/
def chunkCount (len : Nat) : Nat := max 1 ((len + 1023) / 1024)

/-- The Node of chunk `i` of an input by itself: a fresh chunk with counter `i` (R139) that took its bytes (R134). -/
def leafNode (b : B3C) (xs : List Byte) (i : Nat) : Node :=
  chunkNode (chunkUpdate (chunkBytes xs i) (chunkReset { b with ccnt := BitVec.ofNat 64 i }))

/-- The tree over the `count` chunks from chunk `start` on, by its shape alone: a leaf, or a parent of the largest power of
two of chunks below `count` and the rest (R159). `fuel` bounds the tree's height. -/
def treeNode (b : B3C) (xs : List Byte) : (fuel start count : Nat) → Node
  | 0, start, _ => leafNode b xs start
  | fuel + 1, start, count =>
    if count ≤ 1 then leafNode b xs start
    else
      let left := 2 ^ Nat.log2 (count - 1)
      parentNode b (nodeCV (treeNode b xs fuel start left)) (nodeCV (treeNode b xs fuel (start + left) (count - left)))

/-- The round schedules as indices of the block (R105's table). -/
def scheduleTable : List (List Nat) :=
  [[0, 1, 2, 3, 4, 5, 6, 7, 8, 9, 10, 11, 12, 13, 14, 15],
   [2, 6, 3, 10, 7, 0, 4, 13, 1, 11, 12, 5, 9, 14, 15, 8],
   [3, 4, 10, 12, 13, 2, 7, 14, 6, 5, 9, 0, 11, 15, 8, 1],
   [10, 7, 12, 9, 14, 3, 13, 15, 4, 0, 11, 2, 5, 8, 1, 6],
   [12, 13, 9, 11, 15, 10, 14, 8, 7, 2, 5, 3, 0, 1, 6, 4],
   [9, 14, 11, 5, 8, 12, 15, 1, 13, 3, 0, 10, 2, 6, 4, 7],
   [11, 15, 5, 0, 1, 9, 8, 6, 14, 10, 2, 12, 3, 4, 7, 13]]

/-- The schedule of a row of the table over a block. -/
def scheduled (m : Block) (row : List Nat) : Block := Vector.ofFn fun i => m.toList.getD (row.getD i.val 0) 0

/-- The G calls of a round in R103's order, columns and then diagonals: the call's number and its quartet. -/
def roundCalls : List (Fin 8 × Fin 16 × Fin 16 × Fin 16 × Fin 16) :=
  [(0, 0, 4, 8, 12), (1, 1, 5, 9, 13), (2, 2, 6, 10, 14), (3, 3, 7, 11, 15),
   (4, 0, 5, 10, 15), (5, 1, 6, 11, 12), (6, 2, 7, 8, 13), (7, 3, 4, 9, 14)]

/-- One round over the schedule `m'`: the k-th call takes `m'[2k]` as mx and `m'[2k+1]` as my (R103; that assignment is the
spec's GK1, log 21). -/
def roundOfCalls (s m' : Block) : Block :=
  roundCalls.foldl (fun s (k, a, b, c, d) => g s a b c d m'[2 * k.val] m'[2 * k.val + 1]) s

/-- Whether ARG meets the constraint R81's table gives for OP. -/
def legalArg (op arg : Nat) : Prop :=
  (op = 0x00 ∧ arg = 0) ∨ (op = 0x01 ∧ arg ≤ 3) ∨ (op = 0x02 ∧ arg ≤ 64) ∨ (op = 0x03 ∧ arg = 0) ∨
    (op = 0x04 ∧ arg ≤ 64) ∨ (op = 0x05 ∧ arg = 0) ∨ (op = 0x06 ∧ arg = 0)

end Sys2Proof.Claims

open Sys2Proof.Claims

/-! ## Encoding (30_encoding.md) -/

/-- R81, R88: every command that is well formed is what its word decodes to, for every mode and count. -/
def Obligations.DecodeOfEncode : Prop :=
  ∀ i : Instr, i.wf = true → decode (encode i) = .ok i

/-- R81, R84: a word decodes to at most one command, which is well formed and whose word it is: no other word is a second
spelling of it. -/
def Obligations.EncodeOfDecode : Prop :=
  ∀ (w : Word) (i : Instr), decode w = .ok i → i.wf = true ∧ encode i = w

/-- R83: a word is illegal exactly when RSV is not 0, OP is 0x07 or more, or ARG breaks OP's constraint; and an illegal
pending word raises ILLEGAL_CMD at its core step and changes no other state. -/
def Obligations.IllegalWordRaisesIllegalCmd : Prop :=
  ∀ w : Word,
    ((∀ i, decode w ≠ .ok i) ↔
      (w.toNat / 2 ^ 16 ≠ 0 ∨ ¬ legalArg (w.toNat % 2 ^ 8) (w.toNat / 2 ^ 8 % 2 ^ 8))) ∧
    ∀ s s' : State, CoreMoves s s' → s.b3c.pend = w → (∀ i, decode w ≠ .ok i) →
      step s = .next { s' with b3c := { s'.b3c with
        busy := false
        err := true
        errCode := if s'.b3c.err then s'.b3c.errCode else .illegalCmd } }

/-- R88's table and R83's examples, word by word. -/
def Obligations.TableWordsDecode : Prop :=
  decode 0x00000000 = .ok .nop ∧ decode 0x00000001 = .ok (.init .plain) ∧ decode 0x00000101 = .ok (.init .keyed) ∧
  decode 0x00000201 = .ok (.init .deriveCtx) ∧ decode 0x00000301 = .ok (.init .deriveMat) ∧
  decode 0x00000302 = .ok (.absorb 3) ∧ decode 0x00004002 = .ok (.absorb 64) ∧ decode 0x00000003 = .ok .finalize ∧
  decode 0x00002004 = .ok (.xofRead 32) ∧ decode 0x00000005 = .ok .xofSeek ∧ decode 0x00000006 = .ok .compress ∧
  decode 0x00004102 = .error .argRange ∧ decode 0x00000401 = .error .argRange ∧ decode 0x00000103 = .error .argRange ∧
  decode 0x00000007 = .error .unknownOp ∧ decode 0x00010001 = .error .reservedBits

/-! ## The core step (30_encoding.md R91) -/

/-- R91 (the core's turn is the model's, log 2): when the core moves and the pending word decodes to `i`, the step is `exec` of `i`, and then BUSY is cleared. -/
def Obligations.StepRunsPendingCommand : Prop :=
  ∀ (s s' : State) (i : Instr), CoreMoves s s' → decode s.b3c.pend = .ok i →
    (∀ t, exec i s' = .next t → step s = .next { t with b3c := { t.b3c with busy := false } }) ∧
    (∀ f, exec i s' = .fault f → step s = .fault f) ∧ (∀ r, exec i s' = .refused r → step s = .refused r)

/-- R91, R255: the core's step never leaves BUSY set, and in a state of the invariant it always completes. -/
def Obligations.CoreStepClearsBusy : Prop :=
  ∀ s s' : State, CoreMoves s s' →
    (∀ t, step s = .next t → t.b3c.busy = false) ∧ (s.Inv → goesOn (step s))

/-- R91, R223, R224: a command is all or nothing. Whatever it is and in whatever state, it either commits and leaves the
operands, the handshake and the error status alone, or enters one error, which changes nothing but ERR, ERRCODE and BUSY; its
one other end is the model's fault for a merge without a stack entry (log 8). The other agents do not move. -/
def Obligations.CommandIsAllOrNothing : Prop :=
  ∀ (i : Instr) (s : State),
    (∃ t, exec i s = .next t ∧ SameOperands t.b3c s.b3c ∧ SameStatus t.b3c s.b3c ∧ SameAgents t s) ∨
    (∃ c, c ≠ .none ∧ exec i s = .next { s with b3c := { s.b3c with
      busy := false
      err := true
      errCode := if s.b3c.err then s.b3c.errCode else c } }) ∨
    ((∃ n, i = .absorb n) ∧ exec i s = .fault .mergeWithoutEntry)

/-- R223: error entry keeps the first error, clears BUSY, and changes nothing else. -/
def Obligations.ErrorEntryKeepsFirstError : Prop :=
  ∀ (c : ErrCode) (s : State),
    errorEntry c s = { s with b3c := { s.b3c with
      busy := false
      err := true
      errCode := if s.b3c.err then s.b3c.errCode else c } } ∧
    (s.b3c.err = true → (errorEntry c s).b3c.errCode = s.b3c.errCode) ∧
    (s.b3c.err = false → (errorEntry c s).b3c.errCode = c)

/-! ## NOP and INIT (44_hasher.md) -/

/-- R181: NOP writes nothing, in every phase. -/
def Obligations.NopChangesNothing : Prop :=
  ∀ s : State, exec .nop s = .next s

/-- R182, R87: INIT completes in every phase with every write of its rule, and leaves DOUT, the operands, the handshake and
the error status alone. -/
def Obligations.InitStartsHash : Prop :=
  ∀ (m : Mode) (s : State), ∃ t, exec (.init m) s = .next t ∧
    t.b3c.bk = (if m = .keyed ∨ m = .deriveMat then s.b3c.key else iv) ∧
    t.b3c.bf = (match m with | .plain => 0x00 | .keyed => 0x10 | .deriveCtx => 0x20 | .deriveMat => 0x40) ∧
    t.b3c.mode = m ∧ t.b3c.phase = .absorbing ∧ t.b3c.cscv = t.b3c.bk ∧ t.b3c.ccnt = 0 ∧ t.b3c.blocks = 0 ∧
    t.b3c.buf = Vector.replicate 64 0 ∧ t.b3c.bufLen = 0 ∧
    t.b3c.stack = Vector.replicate 54 (Vector.replicate 8 0) ∧ t.b3c.depth = 0 ∧
    t.b3c.rCv = Vector.replicate 8 0 ∧ t.b3c.rBlk = Vector.replicate 16 0 ∧ t.b3c.rBlen = 0 ∧ t.b3c.rFlg = 0 ∧
    t.b3c.xpos = 0 ∧
    t.b3c.dout = s.b3c.dout ∧ SameOperands t.b3c s.b3c ∧ SameStatus t.b3c s.b3c ∧ SameAgents t s

/-! ## ABSORB (44_hasher.md R183, 41_chunk.md, 42_tree.md) -/

/-- R183, R222: ABSORB's phase errors, and before them ILLEGAL_CMD for a count that no word has (log 17). -/
def Obligations.AbsorbPhaseErrors : Prop :=
  ∀ (n : Nat) (s : State),
    (n ≤ 64 → s.b3c.phase = .idle → exec (.absorb n) s = .next (errorEntry .notInit s)) ∧
    (n ≤ 64 → s.b3c.phase = .finalized → exec (.absorb n) s = .next (errorEntry .afterFinal s)) ∧
    (64 < n → exec (.absorb n) s = .next (errorEntry .illegalCmd s))

/-- R183, R132: bytes that fit the block buffer are stored and nothing is compressed; 0 bytes change nothing at all, even
when the chunk is full. -/
def Obligations.AbsorbWithinBlock : Prop :=
  ∀ (n : Nat) (s : State), s.b3c.phase = .absorbing → s.b3c.bufLen.val + n ≤ 64 →
    ∃ t, exec (.absorb n) s = .next t ∧
      t.b3c.bufLen.val = s.b3c.bufLen.val + n ∧
      (∀ j : Fin 64, t.b3c.buf[j] =
        if s.b3c.bufLen.val ≤ j.val ∧ j.val < s.b3c.bufLen.val + n then streamByte s.b3c.din (j.val - s.b3c.bufLen.val)
        else s.b3c.buf[j]) ∧
      t = { s with b3c := { s.b3c with buf := t.b3c.buf, bufLen := t.b3c.bufLen } } ∧ (n = 0 → t = s)

/-- R131, R132, R133: bytes past the block buffer but within the chunk compress the filled buffer once, with flags
`BF | StartFlag`, counter CCNT and length 64, and go on in a cleared buffer. -/
def Obligations.AbsorbCompressesFullBlock : Prop :=
  ∀ (n : Nat) (s : State), s.b3c.phase = .absorbing → n ≤ 64 → 64 < s.b3c.bufLen.val + n →
    64 * s.b3c.blocks.val + s.b3c.bufLen.val + n ≤ 1024 →
    ∃ t, exec (.absorb n) s = .next t ∧
      t.b3c.cscv = first8 (compress s.b3c.cscv (wordsOf (filledBuf s.b3c)) s.b3c.ccnt 64
        (s.b3c.bf ||| (if s.b3c.blocks.val = 0 then 0x01 else 0x00))) ∧
      t.b3c.blocks.val = s.b3c.blocks.val + 1 ∧
      t.b3c.bufLen.val = s.b3c.bufLen.val + n - 64 ∧
      t.b3c.buf = restBuf s.b3c (64 - s.b3c.bufLen.val) n ∧
      t = { s with b3c := { s.b3c with
        cscv := t.b3c.cscv, blocks := t.b3c.blocks, buf := t.b3c.buf, bufLen := t.b3c.bufLen } }

/-- R152, R154, R183: bytes past the chunk close it: exactly tz(CCNT + 1) merges, the left input the older stack entry, one
push, CCNT + 1, a fresh chunk, and the rest of the bytes in it. (That dead entries keep their words is the model's choice,
log 11.) -/
def Obligations.AbsorbClosesFullChunk : Prop :=
  ∀ (n : Nat) (s : State), s.b3c.phase = .absorbing → n ≤ 64 →
    1024 < 64 * s.b3c.blocks.val + s.b3c.bufLen.val + n → s.b3c.ccnt.toNat < 2 ^ 64 - 1 →
    tz (s.b3c.ccnt.toNat + 1) ≤ s.b3c.depth.val → s.b3c.depth.val - tz (s.b3c.ccnt.toNat + 1) < 54 →
    ∃ t, exec (.absorb n) s = .next t ∧
      t.b3c.ccnt.toNat = s.b3c.ccnt.toNat + 1 ∧
      t.b3c.depth.val = s.b3c.depth.val - tz (s.b3c.ccnt.toNat + 1) + 1 ∧
      (∀ d : Fin 54, t.b3c.stack[d] =
        if d.val = s.b3c.depth.val - tz (s.b3c.ccnt.toNat + 1) then mergedCV s.b3c (tz (s.b3c.ccnt.toNat + 1))
        else s.b3c.stack[d]) ∧
      t.b3c.cscv = s.b3c.bk ∧ t.b3c.blocks = 0 ∧
      t.b3c.bufLen.val = s.b3c.bufLen.val + n - 64 ∧
      t.b3c.buf = restBuf s.b3c (64 - s.b3c.bufLen.val) n ∧
      t = { s with b3c := { s.b3c with
        ccnt := t.b3c.ccnt, depth := t.b3c.depth, stack := t.b3c.stack
        cscv := t.b3c.cscv, blocks := t.b3c.blocks, buf := t.b3c.buf, bufLen := t.b3c.bufLen } }

/-- R155, R222, R91: a close with CCNT = 2^64 - 1 raises CTR_OVERFLOW, and else one that needs a 55th slot raises
STACK_OVERFLOW; the bytes before the close are discarded too. -/
def Obligations.AbsorbCloseErrors : Prop :=
  ∀ (n : Nat) (s : State), s.b3c.phase = .absorbing → n ≤ 64 →
    1024 < 64 * s.b3c.blocks.val + s.b3c.bufLen.val + n →
    (s.b3c.ccnt.toNat = 2 ^ 64 - 1 → exec (.absorb n) s = .next (errorEntry .ctrOverflow s)) ∧
    (s.b3c.ccnt.toNat ≠ 2 ^ 64 - 1 → 54 ≤ s.b3c.depth.val - tz (s.b3c.ccnt.toNat + 1) →
      exec (.absorb n) s = .next (errorEntry .stackOverflow s))

/-- Log 8 (the model's own stop): a close in a state that has fewer stack entries than merges, which R153 excludes, is a
fault by name. -/
def Obligations.CloseWithoutEntryFaults : Prop :=
  ∀ (n : Nat) (s : State), s.b3c.phase = .absorbing → n ≤ 64 →
    1024 < 64 * s.b3c.blocks.val + s.b3c.bufLen.val + n → s.b3c.ccnt.toNat ≠ 2 ^ 64 - 1 →
    s.b3c.depth.val < tz (s.b3c.ccnt.toNat + 1) → exec (.absorb n) s = .fault .mergeWithoutEntry

/-- R153, R27: in a state of the invariant a close finds an entry for every merge, makes tz(n) of them for the new count
`n`, and leaves DEPTH = popcount(n). -/
def Obligations.CloseKeepsPopcountDepth : Prop :=
  ∀ b : B3C, b.Inv → b.ccnt.toNat < 2 ^ 64 - 1 →
    tz (b.ccnt.toNat + 1) ≤ b.depth.val ∧
    b.depth.val - tz (b.ccnt.toNat + 1) + 1 = popcount (b.ccnt.toNat + 1) ∧
    (popcount (b.ccnt.toNat + 1) ≤ 54 ↔ b.depth.val - tz (b.ccnt.toNat + 1) < 54) ∧
    (∀ c, closeChecked b = .ok c → c.depth.val = popcount c.ccnt.toNat ∧ c.ccnt.toNat = b.ccnt.toNat + 1) ∧
    (∀ f, closeChecked b ≠ .error (.fault f))

/-- R188: the state after absorbing an input does not depend on how it is split into pieces, errors included, and ABSORB
absorbs exactly the first `n` bytes of DIN. -/
def Obligations.AbsorbSplitInvariant : Prop :=
  (∀ (pieces : List (List Byte)) (b : B3C),
    pieces.foldlM (fun c xs => absorbBytes xs c) b = absorbBytes pieces.flatten b) ∧
  ∀ (n : Nat) (s : State), s.b3c.phase = .absorbing → n ≤ 64 →
    exec (.absorb n) s = commit s (absorbBytes ((List.range n).map fun j => streamByte s.b3c.din j) s.b3c)

/-- R64, U23: DIN's bytes at and past the count have no effect. -/
def Obligations.AbsorbIgnoresBytesPastCount : Prop :=
  ∀ (n : Nat) (s : State) (din : Block),
    (∀ j, j < n → streamByte din j = streamByte s.b3c.din j) →
    (∀ t, exec (.absorb n) s = .next t →
      exec (.absorb n) { s with b3c := { s.b3c with din := din } } = .next { t with b3c := { t.b3c with din := din } }) ∧
    (∀ f, exec (.absorb n) s = .fault f → exec (.absorb n) { s with b3c := { s.b3c with din := din } } = .fault f)

/-- R86, R158: no compression made while streaming carries ROOT or flag bit 7, whatever the mode: not that of a block before
the chunk's last, not that of the chunk's Node, and not that of any parent Node. -/
def Obligations.StreamingFlagsHaveNoRoot : Prop :=
  ∀ b : B3C, b.Inv →
    blockFlags b &&& 0x88 = 0 ∧ (chunkNode b).flags &&& 0x88 = 0 ∧ ∀ l r, (parentNode b l r).flags &&& 0x88 = 0

/-! ## FINALIZE (44_hasher.md R184, 42_tree.md R156, R157) -/

/-- R184, R222: FINALIZE's phase errors. -/
def Obligations.FinalizePhaseErrors : Prop :=
  ∀ s : State,
    (s.b3c.phase = .idle → exec .finalize s = .next (errorEntry .notInit s)) ∧
    (s.b3c.phase = .finalized → exec .finalize s = .next (errorEntry .afterFinal s))

/-- R184, R157: with DEPTH = 0 the root is the chunk's final block with ROOT added. -/
def Obligations.FinalizeSingleChunkRoot : Prop :=
  ∀ s : State, s.b3c.phase = .absorbing → s.b3c.depth.val = 0 →
    ∃ t, exec .finalize s = .next t ∧
      t.b3c.rCv = s.b3c.cscv ∧ t.b3c.rBlk = wordsOf s.b3c.buf ∧ t.b3c.rBlen.toNat = s.b3c.bufLen.val ∧
      t.b3c.rFlg = s.b3c.bf ||| (if s.b3c.blocks.val = 0 then 0x01 else 0x00) ||| 0x02 ||| 0x08 ∧
      t.b3c.xpos = 0 ∧ t.b3c.phase = .finalized ∧
      t = { s with b3c := { s.b3c with
        rCv := t.b3c.rCv, rBlk := t.b3c.rBlk, rBlen := t.b3c.rBlen, rFlg := t.b3c.rFlg
        xpos := t.b3c.xpos, phase := t.b3c.phase } }

/-- R184, R156: with DEPTH >= 1 the root is a parent: R_CV = BK, R_BLEN = 64, R_FLG = BF | PARENT | ROOT, and R_BLK is
STACK[0] followed by the CV of the rest, folded from right to left. -/
def Obligations.FinalizeParentRoot : Prop :=
  ∀ s : State, s.b3c.phase = .absorbing → 1 ≤ s.b3c.depth.val →
    ∃ t, exec .finalize s = .next t ∧
      t.b3c.rCv = s.b3c.bk ∧ t.b3c.rBlk = joinCV (stackEntry s.b3c 0) (rightCV s.b3c) ∧ t.b3c.rBlen = 64 ∧
      t.b3c.rFlg = s.b3c.bf ||| 0x0C ∧
      t.b3c.xpos = 0 ∧ t.b3c.phase = .finalized ∧
      t = { s with b3c := { s.b3c with
        rCv := t.b3c.rCv, rBlk := t.b3c.rBlk, rBlen := t.b3c.rBlen, rFlg := t.b3c.rFlg
        xpos := t.b3c.xpos, phase := t.b3c.phase } }

/-- R138: with no byte absorbed since INIT, in every mode, ChunkNode is (BK, zero block, 0, 0, BF | CHUNK_START | CHUNK_END)
and the root is that Node with ROOT added. -/
def Obligations.EmptyInputRoot : Prop :=
  ∀ (m : Mode) (s : State), ∃ t u, exec (.init m) s = .next t ∧ exec .finalize t = .next u ∧
    chunkNode t.b3c = ⟨t.b3c.bk, Vector.replicate 16 0, 0, 0, t.b3c.bf ||| 0x03⟩ ∧
    u.b3c.rCv = t.b3c.bk ∧ u.b3c.rBlk = Vector.replicate 16 0 ∧ u.b3c.rBlen = 0 ∧ u.b3c.rFlg = t.b3c.bf ||| 0x0B

/-- R159, R156: the incremental accumulator computes the tree of the input's shape: after INIT and an input of `C` chunks,
the Node that RootFold returns is the root of the left-complete tree over the chunks, with ROOT, and the chunk left open is
the last one. -/
def Obligations.AccumulatorComputesMerkleTree : Prop :=
  ∀ (m : Mode) (b : B3C) (xs : List Byte), xs.length < 2 ^ 64 →
    ∃ c, absorbBytes xs (initBody m b) = .ok c ∧ c.ccnt.toNat + 1 = chunkCount xs.length ∧
      rootFold c =
        (let root := treeNode (initBody m b) xs (chunkCount xs.length) 0 (chunkCount xs.length)
         { root with flags := root.flags ||| 0x08 })

/-! ## XOF_READ and XOF_SEEK (45_xof.md) -/

/-- R202, R200, R201, R65: XOF_READ n writes the n stream bytes from XPOS on, zero filled, each from the output block
`p div 64` of the root registers, adds n to XPOS, and writes nothing else. -/
def Obligations.XofReadReturnsStream : Prop :=
  ∀ (n : Nat) (s : State), s.b3c.phase = .finalized → n ≤ 64 → s.b3c.xpos.toNat + n ≤ 2 ^ 64 - 1 →
    ∃ t, exec (.xofRead n) s = .next t ∧
      (∀ j, j < 64 → streamByte t.b3c.dout j =
        if j < n then
          streamByte (compress s.b3c.rCv s.b3c.rBlk (BitVec.ofNat 64 ((s.b3c.xpos.toNat + j) / 64)) s.b3c.rBlen s.b3c.rFlg)
            ((s.b3c.xpos.toNat + j) % 64)
        else 0) ∧
      t.b3c.xpos.toNat = s.b3c.xpos.toNat + n ∧
      t = { s with b3c := { s.b3c with dout := t.b3c.dout, xpos := t.b3c.xpos } }

/-- R202, R222: XOF_READ's errors, in their order, ILLEGAL_CMD for a count that no word has first (log 17). -/
def Obligations.XofReadErrors : Prop :=
  ∀ (n : Nat) (s : State),
    (64 < n → exec (.xofRead n) s = .next (errorEntry .illegalCmd s)) ∧
    (n ≤ 64 → s.b3c.phase ≠ .finalized → exec (.xofRead n) s = .next (errorEntry .notFinal s)) ∧
    (n ≤ 64 → s.b3c.phase = .finalized → 2 ^ 64 - 1 < s.b3c.xpos.toNat + n →
      exec (.xofRead n) s = .next (errorEntry .xofRange s))

/-- R205: reads totalling N bytes return the bytes of the stream in order, however they are split. -/
def Obligations.XofReadSplitInvariant : Prop :=
  ∀ (counts : List Nat) (s : State), s.b3c.phase = .finalized → (∀ n ∈ counts, n ≤ 64) →
    s.b3c.xpos.toNat + counts.sum ≤ 2 ^ 64 - 1 →
    readAll counts s = some ((List.range counts.sum).map fun j => stream s.b3c (s.b3c.xpos.toNat + j))

/-- R203: XOF_SEEK takes any SEEK in FINALIZED and writes XPOS only; elsewhere it raises NOT_FINAL. -/
def Obligations.XofSeekSetsPosition : Prop :=
  ∀ s : State,
    (s.b3c.phase = .finalized → ∃ t, exec .xofSeek s = .next t ∧
      t.b3c.xpos.toNat = s.b3c.seekHi.toNat * 2 ^ 32 + s.b3c.seekLo.toNat ∧
      t = { s with b3c := { s.b3c with xpos := t.b3c.xpos } }) ∧
    (s.b3c.phase ≠ .finalized → exec .xofSeek s = .next (errorEntry .notFinal s))

/-! ## COMPRESS and the compression function (40_compress.md) -/

/-- R110: COMPRESS with BLEN <= 64 writes the compression of its operands to DOUT in any phase and nothing else; with
BLEN > 64 it raises BLEN_RANGE. -/
def Obligations.CompressWritesDout : Prop :=
  ∀ s : State,
    (s.b3c.cparam.toNat % 256 ≤ 64 → exec .compress s = .next { s with b3c := { s.b3c with
      dout := compress s.b3c.cv s.b3c.din
        (BitVec.ofNat 64 (s.b3c.cctrHi.toNat * 2 ^ 32 + s.b3c.cctrLo.toNat))
        (BitVec.ofNat 8 (s.b3c.cparam.toNat % 256)) (BitVec.ofNat 8 (s.b3c.cparam.toNat / 256)) } }) ∧
    (64 < s.b3c.cparam.toNat % 256 → exec .compress s = .next (errorEntry .blenRange s))

/-- R90, R110: COMPRESS is stateless with respect to the hash: on two machines with the same operands it gives the same DOUT,
whatever hash each has in progress, and leaves both hashes alone. -/
def Obligations.CompressIgnoresHash : Prop :=
  ∀ s u : State, SameOperands s.b3c u.b3c → s.b3c.cparam.toNat % 256 ≤ 64 →
    ∃ t v, exec .compress s = .next t ∧ exec .compress u = .next v ∧ t.b3c.dout = v.b3c.dout ∧
      SameHash t.b3c s.b3c ∧ SameHash v.b3c u.b3c

/-- R101, R103, R105, R106, R107: Compress is seven rounds over the schedules of R105's table, from the initial state of
R101, and its output words are those of R106; a round is R103's eight G calls in its order. (Which message words a call takes
is what the spec marks GK1, from general knowledge: log 21.) -/
def Obligations.CompressFollowsSchedules : Prop :=
  ∀ (cv : CV) (m : Block) (t : U64) (blen flags : Byte),
    let s0 : Block := Vector.ofFn fun i =>
      if h : i.val < 8 then cv[i.val]
      else if h : i.val < 12 then iv[i.val - 8]
      else if i.val = 12 then BitVec.ofNat 32 t.toNat
      else if i.val = 13 then BitVec.ofNat 32 (t.toNat / 2 ^ 32)
      else if i.val = 14 then BitVec.ofNat 32 blen.toNat
      else BitVec.ofNat 32 flags.toNat
    let s7 := scheduleTable.foldl (fun s row => roundOfCalls s (scheduled m row)) s0
    (∀ i : Fin 8, (compress cv m t blen flags)[i.val] = s7[i.val] ^^^ s7[i.val + 8]) ∧
    (∀ i : Fin 8, (compress cv m t blen flags)[i.val + 8] = s7[i.val + 8] ^^^ cv[i.val])

/-- R102, R7: G on a quartet of four different state Words: the eight lines as equations, and every other Word of the state
unchanged. -/
def Obligations.MixUpdatesQuartetOnly : Prop :=
  ∀ (s : Block) (a b c d : Fin 16) (mx my : Word), [a, b, c, d].Nodup →
    ∃ a1 b1 c1 d1 : Word,
      a1 = s[a] + s[b] + mx ∧ d1 = (s[d] ^^^ a1).rotateRight 16 ∧ c1 = s[c] + d1 ∧ b1 = (s[b] ^^^ c1).rotateRight 12 ∧
      (g s a b c d mx my)[a] = a1 + b1 + my ∧
      (g s a b c d mx my)[d] = (d1 ^^^ (g s a b c d mx my)[a]).rotateRight 8 ∧
      (g s a b c d mx my)[c] = c1 + (g s a b c d mx my)[d] ∧
      (g s a b c d mx my)[b] = (b1 ^^^ (g s a b c d mx my)[c]).rotateRight 7 ∧
      ∀ e : Fin 16, e ∉ [a, b, c, d] → (g s a b c d mx my)[e] = s[e]

/-- R109: two G calls on disjoint quartets may be done in either order. -/
def Obligations.DisjointMixesCommute : Prop :=
  ∀ (s : Block) (a b c d a' b' c' d' : Fin 16) (mx my mx' my' : Word), [a, b, c, d, a', b', c', d'].Nodup →
    g (g s a b c d mx my) a' b' c' d' mx' my' = g (g s a' b' c' d' mx' my') a b c d mx my

/-- R170, R171: lane `j` of the four-lane engine gives the CV that the scalar rules give chunk `X_j` with counter `k + j`.
(That `k + j` wraps at 2^64 is the model's deduction, log 13.) -/
def Obligations.FourLanesMatchScalar : Prop :=
  ∀ (b : B3C) (k : U64) (xs : Vector FullChunk 4) (j : Fin 4),
    (compress4x b.bk b.bf k xs)[j] =
      nodeCV (chunkNode (chunkUpdate xs[j].toList (chunkReset { b with ccnt := k + BitVec.ofNat 64 j.val })))

/-! ## Which commands write which state (10_state.md) -/

/-- R22: only an INIT, a FINALIZE in ABSORBING and the reset change PHASE, and to the phase R22 says. -/
def Obligations.PhaseChangesOnlyBy : Prop :=
  ∀ s t : State, step s = .next t → t.b3c.phase ≠ s.b3c.phase →
    (ResetMoves s ∧ t.b3c.phase = .idle) ∨
    (∃ s', CoreMoves s s' ∧
      ((∃ m, decode s.b3c.pend = .ok (.init m) ∧ t.b3c.phase = .absorbing) ∨
       (decode s.b3c.pend = .ok .finalize ∧ s.b3c.phase = .absorbing ∧ t.b3c.phase = .finalized)))

/-- R23, R24: only INIT and the reset write MODE, BK and BF. -/
def Obligations.ModeAndKeyWrittenOnlyByInit : Prop :=
  ∀ s t : State, step s = .next t →
    (t.b3c.mode ≠ s.b3c.mode ∨ t.b3c.bk ≠ s.b3c.bk ∨ t.b3c.bf ≠ s.b3c.bf) →
    ResetMoves s ∨ ∃ s' m, CoreMoves s s' ∧ decode s.b3c.pend = .ok (.init m)

/-- R27: only a chunk close (in ABSORB), INIT and the reset write STACK or DEPTH. -/
def Obligations.StackWrittenOnlyByClose : Prop :=
  ∀ s t : State, step s = .next t → (t.b3c.stack ≠ s.b3c.stack ∨ t.b3c.depth ≠ s.b3c.depth) →
    ResetMoves s ∨ ∃ s', CoreMoves s s' ∧
      ((∃ m, decode s.b3c.pend = .ok (.init m)) ∨
       (∃ n, decode s.b3c.pend = .ok (.absorb n) ∧
         1024 < 64 * s.b3c.blocks.val + s.b3c.bufLen.val + n ∧ t.b3c.ccnt.toNat = s.b3c.ccnt.toNat + 1))

/-- R27: no rule reads a dead stack entry: with other words at and above DEPTH, an ABSORB or FINALIZE that completes does so
again, with the same live entries and every other element the same. -/
def Obligations.DeadStackEntriesUnread : Prop :=
  ∀ (b c : B3C), c = { b with stack := c.stack } →
    (∀ d : Fin 54, d.val < b.depth.val → c.stack[d] = b.stack[d]) →
    (∀ n b', absorbBody n b = .ok b' → ∃ c', absorbBody n c = .ok c' ∧ c' = { b' with stack := c'.stack } ∧
      ∀ d : Fin 54, d.val < b'.depth.val → c'.stack[d] = b'.stack[d]) ∧
    (∀ b', finalizeBody b = .ok b' → finalizeBody c = .ok { b' with stack := c.stack })

/-- R229, R30: ERR and ERRCODE are cleared only by reset: once set, every other step keeps both. -/
def Obligations.ErrorIsSticky : Prop :=
  ∀ s t : State, step s = .next t → s.b3c.err = true → ¬ ResetMoves s →
    t.b3c.err = true ∧ t.b3c.errCode = s.b3c.errCode

/-- R226, R224: while ERR = 1 and no command is pending, no step but the reset makes one pending, and none changes the hash
or DOUT. -/
def Obligations.ErrorGateStopsCommands : Prop :=
  ∀ s t : State, step s = .next t → s.b3c.err = true → s.b3c.busy = false → ¬ ResetMoves s →
    t.b3c.busy = false ∧ t.b3c.pend = s.b3c.pend ∧ SameHash t.b3c s.b3c ∧ t.b3c.dout = s.b3c.dout

/-- R189: a command's effect is a function of the machine's state at its core step: it does not depend on the other agents'
side of the model, and does not change it. -/
def Obligations.ExecDependsOnMachineOnly : Prop :=
  ∀ (i : Instr) (s u : State), s.b3c = u.b3c →
    (∀ t, exec i s = .next t → exec i u = .next { u with b3c := t.b3c }) ∧
    (∀ f, exec i s = .fault f → exec i u = .fault f)

/-- R258, R24: INIT latches KEY: no other hashing command reads it. -/
def Obligations.KeyIsLatched : Prop :=
  ∀ (i : Instr) (s : State) (key : CV), (∀ m, i ≠ .init m) →
    ∀ t, exec i s = .next t →
      exec i { s with b3c := { s.b3c with key := key } } = .next { t with b3c := { t.b3c with key := key } }

/-! ## The host's accesses (10_state.md R34, 20_memory.md, 70_reset_and_hazards.md) -/

/-- R34: the window's 64 word offsets each reach exactly one register, and each register has the offset of R34's table. -/
def Obligations.RegisterMapIsExact : Prop :=
  (∀ r : Reg, regOffset r % 4 = 0 ∧ regOffset r < 256 ∧ regAtWord (regOffset r / 4) = some r) ∧
  (∀ i, i < 64 → ∃ r, regAtWord i = some r ∧ regOffset r = 4 * i)

/-- R254, R226, R29: a CMD write with BUSY = 0 sets PEND and BUSY and decodes nothing, and with ERR = 1 it is ignored. -/
def Obligations.CommandWriteIssues : Prop :=
  ∀ (s : State) (host : Nat) (w : Word) (rest : List Event), s.inputs = wrReg host .cmd w :: rest →
    mayDrive s.owner host = true → s.b3c.busy = false →
    ∃ t, step s = .next t ∧ t.inputs = rest ∧
      (s.b3c.err = false → t.b3c = { s.b3c with pend := w, busy := true }) ∧ (s.b3c.err = true → t.b3c = s.b3c)

/-- R256: a host write to any offset while BUSY = 1 is ignored and raises BUSY_WRITE unless ERR is set already; no register
changes, a CMD write is not queued, and the command stays pending. -/
def Obligations.WriteWhileBusyRaises : Prop :=
  ∀ (s : State) (host : Nat) (r : Reg) (v : Word) (rest : List Event), s.inputs = wrReg host r v :: rest →
    mayDrive s.owner host = true → s.b3c.busy = true →
    ∃ t, step s = .next t ∧ t.inputs = rest ∧
      t.b3c = { s.b3c with err := true, errCode := if s.b3c.err then s.b3c.errCode else .busyWrite }

/-- R77 (log 5 and log 4, the model's choices of how the one host is told apart and of what a write leaves of the other
agents' fields): an access by the host that may drive the instance makes it the one host, and from then on every other host
is turned away. -/
def Obligations.AccessMakesOneHost : Prop :=
  ∀ (s : State) (host : Nat) (r : Reg) (v : Word) (rest : List Event),
    s.inputs = wrReg host r v :: rest ∨ s.inputs = rdReg host r :: rest → mayDrive s.owner host = true →
    ∃ t, step s = .next t ∧ t.owner = some host ∧ t.inputs = rest ∧
      (∀ other, other ≠ host → mayDrive t.owner other = false) ∧
      (s.inputs = wrReg host r v :: rest → t.reads = s.reads ∧ t.freeCount = s.freeCount)

/-- R227: a BUSY_WRITE does not stop the pending command: its core step ends as it would have, but for ERR and ERRCODE,
which keep the BUSY_WRITE. -/
def Obligations.PendingCommandSurvivesBusyWrite : Prop :=
  ∀ (s t : State) (r : Reg) (v : Word), s.b3c.busy = true → s.b3c.err = false → coreStep s = .next t →
    t.b3c.busy = false ∧
    coreStep { s with b3c := hostWrite r v s.b3c } =
      .next { t with b3c := { t.b3c with err := true, errCode := .busyWrite } }

/-- R34, R43, R70: with BUSY = 0 a host's write to an RW register stores what is written, which then reads back (CPARAM bits
31:16 as 0), and no other register reads differently. -/
def Obligations.WrittenRegisterReadsBack : Prop :=
  ∀ (s : State) (host : Nat) (r : Reg) (v : Word) (rest : List Event), s.inputs = wrReg host r v :: rest →
    mayDrive s.owner host = true → s.b3c.busy = false → isRW r = true →
    ∃ t, step s = .next t ∧ t.inputs = rest ∧ readReg t.b3c r = readBack r v ∧
      (∀ r', r' ≠ r → readReg t.b3c r' = readReg s.b3c r') ∧
      SameHash t.b3c s.b3c ∧ SameStatus t.b3c s.b3c ∧ t.b3c.dout = s.b3c.dout

/-- R70, R48: with BUSY = 0 a host's write to an RO register or a reserved offset changes nothing of the machine. -/
def Obligations.ReadOnlyWriteIgnored : Prop :=
  ∀ (s : State) (host : Nat) (r : Reg) (v : Word) (rest : List Event), s.inputs = wrReg host r v :: rest →
    mayDrive s.owner host = true → s.b3c.busy = false → isRW r = false → r ≠ .cmd →
    ∃ t, step s = .next t ∧ t.inputs = rest ∧ t.b3c = s.b3c

/-- R70, R257: a read leaves the machine as it is and returns the register's value, but an unspecified value (the free value)
from DOUT, INFO, CCNT or XPOS while BUSY = 1; CMD and the reserved offsets read 0. (The list of values read, the owner and
the counter of free values are the model's: log 4, log 5, log 3.) -/
def Obligations.ReadHasNoSideEffect : Prop :=
  ∀ (s : State) (host : Nat) (r : Reg) (rest : List Event), s.inputs = rdReg host r :: rest →
    mayDrive s.owner host = true →
    ∃ t v, step s = .next t ∧ t.b3c = s.b3c ∧ t.inputs = rest ∧ t.reads = v :: s.reads ∧ t.owner = some host ∧
      (s.b3c.busy = false → v = readReg s.b3c r ∧ t.freeCount = s.freeCount) ∧
      (s.b3c.busy = true → unspecifiedWhenBusy r = false → v = readReg s.b3c r ∧ t.freeCount = s.freeCount) ∧
      (s.b3c.busy = true → unspecifiedWhenBusy r = true →
        v = Config.unspecifiedRead s.freeCount ∧ t.freeCount = s.freeCount + 1) ∧
      (r = .cmd ∨ (∃ j, r = .reserved j) → v = 0) ∧ (r = .id → v = 0x42330007)

/-- R37, R38, R221: the fields of STATUS and INFO stand at the bits their tables give, with R221's numbers in ERRCODE, and
every other bit reads 0. -/
def Obligations.StatusAndInfoFields : Prop :=
  ∀ b : B3C,
    (readReg b .status).toNat = b.busy.toNat + 2 * b.err.toNat +
      4 * (match b.phase with | .idle => 0 | .absorbing => 1 | .finalized => 2) +
      16 * (match b.mode with | .plain => 0 | .keyed => 1 | .deriveCtx => 2 | .deriveMat => 3) +
      256 * (match b.errCode with
        | .none => 0 | .illegalCmd => 1 | .notInit => 2 | .afterFinal => 3 | .notFinal => 4 | .blenRange => 5
        | .xofRange => 6 | .ctrOverflow => 7 | .stackOverflow => 8 | .busyWrite => 9) ∧
    (readReg b .info).toNat = b.bufLen.val + 256 * b.blocks.val + 65536 * b.depth.val

/-- R62, R77, R60: an access to the window of another width, a misaligned one, or one by a second host is refused by name,
and an access outside the window changes nothing. An access that starts below the window and runs into it is one to the
window. (That, the order of the refusals, the way the one host is told apart and the unanswered access are the model's: log 7,
log 5, log 6.) -/
def Obligations.AccessRefusals : Prop :=
  ∀ (s : State) (host addr width : Nat) (v : Word) (rest : List Event),
    s.inputs = .write host addr width v :: rest ∨ s.inputs = .read host addr width :: rest →
    (addr < Config.b3cBase + 256 → Config.b3cBase ≤ addr ∨ Config.b3cBase < addr + width →
      (width ≠ 4 → step s = .refused .accessWidth) ∧
      (width = 4 → addr % 4 ≠ 0 → step s = .refused .misaligned) ∧
      (width = 4 → addr % 4 = 0 → mayDrive s.owner host = false → step s = .refused .secondHost)) ∧
    (Config.b3cBase + 256 ≤ addr ∨ addr + width ≤ Config.b3cBase ∧ 1 ≤ width → step s = .next { s with inputs := rest })

/-- R250, R35: the reset input puts every element of the B3C at its reset value from any state, a pending command included;
then every register reads 0 but ID. (That the model's own fields owner, reads and freeCount survive it is the model's choice:
log 5, log 4, log 3.) -/
def Obligations.ResetClearsEverything : Prop :=
  (∀ s : State, ∀ rest, s.inputs = .reset :: rest → step s = .next { s with b3c := B3C.reset, inputs := rest }) ∧
  State.reset.b3c = B3C.reset ∧
  (∀ r : Reg, r ≠ .id → readReg B3C.reset r = 0) ∧ readReg B3C.reset .id = 0x42330007 ∧ B3C.reset.busy = false

/-! ## Host programs (30_encoding.md R88, R89) -/

/-- R88, R89: what the host does at each kind of line (the host that runs them is the model's, log 23): `wr` writes the
register, `rd` reads it, keeps the value and, for DOUT, the word, a `wr` of a value read writes that value, `wait` stays
exactly as long as the STATUS read has BUSY set, and an append adds the first `m` bytes of the DOUT words read. -/
def Obligations.HostLinesRunAsWritten : Prop :=
  ∀ (h : HostRun) (rest : List Line), mayDrive h.machine.owner h.host = true →
    (∀ r v, h.lines = .wr r v :: rest →
      ∃ k, hostMove h = .next k ∧ k.lines = rest ∧ k.machine.b3c = hostWrite r v h.machine.b3c) ∧
    (∀ r, h.lines = .rd r :: rest → h.machine.b3c.busy = false →
      ∃ k, hostMove h = .next k ∧ k.lines = rest ∧ k.machine.b3c = h.machine.b3c ∧
        k.value = readReg h.machine.b3c r ∧
        ∀ j : Fin 16, k.words[j] = if r = .dout j then readReg h.machine.b3c r else h.words[j]) ∧
    (∀ r, h.lines = .wrRead r :: rest →
      ∃ k, hostMove h = .next k ∧ k.lines = rest ∧ k.machine.b3c = hostWrite r h.value h.machine.b3c) ∧
    (h.lines = .wait :: rest →
      ∃ k, hostMove h = .next k ∧ k.machine.b3c = h.machine.b3c ∧
        k.lines = if h.machine.b3c.busy then h.lines else rest) ∧
    (∀ m, m ≤ 64 → h.lines = .append m :: rest →
      ∃ k, hostMove h = .next k ∧ k.lines = rest ∧ k.machine = h.machine ∧
        k.bytes = h.bytes ++ (List.range m).map fun j => streamByte h.words j)

/-- R89, R186: with BUSY = 0 the lines of `key_from_out` copy DOUT word j to KEY word j, with no byte swap, and write nothing
else (the host that runs them is the model's, log 23). -/
def Obligations.KeyFromOutCopiesDout : Prop :=
  ∀ (h : HostRun) (rest : List Line), mayDrive h.machine.owner h.host = true → h.machine.b3c.busy = false →
    h.lines = keyFromOut ++ rest →
    ∃ k, runTurns (List.replicate 16 .host) h = .next k ∧ k.lines = rest ∧ k.bytes = h.bytes ∧
      k.machine.b3c = { h.machine.b3c with key := Vector.ofFn fun j => h.machine.b3c.dout[j.val] }

/-! ## The invariant -/

/-- R26, R27 (with the clauses log 24 deduces): the invariant holds after reset. -/
def Obligations.InvariantHoldsAtReset : Prop := State.reset.Inv

/-- R26, R27, R28, R30 (with the clauses log 24 deduces): every step, of whatever agent, keeps the invariant. -/
def Obligations.StepKeepsInvariant : Prop :=
  ∀ s t : State, s.Inv → step s = .next t → t.Inv

/-- R153, R26: in a state of the invariant no step faults: every merge finds a live entry. -/
def Obligations.InvariantExcludesFault : Prop :=
  ∀ (s : State) (f : Fault), s.Inv → step s ≠ .fault f

/-- R111, R230: in a state of the invariant every block length that a hashing compression uses is at most 64. -/
def Obligations.InternalBlockLengthsInRange : Prop :=
  ∀ b : B3C, b.Inv → (chunkNode b).blen.toNat ≤ 64 ∧ b.rBlen.toNat ≤ 64 ∧ (rootFold b).blen.toNat ≤ 64 ∧
    ∀ l r, (parentNode b l r).blen.toNat ≤ 64
end

