-- ==== Sys2Proof/Laws/Fields.lean ====
section
/-! SUPPORT. For each operation on the machine's record, one lemma for each field it leaves alone, so that no proof
unfolds another operation's record update (a bare rfl would compare whole records, field by field). -/

namespace Sys2Proof.Machine

/-! ## A fill writes BUF and BUFLEN only (R132) -/

@[simp] theorem fillBuf_phase (b : B3C) (xs : List Byte) : (fillBuf b xs).phase = b.phase := by simp only [fillBuf]
@[simp] theorem fillBuf_mode (b : B3C) (xs : List Byte) : (fillBuf b xs).mode = b.mode := by simp only [fillBuf]
@[simp] theorem fillBuf_bk (b : B3C) (xs : List Byte) : (fillBuf b xs).bk = b.bk := by simp only [fillBuf]
@[simp] theorem fillBuf_bf (b : B3C) (xs : List Byte) : (fillBuf b xs).bf = b.bf := by simp only [fillBuf]
@[simp] theorem fillBuf_cscv (b : B3C) (xs : List Byte) : (fillBuf b xs).cscv = b.cscv := by simp only [fillBuf]
@[simp] theorem fillBuf_ccnt (b : B3C) (xs : List Byte) : (fillBuf b xs).ccnt = b.ccnt := by simp only [fillBuf]
@[simp] theorem fillBuf_blocks (b : B3C) (xs : List Byte) : (fillBuf b xs).blocks = b.blocks := by simp only [fillBuf]
@[simp] theorem fillBuf_stack (b : B3C) (xs : List Byte) : (fillBuf b xs).stack = b.stack := by simp only [fillBuf]
@[simp] theorem fillBuf_depth (b : B3C) (xs : List Byte) : (fillBuf b xs).depth = b.depth := by simp only [fillBuf]
@[simp] theorem fillBuf_rCv (b : B3C) (xs : List Byte) : (fillBuf b xs).rCv = b.rCv := by simp only [fillBuf]
@[simp] theorem fillBuf_rBlk (b : B3C) (xs : List Byte) : (fillBuf b xs).rBlk = b.rBlk := by simp only [fillBuf]
@[simp] theorem fillBuf_rBlen (b : B3C) (xs : List Byte) : (fillBuf b xs).rBlen = b.rBlen := by simp only [fillBuf]
@[simp] theorem fillBuf_rFlg (b : B3C) (xs : List Byte) : (fillBuf b xs).rFlg = b.rFlg := by simp only [fillBuf]
@[simp] theorem fillBuf_xpos (b : B3C) (xs : List Byte) : (fillBuf b xs).xpos = b.xpos := by simp only [fillBuf]
@[simp] theorem fillBuf_busy (b : B3C) (xs : List Byte) : (fillBuf b xs).busy = b.busy := by simp only [fillBuf]
@[simp] theorem fillBuf_pend (b : B3C) (xs : List Byte) : (fillBuf b xs).pend = b.pend := by simp only [fillBuf]
@[simp] theorem fillBuf_err (b : B3C) (xs : List Byte) : (fillBuf b xs).err = b.err := by simp only [fillBuf]
@[simp] theorem fillBuf_errCode (b : B3C) (xs : List Byte) : (fillBuf b xs).errCode = b.errCode := by simp only [fillBuf]
@[simp] theorem fillBuf_key (b : B3C) (xs : List Byte) : (fillBuf b xs).key = b.key := by simp only [fillBuf]
@[simp] theorem fillBuf_cv (b : B3C) (xs : List Byte) : (fillBuf b xs).cv = b.cv := by simp only [fillBuf]
@[simp] theorem fillBuf_din (b : B3C) (xs : List Byte) : (fillBuf b xs).din = b.din := by simp only [fillBuf]
@[simp] theorem fillBuf_dout (b : B3C) (xs : List Byte) : (fillBuf b xs).dout = b.dout := by simp only [fillBuf]
@[simp] theorem fillBuf_cctrLo (b : B3C) (xs : List Byte) : (fillBuf b xs).cctrLo = b.cctrLo := by simp only [fillBuf]
@[simp] theorem fillBuf_cctrHi (b : B3C) (xs : List Byte) : (fillBuf b xs).cctrHi = b.cctrHi := by simp only [fillBuf]
@[simp] theorem fillBuf_cparam (b : B3C) (xs : List Byte) : (fillBuf b xs).cparam = b.cparam := by simp only [fillBuf]
@[simp] theorem fillBuf_seekLo (b : B3C) (xs : List Byte) : (fillBuf b xs).seekLo = b.seekLo := by simp only [fillBuf]
@[simp] theorem fillBuf_seekHi (b : B3C) (xs : List Byte) : (fillBuf b xs).seekHi = b.seekHi := by simp only [fillBuf]

/-! ## CompressBlock writes CSCV, BLOCKS, BUF and BUFLEN only (R131) -/

@[simp] theorem compressBlock_phase (b : B3C) : (compressBlock b).phase = b.phase := by simp only [compressBlock]
@[simp] theorem compressBlock_mode (b : B3C) : (compressBlock b).mode = b.mode := by simp only [compressBlock]
@[simp] theorem compressBlock_bk (b : B3C) : (compressBlock b).bk = b.bk := by simp only [compressBlock]
@[simp] theorem compressBlock_bf (b : B3C) : (compressBlock b).bf = b.bf := by simp only [compressBlock]
@[simp] theorem compressBlock_ccnt (b : B3C) : (compressBlock b).ccnt = b.ccnt := by simp only [compressBlock]
@[simp] theorem compressBlock_stack (b : B3C) : (compressBlock b).stack = b.stack := by simp only [compressBlock]
@[simp] theorem compressBlock_depth (b : B3C) : (compressBlock b).depth = b.depth := by simp only [compressBlock]
@[simp] theorem compressBlock_rCv (b : B3C) : (compressBlock b).rCv = b.rCv := by simp only [compressBlock]
@[simp] theorem compressBlock_rBlk (b : B3C) : (compressBlock b).rBlk = b.rBlk := by simp only [compressBlock]
@[simp] theorem compressBlock_rBlen (b : B3C) : (compressBlock b).rBlen = b.rBlen := by simp only [compressBlock]
@[simp] theorem compressBlock_rFlg (b : B3C) : (compressBlock b).rFlg = b.rFlg := by simp only [compressBlock]
@[simp] theorem compressBlock_xpos (b : B3C) : (compressBlock b).xpos = b.xpos := by simp only [compressBlock]
@[simp] theorem compressBlock_busy (b : B3C) : (compressBlock b).busy = b.busy := by simp only [compressBlock]
@[simp] theorem compressBlock_pend (b : B3C) : (compressBlock b).pend = b.pend := by simp only [compressBlock]
@[simp] theorem compressBlock_err (b : B3C) : (compressBlock b).err = b.err := by simp only [compressBlock]
@[simp] theorem compressBlock_errCode (b : B3C) : (compressBlock b).errCode = b.errCode := by simp only [compressBlock]
@[simp] theorem compressBlock_key (b : B3C) : (compressBlock b).key = b.key := by simp only [compressBlock]
@[simp] theorem compressBlock_cv (b : B3C) : (compressBlock b).cv = b.cv := by simp only [compressBlock]
@[simp] theorem compressBlock_din (b : B3C) : (compressBlock b).din = b.din := by simp only [compressBlock]
@[simp] theorem compressBlock_dout (b : B3C) : (compressBlock b).dout = b.dout := by simp only [compressBlock]
@[simp] theorem compressBlock_cctrLo (b : B3C) : (compressBlock b).cctrLo = b.cctrLo := by simp only [compressBlock]
@[simp] theorem compressBlock_cctrHi (b : B3C) : (compressBlock b).cctrHi = b.cctrHi := by simp only [compressBlock]
@[simp] theorem compressBlock_cparam (b : B3C) : (compressBlock b).cparam = b.cparam := by simp only [compressBlock]
@[simp] theorem compressBlock_seekLo (b : B3C) : (compressBlock b).seekLo = b.seekLo := by simp only [compressBlock]
@[simp] theorem compressBlock_seekHi (b : B3C) : (compressBlock b).seekHi = b.seekHi := by simp only [compressBlock]

/-! ## ChunkReset writes CSCV, BLOCKS, BUF and BUFLEN only (R139) -/

@[simp] theorem chunkReset_phase (b : B3C) : (chunkReset b).phase = b.phase := by simp only [chunkReset]
@[simp] theorem chunkReset_mode (b : B3C) : (chunkReset b).mode = b.mode := by simp only [chunkReset]
@[simp] theorem chunkReset_bk (b : B3C) : (chunkReset b).bk = b.bk := by simp only [chunkReset]
@[simp] theorem chunkReset_bf (b : B3C) : (chunkReset b).bf = b.bf := by simp only [chunkReset]
@[simp] theorem chunkReset_ccnt (b : B3C) : (chunkReset b).ccnt = b.ccnt := by simp only [chunkReset]
@[simp] theorem chunkReset_stack (b : B3C) : (chunkReset b).stack = b.stack := by simp only [chunkReset]
@[simp] theorem chunkReset_depth (b : B3C) : (chunkReset b).depth = b.depth := by simp only [chunkReset]
@[simp] theorem chunkReset_rCv (b : B3C) : (chunkReset b).rCv = b.rCv := by simp only [chunkReset]
@[simp] theorem chunkReset_rBlk (b : B3C) : (chunkReset b).rBlk = b.rBlk := by simp only [chunkReset]
@[simp] theorem chunkReset_rBlen (b : B3C) : (chunkReset b).rBlen = b.rBlen := by simp only [chunkReset]
@[simp] theorem chunkReset_rFlg (b : B3C) : (chunkReset b).rFlg = b.rFlg := by simp only [chunkReset]
@[simp] theorem chunkReset_xpos (b : B3C) : (chunkReset b).xpos = b.xpos := by simp only [chunkReset]
@[simp] theorem chunkReset_busy (b : B3C) : (chunkReset b).busy = b.busy := by simp only [chunkReset]
@[simp] theorem chunkReset_pend (b : B3C) : (chunkReset b).pend = b.pend := by simp only [chunkReset]
@[simp] theorem chunkReset_err (b : B3C) : (chunkReset b).err = b.err := by simp only [chunkReset]
@[simp] theorem chunkReset_errCode (b : B3C) : (chunkReset b).errCode = b.errCode := by simp only [chunkReset]
@[simp] theorem chunkReset_key (b : B3C) : (chunkReset b).key = b.key := by simp only [chunkReset]
@[simp] theorem chunkReset_cv (b : B3C) : (chunkReset b).cv = b.cv := by simp only [chunkReset]
@[simp] theorem chunkReset_din (b : B3C) : (chunkReset b).din = b.din := by simp only [chunkReset]
@[simp] theorem chunkReset_dout (b : B3C) : (chunkReset b).dout = b.dout := by simp only [chunkReset]
@[simp] theorem chunkReset_cctrLo (b : B3C) : (chunkReset b).cctrLo = b.cctrLo := by simp only [chunkReset]
@[simp] theorem chunkReset_cctrHi (b : B3C) : (chunkReset b).cctrHi = b.cctrHi := by simp only [chunkReset]
@[simp] theorem chunkReset_cparam (b : B3C) : (chunkReset b).cparam = b.cparam := by simp only [chunkReset]
@[simp] theorem chunkReset_seekLo (b : B3C) : (chunkReset b).seekLo = b.seekLo := by simp only [chunkReset]
@[simp] theorem chunkReset_seekHi (b : B3C) : (chunkReset b).seekHi = b.seekHi := by simp only [chunkReset]

/-! ## A push writes STACK and DEPTH only (R152) -/

@[simp] theorem pushCV_phase (b : B3C) (d : Nat) (c : CV) : (pushCV b d c).phase = b.phase := by simp only [pushCV]
@[simp] theorem pushCV_mode (b : B3C) (d : Nat) (c : CV) : (pushCV b d c).mode = b.mode := by simp only [pushCV]
@[simp] theorem pushCV_bk (b : B3C) (d : Nat) (c : CV) : (pushCV b d c).bk = b.bk := by simp only [pushCV]
@[simp] theorem pushCV_bf (b : B3C) (d : Nat) (c : CV) : (pushCV b d c).bf = b.bf := by simp only [pushCV]
@[simp] theorem pushCV_cscv (b : B3C) (d : Nat) (c : CV) : (pushCV b d c).cscv = b.cscv := by simp only [pushCV]
@[simp] theorem pushCV_ccnt (b : B3C) (d : Nat) (c : CV) : (pushCV b d c).ccnt = b.ccnt := by simp only [pushCV]
@[simp] theorem pushCV_blocks (b : B3C) (d : Nat) (c : CV) : (pushCV b d c).blocks = b.blocks := by simp only [pushCV]
@[simp] theorem pushCV_buf (b : B3C) (d : Nat) (c : CV) : (pushCV b d c).buf = b.buf := by simp only [pushCV]
@[simp] theorem pushCV_bufLen (b : B3C) (d : Nat) (c : CV) : (pushCV b d c).bufLen = b.bufLen := by simp only [pushCV]
@[simp] theorem pushCV_rCv (b : B3C) (d : Nat) (c : CV) : (pushCV b d c).rCv = b.rCv := by simp only [pushCV]
@[simp] theorem pushCV_rBlk (b : B3C) (d : Nat) (c : CV) : (pushCV b d c).rBlk = b.rBlk := by simp only [pushCV]
@[simp] theorem pushCV_rBlen (b : B3C) (d : Nat) (c : CV) : (pushCV b d c).rBlen = b.rBlen := by simp only [pushCV]
@[simp] theorem pushCV_rFlg (b : B3C) (d : Nat) (c : CV) : (pushCV b d c).rFlg = b.rFlg := by simp only [pushCV]
@[simp] theorem pushCV_xpos (b : B3C) (d : Nat) (c : CV) : (pushCV b d c).xpos = b.xpos := by simp only [pushCV]
@[simp] theorem pushCV_busy (b : B3C) (d : Nat) (c : CV) : (pushCV b d c).busy = b.busy := by simp only [pushCV]
@[simp] theorem pushCV_pend (b : B3C) (d : Nat) (c : CV) : (pushCV b d c).pend = b.pend := by simp only [pushCV]
@[simp] theorem pushCV_err (b : B3C) (d : Nat) (c : CV) : (pushCV b d c).err = b.err := by simp only [pushCV]
@[simp] theorem pushCV_errCode (b : B3C) (d : Nat) (c : CV) : (pushCV b d c).errCode = b.errCode := by simp only [pushCV]
@[simp] theorem pushCV_key (b : B3C) (d : Nat) (c : CV) : (pushCV b d c).key = b.key := by simp only [pushCV]
@[simp] theorem pushCV_cv (b : B3C) (d : Nat) (c : CV) : (pushCV b d c).cv = b.cv := by simp only [pushCV]
@[simp] theorem pushCV_din (b : B3C) (d : Nat) (c : CV) : (pushCV b d c).din = b.din := by simp only [pushCV]
@[simp] theorem pushCV_dout (b : B3C) (d : Nat) (c : CV) : (pushCV b d c).dout = b.dout := by simp only [pushCV]
@[simp] theorem pushCV_cctrLo (b : B3C) (d : Nat) (c : CV) : (pushCV b d c).cctrLo = b.cctrLo := by simp only [pushCV]
@[simp] theorem pushCV_cctrHi (b : B3C) (d : Nat) (c : CV) : (pushCV b d c).cctrHi = b.cctrHi := by simp only [pushCV]
@[simp] theorem pushCV_cparam (b : B3C) (d : Nat) (c : CV) : (pushCV b d c).cparam = b.cparam := by simp only [pushCV]
@[simp] theorem pushCV_seekLo (b : B3C) (d : Nat) (c : CV) : (pushCV b d c).seekLo = b.seekLo := by simp only [pushCV]
@[simp] theorem pushCV_seekHi (b : B3C) (d : Nat) (c : CV) : (pushCV b d c).seekHi = b.seekHi := by simp only [pushCV]

/-! ## INIT leaves the handshake, the error status, the operands and DOUT alone (R182) -/

@[simp] theorem initBody_busy (m : Mode) (b : B3C) : (initBody m b).busy = b.busy := by simp only [initBody]
@[simp] theorem initBody_pend (m : Mode) (b : B3C) : (initBody m b).pend = b.pend := by simp only [initBody]
@[simp] theorem initBody_err (m : Mode) (b : B3C) : (initBody m b).err = b.err := by simp only [initBody]
@[simp] theorem initBody_errCode (m : Mode) (b : B3C) : (initBody m b).errCode = b.errCode := by simp only [initBody]
@[simp] theorem initBody_key (m : Mode) (b : B3C) : (initBody m b).key = b.key := by simp only [initBody]
@[simp] theorem initBody_cv (m : Mode) (b : B3C) : (initBody m b).cv = b.cv := by simp only [initBody]
@[simp] theorem initBody_din (m : Mode) (b : B3C) : (initBody m b).din = b.din := by simp only [initBody]
@[simp] theorem initBody_dout (m : Mode) (b : B3C) : (initBody m b).dout = b.dout := by simp only [initBody]
@[simp] theorem initBody_cctrLo (m : Mode) (b : B3C) : (initBody m b).cctrLo = b.cctrLo := by simp only [initBody]
@[simp] theorem initBody_cctrHi (m : Mode) (b : B3C) : (initBody m b).cctrHi = b.cctrHi := by simp only [initBody]
@[simp] theorem initBody_cparam (m : Mode) (b : B3C) : (initBody m b).cparam = b.cparam := by simp only [initBody]
@[simp] theorem initBody_seekLo (m : Mode) (b : B3C) : (initBody m b).seekLo = b.seekLo := by simp only [initBody]
@[simp] theorem initBody_seekHi (m : Mode) (b : B3C) : (initBody m b).seekHi = b.seekHi := by simp only [initBody]

/-! ## FINALIZE writes the root registers, XPOS and PHASE only (R184) -/

@[simp] theorem captureRoot_mode (n : Node) (b : B3C) : (captureRoot n b).mode = b.mode := by simp only [captureRoot]
@[simp] theorem captureRoot_bk (n : Node) (b : B3C) : (captureRoot n b).bk = b.bk := by simp only [captureRoot]
@[simp] theorem captureRoot_bf (n : Node) (b : B3C) : (captureRoot n b).bf = b.bf := by simp only [captureRoot]
@[simp] theorem captureRoot_cscv (n : Node) (b : B3C) : (captureRoot n b).cscv = b.cscv := by simp only [captureRoot]
@[simp] theorem captureRoot_ccnt (n : Node) (b : B3C) : (captureRoot n b).ccnt = b.ccnt := by simp only [captureRoot]
@[simp] theorem captureRoot_blocks (n : Node) (b : B3C) : (captureRoot n b).blocks = b.blocks := by simp only [captureRoot]
@[simp] theorem captureRoot_buf (n : Node) (b : B3C) : (captureRoot n b).buf = b.buf := by simp only [captureRoot]
@[simp] theorem captureRoot_bufLen (n : Node) (b : B3C) : (captureRoot n b).bufLen = b.bufLen := by simp only [captureRoot]
@[simp] theorem captureRoot_stack (n : Node) (b : B3C) : (captureRoot n b).stack = b.stack := by simp only [captureRoot]
@[simp] theorem captureRoot_depth (n : Node) (b : B3C) : (captureRoot n b).depth = b.depth := by simp only [captureRoot]
@[simp] theorem captureRoot_busy (n : Node) (b : B3C) : (captureRoot n b).busy = b.busy := by simp only [captureRoot]
@[simp] theorem captureRoot_pend (n : Node) (b : B3C) : (captureRoot n b).pend = b.pend := by simp only [captureRoot]
@[simp] theorem captureRoot_err (n : Node) (b : B3C) : (captureRoot n b).err = b.err := by simp only [captureRoot]
@[simp] theorem captureRoot_errCode (n : Node) (b : B3C) : (captureRoot n b).errCode = b.errCode := by simp only [captureRoot]
@[simp] theorem captureRoot_key (n : Node) (b : B3C) : (captureRoot n b).key = b.key := by simp only [captureRoot]
@[simp] theorem captureRoot_cv (n : Node) (b : B3C) : (captureRoot n b).cv = b.cv := by simp only [captureRoot]
@[simp] theorem captureRoot_din (n : Node) (b : B3C) : (captureRoot n b).din = b.din := by simp only [captureRoot]
@[simp] theorem captureRoot_dout (n : Node) (b : B3C) : (captureRoot n b).dout = b.dout := by simp only [captureRoot]
@[simp] theorem captureRoot_cctrLo (n : Node) (b : B3C) : (captureRoot n b).cctrLo = b.cctrLo := by simp only [captureRoot]
@[simp] theorem captureRoot_cctrHi (n : Node) (b : B3C) : (captureRoot n b).cctrHi = b.cctrHi := by simp only [captureRoot]
@[simp] theorem captureRoot_cparam (n : Node) (b : B3C) : (captureRoot n b).cparam = b.cparam := by simp only [captureRoot]
@[simp] theorem captureRoot_seekLo (n : Node) (b : B3C) : (captureRoot n b).seekLo = b.seekLo := by simp only [captureRoot]
@[simp] theorem captureRoot_seekHi (n : Node) (b : B3C) : (captureRoot n b).seekHi = b.seekHi := by simp only [captureRoot]

/-! ## A host write to a register other than CMD writes operands only (R70) -/

@[simp] theorem storeReg_phase (r : Reg) (v : Word) (b : B3C) : (storeReg r v b).phase = b.phase := 
    by cases r <;> rfl
@[simp] theorem storeReg_mode (r : Reg) (v : Word) (b : B3C) : (storeReg r v b).mode = b.mode := 
    by cases r <;> rfl
@[simp] theorem storeReg_bk (r : Reg) (v : Word) (b : B3C) : (storeReg r v b).bk = b.bk := 
    by cases r <;> rfl
@[simp] theorem storeReg_bf (r : Reg) (v : Word) (b : B3C) : (storeReg r v b).bf = b.bf := 
    by cases r <;> rfl
@[simp] theorem storeReg_cscv (r : Reg) (v : Word) (b : B3C) : (storeReg r v b).cscv = b.cscv := 
    by cases r <;> rfl
@[simp] theorem storeReg_ccnt (r : Reg) (v : Word) (b : B3C) : (storeReg r v b).ccnt = b.ccnt := 
    by cases r <;> rfl
@[simp] theorem storeReg_blocks (r : Reg) (v : Word) (b : B3C) : (storeReg r v b).blocks = b.blocks := 
    by cases r <;> rfl
@[simp] theorem storeReg_buf (r : Reg) (v : Word) (b : B3C) : (storeReg r v b).buf = b.buf := 
    by cases r <;> rfl
@[simp] theorem storeReg_bufLen (r : Reg) (v : Word) (b : B3C) : (storeReg r v b).bufLen = b.bufLen := 
    by cases r <;> rfl
@[simp] theorem storeReg_stack (r : Reg) (v : Word) (b : B3C) : (storeReg r v b).stack = b.stack := 
    by cases r <;> rfl
@[simp] theorem storeReg_depth (r : Reg) (v : Word) (b : B3C) : (storeReg r v b).depth = b.depth := 
    by cases r <;> rfl
@[simp] theorem storeReg_rCv (r : Reg) (v : Word) (b : B3C) : (storeReg r v b).rCv = b.rCv := 
    by cases r <;> rfl
@[simp] theorem storeReg_rBlk (r : Reg) (v : Word) (b : B3C) : (storeReg r v b).rBlk = b.rBlk := 
    by cases r <;> rfl
@[simp] theorem storeReg_rBlen (r : Reg) (v : Word) (b : B3C) : (storeReg r v b).rBlen = b.rBlen := 
    by cases r <;> rfl
@[simp] theorem storeReg_rFlg (r : Reg) (v : Word) (b : B3C) : (storeReg r v b).rFlg = b.rFlg := 
    by cases r <;> rfl
@[simp] theorem storeReg_xpos (r : Reg) (v : Word) (b : B3C) : (storeReg r v b).xpos = b.xpos := 
    by cases r <;> rfl
@[simp] theorem storeReg_busy (r : Reg) (v : Word) (b : B3C) : (storeReg r v b).busy = b.busy := 
    by cases r <;> rfl
@[simp] theorem storeReg_pend (r : Reg) (v : Word) (b : B3C) : (storeReg r v b).pend = b.pend := 
    by cases r <;> rfl
@[simp] theorem storeReg_err (r : Reg) (v : Word) (b : B3C) : (storeReg r v b).err = b.err := 
    by cases r <;> rfl
@[simp] theorem storeReg_errCode (r : Reg) (v : Word) (b : B3C) : (storeReg r v b).errCode = b.errCode := 
    by cases r <;> rfl
@[simp] theorem storeReg_dout (r : Reg) (v : Word) (b : B3C) : (storeReg r v b).dout = b.dout := 
    by cases r <;> rfl

/-! ## What they write, where it is one value -/

@[simp] theorem chunkReset_cscv (b : B3C) : (chunkReset b).cscv = b.bk := by simp only [chunkReset]
@[simp] theorem chunkReset_blocks (b : B3C) : (chunkReset b).blocks = 0 := by simp only [chunkReset]
@[simp] theorem chunkReset_buf (b : B3C) : (chunkReset b).buf = zero64 := by simp only [chunkReset]
@[simp] theorem chunkReset_bufLen (b : B3C) : (chunkReset b).bufLen = 0 := by simp only [chunkReset]
@[simp] theorem compressBlock_blocks (b : B3C) : (compressBlock b).blocks = b.blocks + 1 := by simp only [compressBlock]
@[simp] theorem compressBlock_buf (b : B3C) : (compressBlock b).buf = zero64 := by simp only [compressBlock]
@[simp] theorem compressBlock_bufLen (b : B3C) : (compressBlock b).bufLen = 0 := by simp only [compressBlock]
@[simp] theorem initBody_phase (m : Mode) (b : B3C) : (initBody m b).phase = .absorbing := by simp only [initBody]
@[simp] theorem initBody_mode (m : Mode) (b : B3C) : (initBody m b).mode = m := by simp only [initBody]
@[simp] theorem initBody_bk (m : Mode) (b : B3C) : (initBody m b).bk = baseKey m b := by simp only [initBody]
@[simp] theorem initBody_bf (m : Mode) (b : B3C) : (initBody m b).bf = baseFlags m := by simp only [initBody]
@[simp] theorem initBody_cscv (m : Mode) (b : B3C) : (initBody m b).cscv = baseKey m b := by simp only [initBody]
@[simp] theorem initBody_ccnt (m : Mode) (b : B3C) : (initBody m b).ccnt = 0 := by simp only [initBody]
@[simp] theorem initBody_blocks (m : Mode) (b : B3C) : (initBody m b).blocks = 0 := by simp only [initBody]
@[simp] theorem initBody_buf (m : Mode) (b : B3C) : (initBody m b).buf = zero64 := by simp only [initBody]
@[simp] theorem initBody_bufLen (m : Mode) (b : B3C) : (initBody m b).bufLen = 0 := by simp only [initBody]
@[simp] theorem initBody_stack (m : Mode) (b : B3C) : (initBody m b).stack = Vector.replicate 54 zeroCV := by simp only [initBody]
@[simp] theorem initBody_depth (m : Mode) (b : B3C) : (initBody m b).depth = 0 := by simp only [initBody]
@[simp] theorem initBody_rCv (m : Mode) (b : B3C) : (initBody m b).rCv = zeroCV := by simp only [initBody]
@[simp] theorem initBody_rBlk (m : Mode) (b : B3C) : (initBody m b).rBlk = Vector.replicate 16 0 := by simp only [initBody]
@[simp] theorem initBody_rBlen (m : Mode) (b : B3C) : (initBody m b).rBlen = 0 := by simp only [initBody]
@[simp] theorem initBody_rFlg (m : Mode) (b : B3C) : (initBody m b).rFlg = 0 := by simp only [initBody]
@[simp] theorem initBody_xpos (m : Mode) (b : B3C) : (initBody m b).xpos = 0 := by simp only [initBody]
@[simp] theorem captureRoot_phase (n : Node) (b : B3C) : (captureRoot n b).phase = .finalized := by simp only [captureRoot]
@[simp] theorem captureRoot_rCv (n : Node) (b : B3C) : (captureRoot n b).rCv = n.cv := by simp only [captureRoot]
@[simp] theorem captureRoot_rBlk (n : Node) (b : B3C) : (captureRoot n b).rBlk = n.block := by simp only [captureRoot]
@[simp] theorem captureRoot_rBlen (n : Node) (b : B3C) : (captureRoot n b).rBlen = n.blen := by simp only [captureRoot]
@[simp] theorem captureRoot_rFlg (n : Node) (b : B3C) : (captureRoot n b).rFlg = n.flags := by simp only [captureRoot]
@[simp] theorem captureRoot_xpos (n : Node) (b : B3C) : (captureRoot n b).xpos = 0 := by simp only [captureRoot]
@[simp] theorem pushCV_stack (b : B3C) (d : Nat) (c : CV) :
    (pushCV b d c).stack = b.stack.setIfInBounds d c := by simp only [pushCV]

end Sys2Proof.Machine
end

