-- ==== Sys2Proof/Laws/Ops.lean ====
section
/-! SUPPORT. The small lemmas of the shared operations: bytes and Words (R8), the buffer write (R132), and the arithmetic of
tz and popcount that the stack's depth rests on (R153). -/

namespace Sys2Proof.Machine

/-! ## Bytes and Words -/

@[simp] theorem getElem_wordsOf (b : Bytes64) (i : Nat) (h : i < 16) :
    (wordsOf b)[i] = le32 b[4 * i] b[4 * i + 1] b[4 * i + 2] b[4 * i + 3] := by
  simp [wordsOf]

@[simp] theorem getElem_bytesOf (w : Block) (j : Nat) (h : j < 64) :
    (bytesOf w)[j] = byteOf w[j / 4] (j % 4) := by
  simp [bytesOf]

@[simp] theorem getElem_zero64 (j : Nat) (h : j < 64) : zero64[j] = 0 := by
  simp [zero64]

@[simp] theorem getElem_padTo64 (xs : List Byte) (j : Nat) (h : j < 64) : (padTo64 xs)[j] = xs.getD j 0 := by
  simp [padTo64]

theorem getElem_writeBytes (buf : Bytes64) (p : Nat) (xs : List Byte) (j : Nat) (h : j < 64) :
    (writeBytes buf p xs)[j] = if p ≤ j ∧ j < p + xs.length then xs.getD (j - p) 0 else buf[j] := by
  simp [writeBytes]

@[simp] theorem getElem_first8 (w : Block) (i : Nat) (h : i < 8) : (first8 w)[i] = w[i] := by
  simp [first8]

theorem getElem_joinCV (l r : CV) (i : Nat) (h : i < 16) :
    (joinCV l r)[i] = if h : i < 8 then l[i] else r[i - 8] := by
  simp [joinCV]

/-- Byte `k` of `LE32(b0, b1, b2, b3)` is `bk` (R8). -/
theorem byteOf_le32 (b0 b1 b2 b3 : Byte) (k : Nat) (h : k < 4) :
    byteOf (le32 b0 b1 b2 b3) k = [b0, b1, b2, b3].getD k 0 := by
  unfold byteOf le32
  obtain rfl | rfl | rfl | rfl : k = 0 ∨ k = 1 ∨ k = 2 ∨ k = 3 := by omega
  all_goals
    ext i hi
    simp only [BitVec.getElem_extractLsb', BitVec.getLsbD_or, BitVec.getLsbD_shiftLeft, BitVec.getLsbD_setWidth]
    interval_cases i <;> simp

/-- `Bytes(Words(B)) = B` (R8). -/
theorem bytesOf_wordsOf (b : Bytes64) : bytesOf (wordsOf b) = b := by
  apply Vector.ext
  intro j hj
  rw [getElem_bytesOf, getElem_wordsOf, byteOf_le32 _ _ _ _ _ (by omega)]
  have hj4 : j % 4 < 4 := Nat.mod_lt _ (by decide)
  have hdiv : 4 * (j / 4) + j % 4 = j := by omega
  obtain h | h | h | h : j % 4 = 0 ∨ j % 4 = 1 ∨ j % 4 = 2 ∨ j % 4 = 3 := by omega
  all_goals simp only [h, List.getD_cons_zero, List.getD_cons_succ]
  all_goals congr 1; omega

/-! ## The operand of ABSORB (R64) -/

theorem length_absorbOperand (b : B3C) (n : Nat) (h : n ≤ 64) : (absorbOperand b n).length = n := by
  simp [absorbOperand]
  omega

theorem getD_absorbOperand (b : B3C) (n j : Nat) (hn : n ≤ 64) (h : j < n) :
    (absorbOperand b n).getD j 0 = (bytesOf b.din)[j] := by
  rw [absorbOperand, List.getD_eq_getElem?_getD, List.getElem?_take_of_lt h,
    List.getElem?_eq_getElem (by simp; omega)]
  simp

/-! ## tz and popcount (R7, R153) -/

theorem tzUpTo_odd (f x : Nat) (h : x % 2 = 1) : tzUpTo f x = 0 := by
  cases f <;> simp [tzUpTo, h]

theorem tzUpTo_even (f x : Nat) (h : x % 2 = 0) : tzUpTo (f + 1) x = tzUpTo f (x / 2) + 1 := by
  simp [tzUpTo, h]

theorem popcountUpTo_zero (f : Nat) : popcountUpTo f 0 = 0 := by
  induction f with
  | zero => rfl
  | succ f ih => simp [popcountUpTo, ih]

@[simp] theorem popcount_zero : popcount 0 = 0 := popcountUpTo_zero 64

/-- `popcount(n + 1) + tz(n + 1) = popcount(n) + 1`: what a chunk close does to DEPTH (R153). -/
theorem popcountUpTo_succ (f n : Nat) (h : n + 1 < 2 ^ f) :
    popcountUpTo f (n + 1) + tzUpTo f (n + 1) = popcountUpTo f n + 1 := by
  induction f generalizing n with
  | zero => simp at h
  | succ f ih =>
    have h2 : 2 ^ (f + 1) = 2 * 2 ^ f := by rw [Nat.pow_succ, Nat.mul_comm]
    by_cases he : n % 2 = 0
    · have h1 : (n + 1) % 2 = 1 := by omega
      have hd : (n + 1) / 2 = n / 2 := by omega
      simp [popcountUpTo, tzUpTo, he, h1, hd]
      omega
    · have h1 : (n + 1) % 2 = 0 := by omega
      have hd : (n + 1) / 2 = n / 2 + 1 := by omega
      have hm : n % 2 = 1 := by omega
      have := ih (n / 2) (by omega)
      simp only [popcountUpTo, tzUpTo, h1, hd, hm, if_true]
      omega

theorem popcount_succ (n : Nat) (h : n + 1 < 2 ^ 64) : popcount (n + 1) + tz (n + 1) = popcount n + 1 :=
  popcountUpTo_succ 64 n h

/-- A positive number has a one bit. -/
theorem popcountUpTo_pos (f n : Nat) (h0 : 0 < n) (h : n < 2 ^ f) : 1 ≤ popcountUpTo f n := by
  induction f generalizing n with
  | zero => simp at h; omega
  | succ f ih =>
    have h2 : 2 ^ (f + 1) = 2 * 2 ^ f := by rw [Nat.pow_succ, Nat.mul_comm]
    simp only [popcountUpTo]
    by_cases hm : n % 2 = 0
    · have := ih (n / 2) (by omega) (by omega)
      omega
    · omega

/-- "`popcount(n - 1) >= tz(n)`": every merge of a close finds an entry (R153). -/
theorem tz_succ_le_popcount (n : Nat) (h : n + 1 < 2 ^ 64) : tz (n + 1) ≤ popcount n := by
  have := popcount_succ n h
  have := popcountUpTo_pos 64 (n + 1) (by omega) h
  unfold popcount at *
  omega

end Sys2Proof.Machine
end

