-- ==== Sys2Proof/Laws/Chunk.lean ====
section
/-! SUPPORT. The chunk accumulator one byte at a time (41_chunk.md R132): ChunkUpdate over a list of bytes is the fold of
`pushByte`, so facts about it are proved by induction on the bytes. -/

namespace Sys2Proof.Machine

/-- One byte into the current chunk: a full buffer is compressed first. -/
def pushByte (b : B3C) (x : Byte) : B3C := fillBuf (makeRoom b) [x]

/-! ## The frame of each procedure -/

theorem fillBuf_bufLen_val (b : B3C) (xs : List Byte) :
    (fillBuf b xs).bufLen.val = b.bufLen.val + min (64 - b.bufLen.val) xs.length := rfl

/-- Byte `j` of the buffer after a fill: bytes past the buffer's end are not stored. -/
theorem getElem_fillBuf (b : B3C) (xs : List Byte) (j : Nat) (h : j < 64) :
    (fillBuf b xs).buf[j] =
      if b.bufLen.val ≤ j ∧ j < b.bufLen.val + xs.length then xs.getD (j - b.bufLen.val) 0 else b.buf[j] := by
  change (writeBytes b.buf b.bufLen.val (xs.take (min (64 - b.bufLen.val) xs.length)))[j] = _
  rw [getElem_writeBytes, List.length_take]
  by_cases hc : b.bufLen.val ≤ j ∧ j < b.bufLen.val + xs.length
  · rw [if_pos hc, if_pos (by omega)]
    simp only [List.getD_eq_getElem?_getD]
    rw [List.getElem?_take_of_lt (by omega)]
  · rw [if_neg hc, if_neg (by omega)]

/-- A fill writes BUF and BUFLEN only (R132). -/
theorem fillBuf_frame (b : B3C) (xs : List Byte) : ∃ buf bufLen,
    fillBuf b xs = { b with buf := buf, bufLen := bufLen } := ⟨_, _, rfl⟩

/-- A machine with the buffer that a fill leaves, and nothing else changed, is the filled one. -/
theorem fillBuf_ext {b c : B3C} {xs : List Byte}
    (hc : ∃ buf bufLen, c = { b with buf := buf, bufLen := bufLen })
    (hl : c.bufLen.val = b.bufLen.val + min (64 - b.bufLen.val) xs.length)
    (hb : ∀ j (h : j < 64), c.buf[j] =
      if b.bufLen.val ≤ j ∧ j < b.bufLen.val + xs.length then xs.getD (j - b.bufLen.val) 0 else b.buf[j]) :
    c = fillBuf b xs := by
  have h1 : c.buf = (fillBuf b xs).buf := by
    apply Vector.ext
    intro j hj
    rw [hb j hj, getElem_fillBuf]
  have h2 : c.bufLen = (fillBuf b xs).bufLen := Fin.ext (hl.trans (fillBuf_bufLen_val b xs).symm)
  obtain ⟨buf, bufLen, rfl⟩ := hc
  subst h1 h2
  rfl

@[simp] theorem fillBuf_nil (b : B3C) : fillBuf b [] = b := by
  symm
  refine fillBuf_ext ⟨_, _, rfl⟩ (by simp) fun j h => ?_
  rw [if_neg (by simp)]

theorem makeRoom_of_ne {b : B3C} (h : b.bufLen.val ≠ 64) : makeRoom b = b := by simp [makeRoom, h]

theorem makeRoom_of_full {b : B3C} (h : b.bufLen.val = 64) : makeRoom b = compressBlock b := by simp [makeRoom, h]

theorem makeRoom_bufLen_lt (b : B3C) : (makeRoom b).bufLen.val < 64 := by
  have := b.bufLen.isLt
  by_cases h : b.bufLen.val = 64
  · rw [makeRoom_of_full h]; exact Nat.zero_lt_succ _
  · rw [makeRoom_of_ne h]; omega

/-- ChunkUpdate writes CSCV, BLOCKS, BUF and BUFLEN only (R131, R132). -/
theorem pushByte_frame (b : B3C) (x : Byte) : ∃ cscv blocks buf bufLen,
    pushByte b x = { b with cscv := cscv, blocks := blocks, buf := buf, bufLen := bufLen } := by
  by_cases h : b.bufLen.val = 64
  · rw [pushByte, makeRoom_of_full h]; exact ⟨_, _, _, _, rfl⟩
  · rw [pushByte, makeRoom_of_ne h]; exact ⟨_, _, _, _, rfl⟩

theorem foldl_pushByte_frame (xs : List Byte) (b : B3C) : ∃ cscv blocks buf bufLen,
    xs.foldl pushByte b = { b with cscv := cscv, blocks := blocks, buf := buf, bufLen := bufLen } := by
  induction xs generalizing b with
  | nil => exact ⟨_, _, _, _, rfl⟩
  | cons x xs ih =>
    obtain ⟨c, k, u, l, h⟩ := pushByte_frame b x
    obtain ⟨c', k', u', l', h'⟩ := ih (pushByte b x)
    rw [List.foldl_cons, h', h]
    exact ⟨_, _, _, _, rfl⟩

/-! ## Filling is byte by byte -/

/-- Only the bytes that fit are stored (R132). -/
theorem fillBuf_take (b : B3C) (xs : List Byte) : fillBuf b xs = fillBuf b (xs.take (bufTake b xs.length)) := by
  have hl := b.bufLen.isLt
  refine fillBuf_ext ⟨_, _, rfl⟩ ?_ fun j h => ?_
  · rw [fillBuf_bufLen_val, List.length_take, bufTake]; omega
  rw [getElem_fillBuf, List.length_take, bufTake]
  by_cases hc : b.bufLen.val ≤ j ∧ j < b.bufLen.val + xs.length
  · rw [if_pos hc, if_pos (by omega)]
    simp only [List.getD_eq_getElem?_getD]
    rw [List.getElem?_take_of_lt (by omega)]
  · rw [if_neg hc, if_neg (by omega)]

theorem fillBuf_cons (b : B3C) (x : Byte) (xs : List Byte) (h : b.bufLen.val + (xs.length + 1) ≤ 64) :
    fillBuf b (x :: xs) = fillBuf (fillBuf b [x]) xs := by
  have hl : (fillBuf b [x]).bufLen.val = b.bufLen.val + 1 := by
    rw [fillBuf_bufLen_val, List.length_singleton]; omega
  symm
  have hf : ∃ buf bufLen, fillBuf (fillBuf b [x]) xs = { b with buf := buf, bufLen := bufLen } := by
    obtain ⟨u, l, h1⟩ := fillBuf_frame b [x]
    obtain ⟨u', l', h2⟩ := fillBuf_frame (fillBuf b [x]) xs
    exact ⟨u', l', by rw [h2, h1]⟩
  refine fillBuf_ext hf ?_ fun j hj => ?_
  · rw [fillBuf_bufLen_val, hl, List.length_cons]; omega
  · rw [getElem_fillBuf, getElem_fillBuf, hl]
    simp only [List.length_cons, List.length_nil]
    by_cases hj1 : j < b.bufLen.val
    · rw [if_neg (by omega), if_neg (by omega), if_neg (by omega)]
    · by_cases hj2 : j = b.bufLen.val
      · subst hj2
        rw [if_neg (by omega), if_pos (by omega), if_pos (by omega)]
        simp
      · by_cases hj3 : j < b.bufLen.val + (xs.length + 1)
        · rw [if_pos (by omega), if_pos (by omega)]
          have : j - b.bufLen.val = (j - (b.bufLen.val + 1)) + 1 := by omega
          rw [this, List.getD_cons_succ]
        · rw [if_neg (by omega), if_neg (by omega), if_neg (by omega)]

theorem fillBuf_eq_foldl (b : B3C) (xs : List Byte) (hx : b.bufLen.val < 64) (h : b.bufLen.val + xs.length ≤ 64) :
    fillBuf b xs = xs.foldl pushByte b := by
  induction xs generalizing b with
  | nil => simp
  | cons x xs ih =>
    rw [List.length_cons] at h
    rw [fillBuf_cons b x xs h, List.foldl_cons]
    have hp : pushByte b x = fillBuf b [x] := by rw [pushByte, makeRoom_of_ne (by omega)]
    have hl : (fillBuf b [x]).bufLen.val = b.bufLen.val + 1 := by
      rw [fillBuf_bufLen_val, List.length_singleton]; omega
    rw [hp]
    rcases Nat.lt_or_ge (b.bufLen.val + 1) 64 with hlt | hge
    · exact ih _ (by omega) (by omega)
    · have : xs = [] := List.eq_nil_of_length_eq_zero (by omega)
      subst this
      simp

theorem fillBuf_makeRoom_eq_foldl (b : B3C) (xs : List Byte) (h : (makeRoom b).bufLen.val + xs.length ≤ 64)
    (hne : xs ≠ []) : fillBuf (makeRoom b) xs = xs.foldl pushByte b := by
  obtain ⟨x, xs, rfl⟩ := List.exists_cons_of_ne_nil hne
  rw [fillBuf_eq_foldl _ _ (makeRoom_bufLen_lt b) h, List.foldl_cons, List.foldl_cons]
  congr 1
  rw [pushByte, makeRoom_of_ne (b := makeRoom b) (by have := makeRoom_bufLen_lt b; omega), pushByte]

/-- ChunkUpdate is the fold of `pushByte` over its bytes (R132). -/
theorem chunkUpdateLoop_eq_foldl (fuel : Nat) (xs : List Byte) (b : B3C) (h : xs.length ≤ fuel) :
    chunkUpdateLoop fuel xs b = xs.foldl pushByte b := by
  induction fuel generalizing xs b with
  | zero =>
    have : xs = [] := List.eq_nil_of_length_eq_zero (by omega)
    subst this; rfl
  | succ fuel ih =>
    cases xs with
    | nil => rfl
    | cons x xs =>
      have hlt := makeRoom_bufLen_lt b
      have ht : 1 ≤ bufTake (makeRoom b) (x :: xs).length := by simp [bufTake]; omega
      have hle : bufTake (makeRoom b) (x :: xs).length ≤ (x :: xs).length := by simp [bufTake]
      have hfit : (makeRoom b).bufLen.val + bufTake (makeRoom b) (x :: xs).length ≤ 64 := by
        unfold bufTake; omega
      simp only [chunkUpdateLoop]
      have hne : (x :: xs).take (bufTake (makeRoom b) (x :: xs).length) ≠ [] := by
        intro hn
        have := congrArg List.length hn
        rw [List.length_take, List.length_nil] at this
        omega
      rw [ih _ _ (by rw [List.length_drop]; omega), fillBuf_take,
        fillBuf_makeRoom_eq_foldl _ _ (by rw [List.length_take]; omega) hne, ← List.foldl_append,
        List.take_append_drop]

theorem chunkUpdate_eq_foldl (xs : List Byte) (b : B3C) : chunkUpdate xs b = xs.foldl pushByte b :=
  chunkUpdateLoop_eq_foldl _ _ _ (Nat.le_refl _)

/-! ## One byte -/

/-- A chunk that is not full grows by one byte, and BLOCKS does not wrap (R132, R140). -/
theorem chunkLen_pushByte (b : B3C) (x : Byte) (h : chunkLen b < 1024) : chunkLen (pushByte b x) = chunkLen b + 1 := by
  have hb := b.blocks.isLt
  have hl := b.bufLen.isLt
  unfold chunkLen at *
  by_cases hf : b.bufLen.val = 64
  · have hv : (b.blocks + 1).val = b.blocks.val + 1 := by
      rw [Fin.val_add]
      exact Nat.mod_eq_of_lt (by simp; omega)
    rw [pushByte, makeRoom_of_full hf, fillBuf_bufLen_val]
    change 64 * (b.blocks + 1).val + _ = _
    rw [hv, compressBlock_bufLen]
    simp; omega
  · rw [pushByte, makeRoom_of_ne hf, fillBuf_bufLen_val]
    change 64 * b.blocks.val + _ = _
    simp; omega

/-! ## At most one block of bytes -/

/-- Bytes that fit the buffer are stored, and nothing is compressed (R132). -/
theorem foldl_pushByte_within (b : B3C) (xs : List Byte) (h : b.bufLen.val + xs.length ≤ 64) :
    xs.foldl pushByte b = fillBuf b xs := by
  rcases Nat.lt_or_ge b.bufLen.val 64 with hlt | hge
  · exact (fillBuf_eq_foldl b xs hlt h).symm
  · have : xs = [] := List.eq_nil_of_length_eq_zero (by omega)
    subst this
    simp

/-- The buffer filled with the first of the bytes is full. -/
theorem fillBuf_full (b : B3C) (xs : List Byte) (h : 64 < b.bufLen.val + xs.length) :
    (fillBuf b (xs.take (64 - b.bufLen.val))).bufLen.val = 64 := by
  have := b.bufLen.isLt
  rw [fillBuf_bufLen_val, List.length_take]
  omega

/-- Bytes that do not fit the buffer, of at most one block: the filled buffer is compressed once, and the rest goes into a
cleared one (R131, R132). -/
theorem foldl_pushByte_across (b : B3C) (xs : List Byte) (h : 64 < b.bufLen.val + xs.length) (hn : xs.length ≤ 64) :
    xs.foldl pushByte b =
      fillBuf (compressBlock (fillBuf b (xs.take (64 - b.bufLen.val)))) (xs.drop (64 - b.bufLen.val)) := by
  have := b.bufLen.isLt
  have hf := fillBuf_full b xs h
  have hne : xs.drop (64 - b.bufLen.val) ≠ [] := by
    intro hd
    have := congrArg List.length hd
    rw [List.length_drop, List.length_nil] at this
    omega
  conv_lhs => rw [← List.take_append_drop (64 - b.bufLen.val) xs, List.foldl_append,
    foldl_pushByte_within b (xs.take (64 - b.bufLen.val)) (by rw [List.length_take]; omega)]
  rw [← fillBuf_makeRoom_eq_foldl _ _ (by rw [makeRoom_of_full hf, compressBlock_bufLen, List.length_drop]; simp; omega) hne,
    makeRoom_of_full hf]

end Sys2Proof.Machine
end

