-- ==== Sys2Proof/Laws/Tree.lean ====
section
/-! SUPPORT. What a chunk close can do, said once (42_tree.md R152, R153, R155), and what RootFold returns (R156). -/

namespace Sys2Proof.Machine

/-- The CV in hand after `k` merges that start at a given DEPTH: the newest entry first (R152). -/
def mergeN (b : B3C) (depth : Nat) (cv : CV) : Nat → CV
  | 0 => cv
  | k + 1 => parentCV b (stackEntry b (depth - 1 - k)) (mergeN b depth cv k)

theorem mergeN_succ_left (b : B3C) (d : Nat) (cv : CV) (k : Nat) :
    mergeN b (d + 1) cv (k + 1) = mergeN b d (parentCV b (stackEntry b d) cv) k := by
  induction k with
  | zero => simp [mergeN]
  | succ k ih =>
    rw [mergeN, ih, mergeN]
    congr 2
    omega

/-- The merges of a close: exactly as many as `t` has low-order zero bits, when there are as many entries (R153). -/
theorem mergeLoop_eq_some (b : B3C) (fuel t depth : Nat) (cv : CV) (h : tzUpTo fuel t ≤ depth) :
    mergeLoop b fuel t depth cv = some (mergeN b depth cv (tzUpTo fuel t), depth - tzUpTo fuel t) := by
  induction fuel generalizing t depth cv with
  | zero => rfl
  | succ fuel ih =>
    by_cases he : t % 2 = 0
    · rw [tzUpTo_even _ _ he] at h ⊢
      cases depth with
      | zero => omega
      | succ d =>
        unfold mergeLoop
        rw [if_pos he]
        change mergeLoop b fuel (t / 2) d (parentCV b (stackEntry b d) cv) = _
        rw [ih _ _ _ (by omega), mergeN_succ_left]
        congr 2
        omega
    · unfold mergeLoop
      rw [tzUpTo_odd _ _ (by omega), if_neg he]
      rfl

/-- Without as many entries there is a merge that finds none. -/
theorem mergeLoop_eq_none (b : B3C) (fuel t depth : Nat) (cv : CV) (h : depth < tzUpTo fuel t) :
    mergeLoop b fuel t depth cv = none := by
  induction fuel generalizing t depth cv with
  | zero => simp [tzUpTo] at h
  | succ fuel ih =>
    by_cases he : t % 2 = 0
    · rw [tzUpTo_even _ _ he] at h
      unfold mergeLoop
      rw [if_pos he]
      cases depth with
      | zero => rfl
      | succ d => exact ih _ _ _ (by omega)
    · rw [tzUpTo_odd _ _ (by omega)] at h
      omega

/-- The machine after a close that makes `k` merges (R152). -/
def closed (b : B3C) (k : Nat) : B3C :=
  chunkReset { pushCV b (b.depth.val - k) (mergeN b b.depth.val (nodeCV (chunkNode b)) k) with ccnt := b.ccnt + 1 }

theorem chunkClose_eq_some (b : B3C) (h : tz (b.ccnt.toNat + 1) ≤ b.depth.val) :
    chunkClose b = some (closed b (tz (b.ccnt.toNat + 1))) := by
  rw [chunkClose, mergeLoop_eq_some _ _ _ _ _ h]
  rfl

theorem chunkClose_eq_none (b : B3C) (h : b.depth.val < tz (b.ccnt.toNat + 1)) : chunkClose b = none := by
  rw [chunkClose, mergeLoop_eq_none _ _ _ _ _ h]

/-- What a checked close can do, said once (R155, R152). -/
theorem closeChecked_cases (b : B3C) :
    (b.ccnt.toNat = 2 ^ 64 - 1 ∧ closeChecked b = .error (.error .ctrOverflow)) ∨
    (b.ccnt.toNat ≠ 2 ^ 64 - 1 ∧ 54 ≤ b.depth.val - tz (b.ccnt.toNat + 1) ∧
      closeChecked b = .error (.error .stackOverflow)) ∨
    (b.ccnt.toNat ≠ 2 ^ 64 - 1 ∧ b.depth.val < tz (b.ccnt.toNat + 1) ∧
      closeChecked b = .error (.fault .mergeWithoutEntry)) ∨
    (b.ccnt.toNat ≠ 2 ^ 64 - 1 ∧ b.depth.val - tz (b.ccnt.toNat + 1) < 54 ∧ tz (b.ccnt.toNat + 1) ≤ b.depth.val ∧
      closeChecked b = .ok (closed b (tz (b.ccnt.toNat + 1)))) := by
  unfold closeChecked
  by_cases h1 : b.ccnt.toNat = 2 ^ 64 - 1
  · exact .inl ⟨h1, by rw [if_pos h1]⟩
  · rw [if_neg h1]
    by_cases h2 : b.depth.val - tz (b.ccnt.toNat + 1) ≥ 54
    · exact .inr (.inl ⟨h1, h2, by rw [if_pos h2]⟩)
    · rw [if_neg h2]
      by_cases h3 : b.depth.val < tz (b.ccnt.toNat + 1)
      · exact .inr (.inr (.inl ⟨h1, h3, by rw [chunkClose_eq_none b h3]⟩))
      · exact .inr (.inr (.inr ⟨h1, by omega, by omega, by rw [chunkClose_eq_some b (by omega)]⟩))

theorem closeChecked_ok {b c : B3C} (h : closeChecked b = .ok c) :
    b.ccnt.toNat ≠ 2 ^ 64 - 1 ∧ b.depth.val - tz (b.ccnt.toNat + 1) < 54 ∧ tz (b.ccnt.toNat + 1) ≤ b.depth.val ∧
      c = closed b (tz (b.ccnt.toNat + 1)) := by
  rcases closeChecked_cases b with ⟨_, e⟩ | ⟨_, _, e⟩ | ⟨_, _, e⟩ | ⟨h1, h2, h3, e⟩ <;> rw [e] at h <;> cases h
  exact ⟨h1, h2, h3, rfl⟩

/-! ## The fields of a closed chunk -/

@[simp] theorem closed_cscv (b : B3C) (k : Nat) : (closed b k).cscv = b.bk := by simp [closed]
@[simp] theorem closed_blocks (b : B3C) (k : Nat) : (closed b k).blocks = 0 := by simp [closed]
@[simp] theorem closed_buf (b : B3C) (k : Nat) : (closed b k).buf = zero64 := by simp [closed]
@[simp] theorem closed_bufLen (b : B3C) (k : Nat) : (closed b k).bufLen = 0 := by simp [closed]
@[simp] theorem closed_ccnt (b : B3C) (k : Nat) : (closed b k).ccnt = b.ccnt + 1 := by simp [closed]
@[simp] theorem closed_stack (b : B3C) (k : Nat) : (closed b k).stack =
    b.stack.setIfInBounds (b.depth.val - k) (mergeN b b.depth.val (nodeCV (chunkNode b)) k) := by
  simp [closed]

@[simp] theorem closed_phase (b : B3C) (k : Nat) : (closed b k).phase = b.phase := by simp [closed]
@[simp] theorem closed_mode (b : B3C) (k : Nat) : (closed b k).mode = b.mode := by simp [closed]
@[simp] theorem closed_bk (b : B3C) (k : Nat) : (closed b k).bk = b.bk := by simp [closed]
@[simp] theorem closed_bf (b : B3C) (k : Nat) : (closed b k).bf = b.bf := by simp [closed]
@[simp] theorem closed_rCv (b : B3C) (k : Nat) : (closed b k).rCv = b.rCv := by simp [closed]
@[simp] theorem closed_rBlk (b : B3C) (k : Nat) : (closed b k).rBlk = b.rBlk := by simp [closed]
@[simp] theorem closed_rBlen (b : B3C) (k : Nat) : (closed b k).rBlen = b.rBlen := by simp [closed]
@[simp] theorem closed_rFlg (b : B3C) (k : Nat) : (closed b k).rFlg = b.rFlg := by simp [closed]
@[simp] theorem closed_xpos (b : B3C) (k : Nat) : (closed b k).xpos = b.xpos := by simp [closed]
@[simp] theorem closed_busy (b : B3C) (k : Nat) : (closed b k).busy = b.busy := by simp [closed]
@[simp] theorem closed_pend (b : B3C) (k : Nat) : (closed b k).pend = b.pend := by simp [closed]
@[simp] theorem closed_err (b : B3C) (k : Nat) : (closed b k).err = b.err := by simp [closed]
@[simp] theorem closed_errCode (b : B3C) (k : Nat) : (closed b k).errCode = b.errCode := by simp [closed]
@[simp] theorem closed_key (b : B3C) (k : Nat) : (closed b k).key = b.key := by simp [closed]
@[simp] theorem closed_cv (b : B3C) (k : Nat) : (closed b k).cv = b.cv := by simp [closed]
@[simp] theorem closed_din (b : B3C) (k : Nat) : (closed b k).din = b.din := by simp [closed]
@[simp] theorem closed_dout (b : B3C) (k : Nat) : (closed b k).dout = b.dout := by simp [closed]
@[simp] theorem closed_cctrLo (b : B3C) (k : Nat) : (closed b k).cctrLo = b.cctrLo := by simp [closed]
@[simp] theorem closed_cctrHi (b : B3C) (k : Nat) : (closed b k).cctrHi = b.cctrHi := by simp [closed]
@[simp] theorem closed_cparam (b : B3C) (k : Nat) : (closed b k).cparam = b.cparam := by simp [closed]
@[simp] theorem closed_seekLo (b : B3C) (k : Nat) : (closed b k).seekLo = b.seekLo := by simp [closed]
@[simp] theorem closed_seekHi (b : B3C) (k : Nat) : (closed b k).seekHi = b.seekHi := by simp [closed]

theorem closed_depth (b : B3C) (k : Nat) (h : b.depth.val - k < 54) :
    (closed b k).depth.val = b.depth.val - k + 1 := by
  change (b.depth.val - k + 1) % 55 = _
  omega

theorem ccnt_succ_toNat {b : B3C} (h : b.ccnt.toNat ≠ 2 ^ 64 - 1) : (b.ccnt + 1).toNat = b.ccnt.toNat + 1 := by
  have := b.ccnt.isLt
  rw [BitVec.toNat_add]
  change (b.ccnt.toNat + 1) % 2 ^ 64 = _
  omega

/-- A close writes the accumulator, CCNT, STACK and DEPTH only (R152). -/
theorem closed_frame (b : B3C) (k : Nat) : ∃ cscv ccnt blocks buf bufLen stack depth,
    closed b k = { b with cscv := cscv, ccnt := ccnt, blocks := blocks, buf := buf, bufLen := bufLen, stack := stack, depth := depth } :=
  ⟨_, _, _, _, _, _, _, rfl⟩

/-! ## RootFold -/

/-- Every Node of the fold but the first is a parent (R156). -/
theorem foldFrom_succ_isParent (b : B3C) (d : Nat) (n : Node) :
    ∃ cv, foldFrom b (d + 1) n = parentNode b (stackEntry b 0) cv := by
  induction d generalizing n with
  | zero => exact ⟨_, rfl⟩
  | succ d ih => exact ih _

end Sys2Proof.Machine
end

