-- ==== Sys2Proof/Laws/Absorb.lean ====
section
/-! SUPPORT. ABSORB one byte at a time (44_hasher.md R183): the loop over a list of bytes is the fold of `absorbByte`, so
facts about it are proved by induction on the bytes. -/

namespace Sys2Proof.Machine

/-- One byte absorbed: a full chunk is closed first, then the byte goes into the current chunk. -/
def absorbByte (b : B3C) (x : Byte) : Except Stop B3C :=
  match closeIfFull b with
  | .error e => .error e
  | .ok c => .ok (pushByte c x)

theorem closeIfFull_of_ne {b : B3C} (h : chunkLen b ≠ 1024) : closeIfFull b = .ok b := by simp [closeIfFull, h]

theorem closeIfFull_of_full {b : B3C} (h : chunkLen b = 1024) : closeIfFull b = closeChecked b := by
  simp [closeIfFull, h]

theorem chunkLen_le (b : B3C) : chunkLen b ≤ 1024 := by
  have := b.blocks.isLt
  have := b.bufLen.isLt
  unfold chunkLen
  omega

theorem closeIfFull_chunkLen {b c : B3C} (h : closeIfFull b = .ok c) : chunkLen c < 1024 := by
  have hle := chunkLen_le b
  by_cases hf : chunkLen b = 1024
  · rw [closeIfFull_of_full hf] at h
    obtain ⟨_, _, _, rfl⟩ := closeChecked_ok h
    simp [chunkLen]
  · rw [closeIfFull_of_ne hf] at h
    cases h
    omega

theorem foldlM_absorbByte_of_fits (xs : List Byte) (b : B3C) (h : chunkLen b + xs.length ≤ 1024) :
    xs.foldlM absorbByte b = .ok (xs.foldl pushByte b) := by
  induction xs generalizing b with
  | nil => rfl
  | cons x xs ih =>
    rw [List.length_cons] at h
    have hb : absorbByte b x = .ok (pushByte b x) := by rw [absorbByte, closeIfFull_of_ne (by omega)]
    rw [List.foldlM_cons, hb, List.foldl_cons, ← ih _ (by rw [chunkLen_pushByte _ _ (by omega)]; omega)]
    rfl

theorem closeIfFull_idem {b c : B3C} (h : closeIfFull b = .ok c) (xs : List Byte) (hne : xs ≠ []) :
    xs.foldlM absorbByte b = xs.foldlM absorbByte c := by
  obtain ⟨x, xs, rfl⟩ := List.exists_cons_of_ne_nil hne
  have hc := closeIfFull_chunkLen h
  rw [List.foldlM_cons, List.foldlM_cons, absorbByte, absorbByte, h, closeIfFull_of_ne (by omega)]

theorem foldlM_absorbByte_error {b : B3C} {e : Stop} (h : closeIfFull b = .error e) (xs : List Byte) (hne : xs ≠ []) :
    xs.foldlM absorbByte b = .error e := by
  obtain ⟨x, xs, rfl⟩ := List.exists_cons_of_ne_nil hne
  rw [List.foldlM_cons, absorbByte, h]
  rfl

/-- ABSORB's loop is the fold of `absorbByte` over its bytes (R183). -/
theorem absorbLoop_eq_foldlM (fuel : Nat) (xs : List Byte) (b : B3C) (h : xs.length ≤ fuel) :
    absorbLoop fuel xs b = xs.foldlM absorbByte b := by
  induction fuel generalizing xs b with
  | zero =>
    have : xs = [] := List.eq_nil_of_length_eq_zero (by omega)
    subst this; rfl
  | succ fuel ih =>
    cases xs with
    | nil => rfl
    | cons x xs =>
      unfold absorbLoop
      cases hc : closeIfFull b with
      | error e => rw [foldlM_absorbByte_error hc _ (by simp)]
      | ok c =>
        have hlt := closeIfFull_chunkLen hc
        have ht : 1 ≤ chunkTake c (x :: xs).length := by simp [chunkTake]; omega
        have hle : chunkTake c (x :: xs).length ≤ 1024 - chunkLen c := Nat.min_le_left _ _
        simp only
        rw [ih _ _ (by rw [List.length_drop]; omega), closeIfFull_idem hc _ (by simp), chunkUpdate_eq_foldl]
        conv_rhs => rw [← List.take_append_drop (chunkTake c (x :: xs).length) (x :: xs)]
        rw [List.foldlM_append, foldlM_absorbByte_of_fits ((x :: xs).take _) c (by rw [List.length_take]; omega)]
        rfl

theorem absorbBytes_eq_foldlM (xs : List Byte) (b : B3C) : absorbBytes xs b = xs.foldlM absorbByte b :=
  absorbLoop_eq_foldlM _ _ _ (Nat.le_refl _)

/-- An input absorbed in two pieces (R188). -/
theorem absorbBytes_append (xs ys : List Byte) (b : B3C) :
    absorbBytes (xs ++ ys) b = (absorbBytes xs b >>= fun c => absorbBytes ys c) := by
  simp only [absorbBytes_eq_foldlM, List.foldlM_append]

@[simp] theorem absorbBytes_nil (b : B3C) : absorbBytes [] b = .ok b := rfl

theorem absorbBytes_cons (x : Byte) (xs : List Byte) (b : B3C) :
    absorbBytes (x :: xs) b = (absorbByte b x >>= fun c => absorbBytes xs c) := by
  simp only [absorbBytes_eq_foldlM, List.foldlM_cons]

/-- What one byte can do, said once (R183). -/
theorem absorbByte_cases {b c : B3C} {x : Byte} (h : absorbByte b x = .ok c) :
    (chunkLen b ≠ 1024 ∧ c = pushByte b x) ∨
    (chunkLen b = 1024 ∧ b.ccnt.toNat ≠ 2 ^ 64 - 1 ∧ b.depth.val - tz (b.ccnt.toNat + 1) < 54 ∧
      tz (b.ccnt.toNat + 1) ≤ b.depth.val ∧ c = pushByte (closed b (tz (b.ccnt.toNat + 1))) x) := by
  unfold absorbByte at h
  by_cases hf : chunkLen b = 1024
  · rw [closeIfFull_of_full hf] at h
    cases hc : closeChecked b with
    | error e => rw [hc] at h; cases h
    | ok d =>
      rw [hc] at h
      cases h
      obtain ⟨h1, h2, h3, rfl⟩ := closeChecked_ok hc
      exact .inr ⟨hf, h1, h2, h3, rfl⟩
  · rw [closeIfFull_of_ne hf] at h
    cases h
    exact .inl ⟨hf, rfl⟩

/-! ## At most one block of bytes -/

/-- Bytes that fit the current chunk (R183). -/
theorem absorbBytes_within (xs : List Byte) (b : B3C) (h : chunkLen b + xs.length ≤ 1024) :
    absorbBytes xs b = .ok (xs.foldl pushByte b) := by
  rw [absorbBytes_eq_foldlM, foldlM_absorbByte_of_fits xs b h]

/-- Bytes that do not fit the current chunk, of at most one block: the filled chunk is closed, and the rest goes into a
fresh one (R183, R154). -/
theorem absorbBytes_across (xs : List Byte) (b : B3C) (h : 1024 < chunkLen b + xs.length) (hn : xs.length ≤ 64) :
    absorbBytes xs b = match closeChecked (fillBuf b (xs.take (64 - b.bufLen.val))) with
      | .ok c => .ok (fillBuf c (xs.drop (64 - b.bufLen.val)))
      | .error e => .error e := by
  have hk := b.blocks.isLt
  have hl := b.bufLen.isLt
  unfold chunkLen at h
  have hf := fillBuf_full b xs (by omega)
  have hc : chunkLen (fillBuf b (xs.take (64 - b.bufLen.val))) = 1024 := by
    unfold chunkLen
    rw [hf]
    change 64 * b.blocks.val + 64 = 1024
    omega
  have hne : xs.drop (64 - b.bufLen.val) ≠ [] := by
    intro hd
    have := congrArg List.length hd
    rw [List.length_drop, List.length_nil] at this
    omega
  conv_lhs => rw [← List.take_append_drop (64 - b.bufLen.val) xs, absorbBytes_append,
    absorbBytes_within _ _ (by rw [List.length_take]; unfold chunkLen; omega),
    foldl_pushByte_within b (xs.take (64 - b.bufLen.val)) (by rw [List.length_take]; omega)]
  change absorbBytes _ _ = _
  rw [absorbBytes_eq_foldlM]
  cases hcl : closeChecked (fillBuf b (xs.take (64 - b.bufLen.val))) with
  | error e => rw [foldlM_absorbByte_error (by rw [closeIfFull_of_full hc, hcl]) _ hne]
  | ok c =>
    have hcf : closeIfFull (fillBuf b (xs.take (64 - b.bufLen.val))) = .ok c := by rw [closeIfFull_of_full hc, hcl]
    have hc0 : c.bufLen.val = 0 ∧ c.blocks.val = 0 := by
      obtain ⟨_, _, _, rfl⟩ := closeChecked_ok hcl
      exact ⟨rfl, rfl⟩
    rw [closeIfFull_idem hcf _ hne, foldlM_absorbByte_of_fits _ _ (by rw [List.length_drop]; unfold chunkLen; omega),
      foldl_pushByte_within _ _ (by rw [List.length_drop]; omega)]

/-! ## The frame of an input -/

theorem absorbByte_frame {b c : B3C} {x : Byte} (h : absorbByte b x = .ok c) :
    ∃ cscv ccnt blocks buf bufLen stack depth,
      c = { b with cscv := cscv, ccnt := ccnt, blocks := blocks, buf := buf, bufLen := bufLen, stack := stack, depth := depth } := by
  rcases absorbByte_cases h with ⟨_, rfl⟩ | ⟨_, _, _, _, rfl⟩
  · obtain ⟨_, _, _, _, e⟩ := pushByte_frame b x
    rw [e]
    exact ⟨_, _, _, _, _, _, _, rfl⟩
  · obtain ⟨_, _, _, _, e⟩ := pushByte_frame (closed b (tz (b.ccnt.toNat + 1))) x
    obtain ⟨_, _, _, _, _, _, _, e'⟩ := closed_frame b (tz (b.ccnt.toNat + 1))
    rw [e, e']
    exact ⟨_, _, _, _, _, _, _, rfl⟩

/-- ABSORB writes the accumulator, STACK and DEPTH only (R183). -/
theorem absorbBytes_frame {xs : List Byte} {b c : B3C} (h : absorbBytes xs b = .ok c) :
    ∃ cscv ccnt blocks buf bufLen stack depth,
      c = { b with cscv := cscv, ccnt := ccnt, blocks := blocks, buf := buf, bufLen := bufLen, stack := stack, depth := depth } := by
  induction xs generalizing b with
  | nil => cases h; exact ⟨_, _, _, _, _, _, _, rfl⟩
  | cons x xs ih =>
    rw [absorbBytes_cons] at h
    cases hb : absorbByte b x with
    | error e => rw [hb] at h; cases h
    | ok d =>
      rw [hb] at h
      obtain ⟨_, _, _, _, _, _, _, e⟩ := absorbByte_frame hb
      obtain ⟨_, _, _, _, _, _, _, e'⟩ := ih h
      rw [e', e]
      exact ⟨_, _, _, _, _, _, _, rfl⟩

end Sys2Proof.Machine
end

