-- ==== Sys2Proof/Laws/Compress.lean ====
section
/-! SUPPORT. The small lemmas of the compression function: G line by line (40_compress.md R102), rotation (00_scope.md R7),
and the operands of COMPRESS as numbers (10_state.md R42, R43). -/

namespace Sys2Proof.Machine

/-- `rotr` is rotation to the right (R7). -/
theorem rotr_eq_rotateRight (x : Word) (n : Nat) (h : n < 32) : rotr x n = x.rotateRight n := by
  rw [rotr, BitVec.rotateRight_def, Nat.mod_eq_of_lt h]

theorem getElem_set_fin {α : Type} (s : Vector α 16) (a e : Fin 16) (v : α) :
    (s.set a v)[e] = if a = e then v else s[e] := by
  simp only [Fin.getElem_fin, Vector.getElem_set, Fin.ext_iff]

/-- G as eight updates of the state, one a line (R102). -/
theorem g_lines (s : Block) (a b c d : Fin 16) (mx my : Word) : ∃ s1 s2 s3 s4 s5 s6 s7 : Block,
    s1 = s.set a (s[a] + s[b] + mx) ∧ s2 = s1.set d (rotr (s1[d] ^^^ s1[a]) 16) ∧ s3 = s2.set c (s2[c] + s2[d]) ∧
    s4 = s3.set b (rotr (s3[b] ^^^ s3[c]) 12) ∧ s5 = s4.set a (s4[a] + s4[b] + my) ∧
    s6 = s5.set d (rotr (s5[d] ^^^ s5[a]) 8) ∧ s7 = s6.set c (s6[c] + s6[d]) ∧
    g s a b c d mx my = s7.set b (rotr (s7[b] ^^^ s7[c]) 7) :=
  ⟨_, _, _, _, _, _, _, rfl, rfl, rfl, rfl, rfl, rfl, rfl, rfl⟩

/-- Word `i` of a permuted schedule (R104). -/
@[simp] theorem getElem_permute {α : Type} (m : Vector α 16) (i : Nat) (h : i < 16) :
    (permute m)[i] = m[msgPerm[i]] := by
  simp [permute]

theorem lo32_eq (t : U64) : lo32 t = BitVec.ofNat 32 t.toNat := by
  apply BitVec.eq_of_toNat_eq
  simp [lo32]

theorem hi32_eq (t : U64) : hi32 t = BitVec.ofNat 32 (t.toNat / 2 ^ 32) := by
  apply BitVec.eq_of_toNat_eq
  simp [hi32, Nat.shiftRight_eq_div_pow]

/-- Two Words side by side, as a number (R41, R42). -/
theorem toNat_append_word (hi lo : Word) : (hi ++ lo : U64).toNat = hi.toNat * 2 ^ 32 + lo.toNat := by
  rw [BitVec.toNat_append, ← Nat.shiftLeft_add_eq_or_of_lt lo.isLt, Nat.shiftLeft_eq]

theorem cctrOperand_eq (b : B3C) : cctrOperand b = BitVec.ofNat 64 (b.cctrHi.toNat * 2 ^ 32 + b.cctrLo.toNat) := by
  rw [← toNat_append_word, BitVec.ofNat_toNat, BitVec.setWidth_eq]
  rfl

theorem blenOperand_eq (b : B3C) : blenOperand b = BitVec.ofNat 8 (b.cparam.toNat % 256) := by
  apply BitVec.eq_of_toNat_eq
  simp [blenOperand, BitVec.extractLsb'_toNat]

theorem flagsOperand_eq (b : B3C) : flagsOperand b = BitVec.ofNat 8 (b.cparam.toNat / 256) := by
  apply BitVec.eq_of_toNat_eq
  simp [flagsOperand, BitVec.extractLsb'_toNat, Nat.shiftRight_eq_div_pow]

end Sys2Proof.Machine
end

