-- ==== Sys2Proof/Laws/Decode.lean ====
section
/-! SUPPORT. The command word's fields (R80) and what the decoder can answer with, said once (R81, R83). -/

namespace Sys2Proof

theorem opField_eq (w : Word) : opField w = w.toNat % 2 ^ 8 := by
  simp [opField, BitVec.extractLsb'_toNat]

theorem argField_eq (w : Word) : argField w = w.toNat / 2 ^ 8 % 2 ^ 8 := by
  simp [argField, BitVec.extractLsb'_toNat, Nat.shiftRight_eq_div_pow]

theorem rsvField_eq (w : Word) : rsvField w = w.toNat / 2 ^ 16 := by
  have := w.isLt
  simp only [rsvField, BitVec.extractLsb'_toNat, Nat.shiftRight_eq_div_pow]
  omega

/-- A word is its three fields (R80). -/
theorem word_eq_fields (w : Word) : w = BitVec.ofNat 32 (opField w + argField w * 2 ^ 8 + rsvField w * 2 ^ 16) := by
  apply BitVec.eq_of_toNat_eq
  have := w.isLt
  rw [opField_eq, argField_eq, rsvField_eq, BitVec.toNat_ofNat]
  omega

/-- The fields of a word that `commandWord` builds (R80, R88). -/
theorem fields_commandWord (op arg : Nat) (h1 : op < 256) (h2 : arg < 256) :
    opField (commandWord op arg) = op ∧ argField (commandWord op arg) = arg ∧ rsvField (commandWord op arg) = 0 := by
  rw [opField_eq, argField_eq, rsvField_eq, commandWord, BitVec.toNat_ofNat]
  omega

theorem number_of_ofNumber {n : Nat} {m : Mode} (h : Mode.ofNumber n = some m) : m.number = n := by
  unfold Mode.ofNumber at h
  repeat' split at h
  all_goals first | cases h; simp only [Mode.number, *] | cases h

theorem ofNumber_le {n : Nat} {m : Mode} (h : Mode.ofNumber n = some m) : n ≤ 3 := by
  rw [← number_of_ofNumber h]
  cases m <;> decide

/-- What the decoder can answer a legal word with (R81). -/
theorem decode_ok_cases {w : Word} {i : Instr} (h : decode w = .ok i) :
    rsvField w = 0 ∧
      ((opField w = 0 ∧ argField w = 0 ∧ i = .nop) ∨
       (opField w = 1 ∧ ∃ m, Mode.ofNumber (argField w) = some m ∧ i = .init m) ∨
       (opField w = 2 ∧ argField w ≤ 64 ∧ i = .absorb (argField w)) ∨
       (opField w = 3 ∧ argField w = 0 ∧ i = .finalize) ∨
       (opField w = 4 ∧ argField w ≤ 64 ∧ i = .xofRead (argField w)) ∨
       (opField w = 5 ∧ argField w = 0 ∧ i = .xofSeek) ∨
       (opField w = 6 ∧ argField w = 0 ∧ i = .compress)) := by
  simp only [decode, decodeBare, decodeMode, decodeCount] at h
  repeat' split at h
  all_goals cases h
  all_goals simp_all

end Sys2Proof
end

