-- ==== Sys2Proof/Laws/State.lean ====
section
/-! SUPPORT. One lemma per field and per named update of the state, true by rfl, so that no later proof unfolds a record
update: error entry (R223), the clearing of BUSY (R91), the reset input (R250), the host's accesses. -/

namespace Sys2Proof.Machine

/-! ## clearBusy -/

@[simp] theorem clearBusy_inputs (s : State) : (clearBusy s).inputs = s.inputs := rfl
@[simp] theorem clearBusy_reads (s : State) : (clearBusy s).reads = s.reads := rfl
@[simp] theorem clearBusy_owner (s : State) : (clearBusy s).owner = s.owner := rfl
@[simp] theorem clearBusy_freeCount (s : State) : (clearBusy s).freeCount = s.freeCount := rfl
@[simp] theorem clearBusy_b3c (s : State) : (clearBusy s).b3c = { s.b3c with busy := false } := rfl

/-! ## errorEntry and recordError -/

@[simp] theorem errorEntry_inputs (c : ErrCode) (s : State) : (errorEntry c s).inputs = s.inputs := rfl
@[simp] theorem errorEntry_reads (c : ErrCode) (s : State) : (errorEntry c s).reads = s.reads := rfl
@[simp] theorem errorEntry_owner (c : ErrCode) (s : State) : (errorEntry c s).owner = s.owner := rfl
@[simp] theorem errorEntry_freeCount (c : ErrCode) (s : State) : (errorEntry c s).freeCount = s.freeCount := rfl

/-- What recording an error can do, said once. -/
theorem recordError_eq (c : ErrCode) (b : B3C) :
    recordError c b = { b with err := true, errCode := if b.err then b.errCode else c } := by
  rcases b with ⟨⟩
  rename_i err errCode _ _ _ _ _ _ _ _ _
  cases err <;> rfl

/-- What error entry can do to the machine, said once. -/
@[simp] theorem errorEntry_b3c (c : ErrCode) (s : State) :
    (errorEntry c s).b3c =
      { s.b3c with busy := false, err := true, errCode := if s.b3c.err then s.b3c.errCode else c } := by
  simp [errorEntry, recordError_eq]

/-! ## resetInput -/

@[simp] theorem resetInput_b3c (s : State) : (resetInput s).b3c = B3C.reset := rfl
@[simp] theorem resetInput_inputs (s : State) : (resetInput s).inputs = s.inputs := rfl
@[simp] theorem resetInput_reads (s : State) : (resetInput s).reads = s.reads := rfl
@[simp] theorem resetInput_owner (s : State) : (resetInput s).owner = s.owner := rfl
@[simp] theorem resetInput_freeCount (s : State) : (resetInput s).freeCount = s.freeCount := rfl

/-! ## The host's accesses -/

@[simp] theorem writeAccess_b3c (h : Nat) (r : Reg) (v : Word) (s : State) :
    (writeAccess h r v s).b3c = hostWrite r v s.b3c := rfl
@[simp] theorem writeAccess_inputs (h : Nat) (r : Reg) (v : Word) (s : State) :
    (writeAccess h r v s).inputs = s.inputs := rfl
@[simp] theorem writeAccess_reads (h : Nat) (r : Reg) (v : Word) (s : State) :
    (writeAccess h r v s).reads = s.reads := rfl
@[simp] theorem writeAccess_owner (h : Nat) (r : Reg) (v : Word) (s : State) :
    (writeAccess h r v s).owner = some h := rfl
@[simp] theorem writeAccess_freeCount (h : Nat) (r : Reg) (v : Word) (s : State) :
    (writeAccess h r v s).freeCount = s.freeCount := rfl

@[simp] theorem readAccess_b3c (h : Nat) (r : Reg) (s : State) : (readAccess h r s).b3c = s.b3c := rfl
@[simp] theorem readAccess_inputs (h : Nat) (r : Reg) (s : State) : (readAccess h r s).inputs = s.inputs := rfl
@[simp] theorem readAccess_owner (h : Nat) (r : Reg) (s : State) : (readAccess h r s).owner = some h := rfl
@[simp] theorem readAccess_reads (h : Nat) (r : Reg) (s : State) :
    (readAccess h r s).reads = hostReadValue r (Config.unspecifiedRead s.freeCount) s.b3c :: s.reads := rfl

end Sys2Proof.Machine
end

