-- ==== Sys2Proof/Laws/Exec.lean ====
section
/-! SUPPORT. A command is `commit` of a function of the machine (R91): its body. What `commit` and `exec` can do, said
once; the proofs cite these instead of unfolding a meaning. -/

namespace Sys2Proof.Machine

/-- The body of a command: its `Exec` on the machine's state (R91). -/
def execBody : Instr → B3C → Except Stop B3C
  | .nop, b => .ok b
  | .init m, b => .ok (initBody m b)
  | .absorb n, b => absorbBody n b
  | .finalize, b => finalizeBody b
  | .xofRead n, b => xofReadBody n b
  | .xofSeek, b => xofSeekBody b
  | .compress, b => compressBody b

/-- Every command is `commit` of its body. -/
theorem exec_eq_commit (i : Instr) (s : State) : exec i s = commit s (execBody i s.b3c) := by
  cases i <;> rfl

@[simp] theorem commit_ok (s : State) (b : B3C) : commit s (.ok b) = .next { s with b3c := b } := rfl
@[simp] theorem commit_error (s : State) (c : ErrCode) :
    commit s (.error (.error c)) = .next (errorEntry c s) := rfl
@[simp] theorem commit_fault (s : State) (f : Fault) : commit s (.error (.fault f)) = .fault f := rfl

/-- What a command can answer with: a commit of its body, an error entry, or its body's fault; never a refusal. -/
theorem exec_cases (i : Instr) (s : State) :
    (∃ b, execBody i s.b3c = .ok b ∧ exec i s = .next { s with b3c := b }) ∨
    (∃ c, execBody i s.b3c = .error (.error c) ∧ exec i s = .next (errorEntry c s)) ∨
    (∃ f, execBody i s.b3c = .error (.fault f) ∧ exec i s = .fault f) := by
  rw [exec_eq_commit]
  rcases execBody i s.b3c with (c | f) | b
  · exact .inr (.inl ⟨c, rfl, rfl⟩)
  · exact .inr (.inr ⟨f, rfl, rfl⟩)
  · exact .inl ⟨b, rfl, rfl⟩

/-- The next states of a command. -/
theorem exec_next_cases {i : Instr} {s t : State} (h : exec i s = .next t) :
    (∃ b, execBody i s.b3c = .ok b ∧ t = { s with b3c := b }) ∨
    (∃ c, execBody i s.b3c = .error (.error c) ∧ t = errorEntry c s) := by
  rcases exec_cases i s with ⟨b, hb, e⟩ | ⟨c, hc, e⟩ | ⟨f, _, e⟩ <;> rw [e] at h
  · exact .inl ⟨b, hb, by simpa using h.symm⟩
  · exact .inr ⟨c, hc, by simpa using h.symm⟩
  · cases h

theorem absorbByte_error {b : B3C} {x : Byte} {e : Stop} (h : absorbByte b x = .error e) :
    e = .error .ctrOverflow ∨ e = .error .stackOverflow ∨ e = .fault .mergeWithoutEntry := by
  unfold absorbByte at h
  by_cases hf : chunkLen b = 1024
  · rw [closeIfFull_of_full hf] at h
    rcases closeChecked_cases b with ⟨_, k⟩ | ⟨_, _, k⟩ | ⟨_, _, k⟩ | ⟨_, _, _, k⟩ <;> rw [k] at h <;> cases h
    · exact .inl rfl
    · exact .inr (.inl rfl)
    · exact .inr (.inr rfl)
  · rw [closeIfFull_of_ne hf] at h; cases h

/-- The errors an input can raise (R183). -/
theorem absorbBytes_error {xs : List Byte} {b : B3C} {e : Stop} (h : absorbBytes xs b = .error e) :
    e = .error .ctrOverflow ∨ e = .error .stackOverflow ∨ e = .fault .mergeWithoutEntry := by
  induction xs generalizing b with
  | nil => cases h
  | cons x xs ih =>
    rw [absorbBytes_cons] at h
    cases hb : absorbByte b x with
    | error e' => rw [hb] at h; cases h; exact absorbByte_error hb
    | ok c => rw [hb] at h; exact ih h

/-- A command that raises an error raises one of R221's, not NONE. -/
theorem execBody_error_ne_none {i : Instr} {b : B3C} {c : ErrCode} (h : execBody i b = .error (.error c)) :
    c ≠ .none := by
  rintro rfl
  cases i with
  | nop => cases h
  | init m => cases h
  | absorb n =>
    simp only [execBody, absorbBody] at h
    split at h
    · cases h
    · split at h
      · cases h
      · cases h
      · rcases absorbBytes_error h with k | k | k <;> cases k
  | finalize => simp only [execBody, finalizeBody] at h; split at h <;> cases h
  | xofRead n =>
    simp only [execBody, xofReadBody] at h
    split at h
    · cases h
    · split at h
      · cases h
      · split at h <;> cases h
  | xofSeek => simp only [execBody, xofSeekBody] at h; split at h <;> cases h
  | compress => simp only [execBody, compressBody] at h; split at h <;> cases h

/-- Only ABSORB can fault. -/
theorem execBody_fault {i : Instr} {b : B3C} {f : Fault} (h : execBody i b = .error (.fault f)) :
    ∃ n, i = .absorb n := by
  cases i with
  | nop => cases h
  | init m => cases h
  | absorb n => exact ⟨n, rfl⟩
  | finalize => simp only [execBody, finalizeBody] at h; split at h <;> cases h
  | xofRead n =>
    simp only [execBody, xofReadBody] at h
    split at h
    · cases h
    · split at h
      · cases h
      · split at h <;> cases h
  | xofSeek => simp only [execBody, xofSeekBody] at h; split at h <;> cases h
  | compress => simp only [execBody, compressBody] at h; split at h <;> cases h

/-! ## What a body that completes did -/

theorem absorbBody_ok {n : Nat} {b c : B3C} (h : absorbBody n b = .ok c) :
    n ≤ 64 ∧ b.phase = .absorbing ∧ absorbBytes (absorbOperand b n) b = .ok c := by
  unfold absorbBody at h
  split at h
  · cases h
  · split at h
    · cases h
    · cases h
    · exact ⟨by omega, by assumption, h⟩

theorem absorbBody_of_absorbing {n : Nat} {b : B3C} (hp : b.phase = .absorbing) (hn : n ≤ 64) :
    absorbBody n b = absorbBytes (absorbOperand b n) b := by
  unfold absorbBody
  rw [if_neg (by omega), hp]

theorem finalizeBody_ok {b c : B3C} (h : finalizeBody b = .ok c) :
    b.phase = .absorbing ∧ c = captureRoot (rootFold b) b := by
  unfold finalizeBody at h
  split at h
  · cases h
  · cases h
  · exact ⟨by assumption, by cases h; rfl⟩

theorem xofReadBody_ok {n : Nat} {b c : B3C} (h : xofReadBody n b = .ok c) :
    n ≤ 64 ∧ b.phase = .finalized ∧ b.xpos.toNat + n ≤ 2 ^ 64 - 1 ∧
      c = { b with dout := wordsOf (padTo64 (streamBytes b b.xpos.toNat n)), xpos := BitVec.ofNat 64 (b.xpos.toNat + n) } := by
  unfold xofReadBody at h
  split at h
  · cases h
  · split at h
    · cases h
    · split at h
      · cases h
      · next h1 h2 h3 =>
        injection h with h
        exact ⟨by omega, Decidable.not_not.mp h2, by omega, h.symm⟩

theorem xofSeekBody_ok {b c : B3C} (h : xofSeekBody b = .ok c) :
    b.phase = .finalized ∧ c = { b with xpos := seekOperand b } := by
  unfold xofSeekBody at h
  split at h
  · cases h
  · next h1 =>
    injection h with h
    exact ⟨Decidable.not_not.mp h1, h.symm⟩

theorem compressBody_ok {b c : B3C} (h : compressBody b = .ok c) :
    (blenOperand b).toNat ≤ 64 ∧
      c = { b with dout := compress b.cv b.din (cctrOperand b) (blenOperand b) (flagsOperand b) } := by
  unfold compressBody at h
  split at h
  · cases h
  · next h1 =>
    injection h with h
    exact ⟨by omega, h.symm⟩

/-- A command leaves the other agents' fields alone. -/
theorem exec_next_agents {i : Instr} {s t : State} (h : exec i s = .next t) :
    t.inputs = s.inputs ∧ t.reads = s.reads ∧ t.owner = s.owner ∧ t.freeCount = s.freeCount := by
  rcases exec_next_cases h with ⟨b, _, rfl⟩ | ⟨c, _, rfl⟩ <;> exact ⟨rfl, rfl, rfl, rfl⟩

end Sys2Proof.Machine
end

