-- ==== Sys2Proof/Laws/Graft.lean ====
section
/-! SUPPORT. ABSORB and RootFold read and write the accumulator, BK, BF and the stack only (41_chunk.md, 42_tree.md): put on
any other machine, these give the same result. One lemma for every statement that says what a command does not depend on. -/

namespace Sys2Proof.Machine

/-- The machine `r` with the accumulator, the base key and flags, and the stack of `b`. -/
def graft (r b : B3C) : B3C :=
  { r with
    bk := b.bk, bf := b.bf, cscv := b.cscv, ccnt := b.ccnt, blocks := b.blocks, buf := b.buf
    bufLen := b.bufLen, stack := b.stack, depth := b.depth }

@[simp] theorem graft_self (b : B3C) : graft b b = b := rfl

theorem chunkLen_graft (r b : B3C) : chunkLen (graft r b) = chunkLen b := rfl

theorem fillBuf_graft (r b : B3C) (xs : List Byte) : fillBuf (graft r b) xs = graft r (fillBuf b xs) := by
  simp only [fillBuf, graft, bufTake]

theorem compressBlock_graft (r b : B3C) : compressBlock (graft r b) = graft r (compressBlock b) := by
  simp only [compressBlock, graft, blockFlags, startFlag]
  rfl

theorem pushByte_graft (r b : B3C) (x : Byte) : pushByte (graft r b) x = graft r (pushByte b x) := by
  by_cases h : b.bufLen.val = 64
  · rw [pushByte, pushByte, makeRoom_of_full h, makeRoom_of_full (by simpa [graft] using h), compressBlock_graft,
      fillBuf_graft]
  · rw [pushByte, pushByte, makeRoom_of_ne h, makeRoom_of_ne (by simpa [graft] using h), fillBuf_graft]

theorem chunkNode_graft (r b : B3C) : chunkNode (graft r b) = chunkNode b := by
  simp only [chunkNode, graft, chunkEndFlags, startFlag]
  rfl

theorem parentNode_graft (r b : B3C) (x y : CV) : parentNode (graft r b) x y = parentNode b x y := by
  simp only [parentNode, graft, parentFlags]

theorem stackEntry_graft (r b : B3C) (d : Nat) : stackEntry (graft r b) d = stackEntry b d := by
  simp only [stackEntry, graft]

theorem mergeN_graft (r b : B3C) (depth : Nat) (cv : CV) (k : Nat) :
    mergeN (graft r b) depth cv k = mergeN b depth cv k := by
  induction k with
  | zero => rfl
  | succ k ih => rw [mergeN, mergeN, ih, parentCV, parentCV, parentNode_graft, stackEntry_graft]

theorem closed_graft (r b : B3C) (k : Nat) : closed (graft r b) k = graft r (closed b k) := by
  have h : (graft r b).depth = b.depth := rfl
  rw [closed, h, mergeN_graft, chunkNode_graft, closed]
  simp only [chunkReset, pushCV, graft]

theorem closeIfFull_graft (r b : B3C) : closeIfFull (graft r b) = (closeIfFull b).map (graft r) := by
  by_cases hf : chunkLen b = 1024
  · rw [closeIfFull_of_full hf, closeIfFull_of_full (by rw [chunkLen_graft, hf])]
    have hc : (graft r b).ccnt = b.ccnt := rfl
    have hd : (graft r b).depth = b.depth := rfl
    have h := closeChecked_cases (graft r b)
    rw [hc, hd, closed_graft] at h
    rcases closeChecked_cases b with ⟨p1, e⟩ | ⟨p1, p2, e⟩ | ⟨p1, p2, e⟩ | ⟨p1, p2, p3, e⟩ <;>
      rcases h with ⟨q1, e'⟩ | ⟨q1, q2, e'⟩ | ⟨q1, q2, e'⟩ | ⟨q1, q2, q3, e'⟩ <;>
      first
        | (rw [e, e']; rfl)
        | omega
  · rw [closeIfFull_of_ne hf, closeIfFull_of_ne (by rw [chunkLen_graft]; exact hf)]
    rfl

theorem absorbByte_graft (r b : B3C) (x : Byte) : absorbByte (graft r b) x = (absorbByte b x).map (graft r) := by
  rw [absorbByte, absorbByte, closeIfFull_graft]
  cases closeIfFull b with
  | error e => rfl
  | ok c => simp only [Except.map]; rw [pushByte_graft]

/-- The input's effect is the same on any machine with the same accumulator (R183). -/
theorem absorbBytes_graft (r : B3C) (xs : List Byte) (b : B3C) :
    absorbBytes xs (graft r b) = (absorbBytes xs b).map (graft r) := by
  induction xs generalizing b with
  | nil => rfl
  | cons x xs ih =>
    rw [absorbBytes_cons, absorbBytes_cons, absorbByte_graft]
    cases absorbByte b x with
    | error e => rfl
    | ok c => exact ih c

theorem foldFrom_graft (r b : B3C) (d : Nat) (n : Node) : foldFrom (graft r b) d n = foldFrom b d n := by
  induction d generalizing n with
  | zero => rfl
  | succ d ih => rw [foldFrom, ih, parentNode_graft, stackEntry_graft, foldFrom]

/-- RootFold returns the same Node on any machine with the same accumulator and stack (R156). -/
theorem rootFold_graft (r b : B3C) : rootFold (graft r b) = rootFold b := by
  have h : (graft r b).depth = b.depth := rfl
  rw [rootFold, rootFold, h, foldFrom_graft, chunkNode_graft]

/-- An input leaves everything else of the machine alone (R183). -/
theorem absorbBytes_eq_graft {xs : List Byte} {b c : B3C} (h : absorbBytes xs b = .ok c) : c = graft b c := by
  have hb := absorbBytes_graft b xs b
  rw [graft_self, h] at hb
  simpa [Except.map] using hb

end Sys2Proof.Machine
end

