-- ==== Sys2Proof/Laws/Host.lean ====
section
/-! SUPPORT. The host's accesses: which register an address reaches (R34, R60, R62), and what a host write can do to the
machine, said once (R254, R256). -/

namespace Sys2Proof.Machine

theorem regOffset_lt (r : Reg) : regOffset r < 256 := by
  cases r <;> simp only [regOffset] <;> omega

theorem regOffset_mod_four (r : Reg) : regOffset r % 4 = 0 := by
  cases r <;> simp only [regOffset] <;> omega

/-- The register at a register's own offset is that register (R34). -/
theorem regAtWord_regOffset (r : Reg) : regAtWord (regOffset r / 4) = some r := by
  revert r
  have hj : ∀ j : Fin 3, regAtWord (regOffset (.reserved j) / 4) = some (.reserved j) := by decide
  have hk : ∀ j : Fin 8, regAtWord (regOffset (.key j) / 4) = some (.key j) := by decide
  have hc : ∀ j : Fin 8, regAtWord (regOffset (.cv j) / 4) = some (.cv j) := by decide
  have hd : ∀ j : Fin 16, regAtWord (regOffset (.din j) / 4) = some (.din j) := by decide
  have ho : ∀ j : Fin 16, regAtWord (regOffset (.dout j) / 4) = some (.dout j) := by decide
  intro r
  cases r
  case reserved j => exact hj j
  case key j => exact hk j
  case cv j => exact hc j
  case din j => exact hd j
  case dout j => exact ho j
  all_goals decide

theorem b3cBase_mod_four : Config.b3cBase % 4 = 0 := by unfold Config.b3cBase; omega

/-- An access that starts in the window, or below it and runs into it, touches the window (R60; log 7). -/
theorem reachesWindow_of_touch {addr width : Nat} (h1 : addr < Config.b3cBase + 256)
    (h2 : Config.b3cBase ≤ addr ∨ Config.b3cBase < addr + width) : reachesWindow addr width = true := by
  simp only [reachesWindow, decide_eq_true_eq]
  omega

theorem reachesWindow_of_mem {addr width : Nat} (h1 : Config.b3cBase ≤ addr) (h2 : addr < Config.b3cBase + 256) :
    reachesWindow addr width = true := reachesWindow_of_touch h2 (.inl h1)

/-- A 4-byte access by the driving host at B3C_BASE + off(NAME) reaches NAME (R60, R88). -/
theorem resolveAccess_reg (owner : Option Nat) (host : Nat) (r : Reg) (h : mayDrive owner host = true) :
    resolveAccess owner host (Config.b3cBase + regOffset r) 4 = .register r := by
  have hlt := regOffset_lt r
  have hm := regOffset_mod_four r
  have hb := b3cBase_mod_four
  unfold resolveAccess
  rw [reachesWindow_of_mem (by omega) (by omega), if_neg (by simp), if_neg (by simp), if_neg (by omega), h,
    if_neg (by simp), Nat.add_sub_cancel_left, regAtWord_regOffset]

theorem memWrite_of_register {host addr width : Nat} {v : Word} {s : State} {r : Reg}
    (h : resolveAccess s.owner host addr width = .register r) : memWrite host addr width v s = .next (writeAccess host r v s) := by
  unfold memWrite; rw [h]

theorem memWrite_of_refused {host addr width : Nat} {v : Word} {s : State} {r : Refusal}
    (h : resolveAccess s.owner host addr width = .refused r) : memWrite host addr width v s = .refused r := by
  unfold memWrite; rw [h]

theorem memWrite_of_unanswered {host addr width : Nat} {v : Word} {s : State}
    (h : resolveAccess s.owner host addr width = .unanswered) : memWrite host addr width v s = .next s := by
  unfold memWrite; rw [h]

theorem memRead_of_register {host addr width : Nat} {s : State} {r : Reg}
    (h : resolveAccess s.owner host addr width = .register r) : memRead host addr width s = .next (readAccess host r s) := by
  unfold memRead; rw [h]

theorem memRead_of_refused {host addr width : Nat} {s : State} {r : Refusal}
    (h : resolveAccess s.owner host addr width = .refused r) : memRead host addr width s = .refused r := by
  unfold memRead; rw [h]

theorem memRead_of_unanswered {host addr width : Nat} {s : State}
    (h : resolveAccess s.owner host addr width = .unanswered) : memRead host addr width s = .next s := by
  unfold memRead; rw [h]

/-- What a host's bus write can answer with. -/
theorem memWrite_next_cases {host addr width : Nat} {v : Word} {s t : State}
    (h : memWrite host addr width v s = .next t) : t = s ∨ ∃ r, t = writeAccess host r v s := by
  unfold memWrite at h
  cases hr : resolveAccess s.owner host addr width with
  | unanswered => rw [hr] at h; injection h with h; exact .inl h.symm
  | refused r => rw [hr] at h; cases h
  | register r => rw [hr] at h; injection h with h; exact .inr ⟨r, h.symm⟩

/-- What a host's bus read can answer with. -/
theorem memRead_next_cases {host addr width : Nat} {s t : State}
    (h : memRead host addr width s = .next t) : t = s ∨ ∃ r, t = readAccess host r s := by
  unfold memRead at h
  cases hr : resolveAccess s.owner host addr width with
  | unanswered => rw [hr] at h; injection h with h; exact .inl h.symm
  | refused r => rw [hr] at h; cases h
  | register r => rw [hr] at h; injection h with h; exact .inr ⟨r, h.symm⟩

/-- What a host write can do to the machine, said once. -/
theorem hostWrite_cases (r : Reg) (v : Word) (b : B3C) :
    (b.busy = true ∧ hostWrite r v b = recordError .busyWrite b) ∨
    (b.busy = false ∧ r = .cmd ∧ b.err = true ∧ hostWrite r v b = b) ∨
    (b.busy = false ∧ r = .cmd ∧ b.err = false ∧ hostWrite r v b = { b with pend := v, busy := true }) ∨
    (b.busy = false ∧ r ≠ .cmd ∧ hostWrite r v b = storeReg r v b) := by
  unfold hostWrite
  cases hb : b.busy
  · by_cases hr : r = .cmd
    · cases he : b.err
      · exact .inr (.inr (.inl ⟨rfl, hr, rfl, by simp [hr, issueCommand, he]⟩))
      · exact .inr (.inl ⟨rfl, hr, rfl, by simp [hr, issueCommand, he]⟩)
    · exact .inr (.inr (.inr ⟨rfl, hr, by simp [hr]⟩))
  · exact .inl ⟨rfl, rfl⟩

/-- A stored register is an operand: nothing of the hash, DOUT, the handshake or the error status changes (R70). -/
theorem storeReg_frame (r : Reg) (v : Word) (b : B3C) : ∃ key cv din cctrLo cctrHi cparam seekLo seekHi,
    storeReg r v b = { b with key := key, cv := cv, din := din, cctrLo := cctrLo, cctrHi := cctrHi, cparam := cparam, seekLo := seekLo, seekHi := seekHi } := by
  cases r <;> exact ⟨_, _, _, _, _, _, _, _, rfl⟩

end Sys2Proof.Machine
end

