-- ==== Sys2Proof/Laws/Step.lean ====
section
/-! SUPPORT. What one step can do to the machine, said once: the core executes the pending word, a host write lands, the
reset lands, or the machine stays as it is. Every invariant and every whole-machine rule is proved from this. -/

namespace Sys2Proof.Machine

/-- A command that commits leaves the host operands, the handshake and the error status alone (R31, R91). -/
theorem execBody_frame {i : Instr} {b c : B3C} (h : execBody i b = .ok c) : SameOperands c b ∧ SameStatus c b := by
  cases i with
  | nop => cases h; simp [SameOperands, SameStatus]
  | init m => cases h; simp [SameOperands, SameStatus]
  | absorb n =>
    obtain ⟨_, _, ha⟩ := absorbBody_ok h
    obtain ⟨_, _, _, _, _, _, _, e⟩ := absorbBytes_frame ha
    rw [e]; simp [SameOperands, SameStatus]
  | finalize => obtain ⟨_, rfl⟩ := finalizeBody_ok h; simp [SameOperands, SameStatus]
  | xofRead n => obtain ⟨_, _, _, e⟩ := xofReadBody_ok h; rw [e]; simp [SameOperands, SameStatus]
  | xofSeek => obtain ⟨_, e⟩ := xofSeekBody_ok h; rw [e]; simp [SameOperands, SameStatus]
  | compress => obtain ⟨_, e⟩ := compressBody_ok h; rw [e]; simp [SameOperands, SameStatus]

@[simp] theorem eventStep_write (host addr width : Nat) (v : Word) (s : State) :
    eventStep (.write host addr width v) s = memWrite host addr width v s := rfl
@[simp] theorem eventStep_read (host addr width : Nat) (s : State) :
    eventStep (.read host addr width) s = memRead host addr width s := rfl
@[simp] theorem eventStep_coreTurn (s : State) : eventStep .coreTurn s = coreStep s := rfl
@[simp] theorem eventStep_reset (s : State) : eventStep .reset s = .next (resetInput s) := rfl

theorem step_of_inputs {s : State} {e : Event} {rest : List Event} (h : s.inputs = e :: rest) :
    step s = eventStep e { s with inputs := rest } := by rw [step, h]

/-- A host's write to a register, by the host that may drive the instance (R88, R70). -/
theorem eventStep_wrReg {s : State} {host : Nat} (r : Reg) (v : Word) (hm : mayDrive s.owner host = true) :
    eventStep (wrReg host r v) s = .next (writeAccess host r v s) := by
  rw [wrReg, eventStep_write]
  exact memWrite_of_register (resolveAccess_reg _ _ _ hm)

/-- A host's read of a register, by the host that may drive the instance (R88, R70). -/
theorem eventStep_rdReg {s : State} {host : Nat} (r : Reg) (hm : mayDrive s.owner host = true) :
    eventStep (rdReg host r) s = .next (readAccess host r s) := by
  rw [rdReg, eventStep_read]
  exact memRead_of_register (resolveAccess_reg _ _ _ hm)

/-- A host write to a register comes next (R88, R70). -/
theorem step_wrReg {s : State} {host : Nat} {r : Reg} {v : Word} {rest : List Event}
    (hi : s.inputs = wrReg host r v :: rest) (hm : mayDrive s.owner host = true) :
    step s = .next { s with b3c := hostWrite r v s.b3c, inputs := rest, owner := some host } := by
  rw [step_of_inputs hi]
  exact eventStep_wrReg r v hm

/-- A host read of a register comes next (R88, R70). -/
theorem step_rdReg {s : State} {host : Nat} {r : Reg} {rest : List Event}
    (hi : s.inputs = rdReg host r :: rest) (hm : mayDrive s.owner host = true) :
    step s = .next (readAccess host r { s with inputs := rest }) := by
  rw [step_of_inputs hi]
  exact eventStep_rdReg r hm

/-- The core's step on a pending command (R91). -/
theorem step_of_coreMoves {s s' : State} (h : CoreMoves s s') : step s = coreStep s' ∧ s'.b3c = s.b3c := by
  obtain ⟨_, ⟨hi, rfl⟩ | ⟨rest, hi, rfl⟩⟩ := h
  · exact ⟨by rw [step, hi], rfl⟩
  · exact ⟨by rw [step, hi]; rfl, rfl⟩

theorem coreStep_of_ok {s : State} {i : Instr} (hb : s.b3c.busy = true) (hd : decode s.b3c.pend = .ok i) :
    coreStep s = match exec i s with
      | .next t => .next (clearBusy t)
      | .fault f => .fault f
      | .refused r => .refused r := by
  cases h : exec i s <;> simp [coreStep, hb, hd, h]

theorem coreStep_of_error {s : State} {e : Illegal} (hb : s.b3c.busy = true) (hd : decode s.b3c.pend = .error e) :
    coreStep s = .next (clearBusy (errorEntry .illegalCmd s)) := by
  rw [coreStep, hb, if_neg (by simp), hd]

theorem coreStep_of_idle {s : State} (hb : s.b3c.busy = false) : coreStep s = .next s := by
  rw [coreStep, if_pos hb]

/-- What one core step with a pending command can answer with. -/
theorem coreStep_next_cases {s t : State} (hb : s.b3c.busy = true) (h : coreStep s = .next t) :
    (∃ e, decode s.b3c.pend = .error e ∧ t = clearBusy (errorEntry .illegalCmd s)) ∨
    (∃ i u, decode s.b3c.pend = .ok i ∧ exec i s = .next u ∧ t = clearBusy u) := by
  cases hd : decode s.b3c.pend with
  | error e =>
    rw [coreStep_of_error hb hd] at h
    exact .inl ⟨e, rfl, by simpa using h.symm⟩
  | ok i =>
    rw [coreStep_of_ok hb hd] at h
    cases he : exec i s with
    | next u => rw [he] at h; exact .inr ⟨i, u, rfl, he, by simpa using h.symm⟩
    | fault f => rw [he] at h; cases h
    | refused r => rw [he] at h; cases h

/-- What one step can do to the machine. -/
theorem step_next_cases {s t : State} (h : step s = .next t) :
    (∃ s', CoreMoves s s' ∧ s'.b3c = s.b3c ∧ coreStep s' = .next t) ∨
    (∃ r v, t.b3c = hostWrite r v s.b3c ∧ ¬ ResetMoves s) ∨
    (t.b3c = s.b3c ∧ ¬ ResetMoves s) ∨
    (ResetMoves s ∧ t.b3c = B3C.reset) := by
  unfold step at h
  cases hi : s.inputs with
  | nil =>
    rw [hi] at h
    cases hb : s.b3c.busy with
    | false =>
      rw [coreStep_of_idle hb] at h
      cases h
      exact .inr (.inr (.inl ⟨rfl, by simp [ResetMoves, hi]⟩))
    | true => exact .inl ⟨s, ⟨hb, .inl ⟨hi, rfl⟩⟩, rfl, h⟩
  | cons e rest =>
    rw [hi] at h
    cases e with
    | write host addr width v =>
      have hn : ¬ ResetMoves s := by rintro ⟨r, hr⟩; rw [hi] at hr; cases hr
      simp only [eventStep_write] at h
      rcases memWrite_next_cases h with rfl | ⟨r, rfl⟩
      · exact .inr (.inr (.inl ⟨rfl, hn⟩))
      · exact .inr (.inl ⟨r, v, rfl, hn⟩)
    | read host addr width =>
      have hn : ¬ ResetMoves s := by rintro ⟨r, hr⟩; rw [hi] at hr; cases hr
      simp only [eventStep_read] at h
      rcases memRead_next_cases h with rfl | ⟨r, rfl⟩
      · exact .inr (.inr (.inl ⟨rfl, hn⟩))
      · exact .inr (.inr (.inl ⟨rfl, hn⟩))
    | coreTurn =>
      cases hb : s.b3c.busy with
      | false =>
        have hn : ¬ ResetMoves s := by rintro ⟨r, hr⟩; rw [hi] at hr; cases hr
        have h' : coreStep { s with inputs := rest } = .next t := h
        rw [coreStep_of_idle (s := { s with inputs := rest }) hb] at h'
        injection h' with h'
        exact .inr (.inr (.inl ⟨by rw [← h'], hn⟩))
      | true => exact .inl ⟨_, ⟨hb, .inr ⟨rest, hi, rfl⟩⟩, rfl, h⟩
    | reset =>
      cases h
      exact .inr (.inr (.inr ⟨⟨rest, hi⟩, rfl⟩))

/-- The same, with the core's step taken apart: what it executed, and what it left. -/
theorem step_machine_cases {s t : State} (h : step s = .next t) :
    (∃ s', CoreMoves s s' ∧
      ((∃ c, t.b3c = { s.b3c with busy := false, err := true, errCode := if s.b3c.err then s.b3c.errCode else c } ∧ c ≠ .none) ∨
       (∃ i b, decode s.b3c.pend = .ok i ∧ execBody i s.b3c = .ok b ∧ t.b3c = { b with busy := false }))) ∨
    (∃ r v, t.b3c = hostWrite r v s.b3c ∧ ¬ ResetMoves s) ∨
    (t.b3c = s.b3c ∧ ¬ ResetMoves s) ∨
    (ResetMoves s ∧ t.b3c = B3C.reset) := by
  rcases step_next_cases h with ⟨s', hm, hs, hc⟩ | hw | hk | hr
  · refine .inl ⟨s', hm, ?_⟩
    rcases coreStep_next_cases (by rw [hs]; exact hm.1) hc with ⟨e, _, rfl⟩ | ⟨i, u, hd, he, rfl⟩
    · exact .inl ⟨.illegalCmd, by simp [hs], by simp⟩
    · rw [hs] at hd
      rcases exec_next_cases he with ⟨b, hb, rfl⟩ | ⟨c, hce, rfl⟩
      · rw [hs] at hb
        exact .inr ⟨i, b, hd, hb, rfl⟩
      · exact .inl ⟨c, by simp [hs], execBody_error_ne_none hce⟩
  · exact .inr (.inl hw)
  · exact .inr (.inr (.inl hk))
  · exact .inr (.inr (.inr hr))

end Sys2Proof.Machine
end

