-- ==== Sys2Proof/Laws/HostProgram.lean ====
section
/-! SUPPORT. Host programs (30_encoding.md R88, R89): one lemma per kind of line that says what the host's move does, and how
lists of turns and of lines are put together. -/

namespace Sys2Proof.Machine

@[simp] theorem lastRead_readAccess (host : Nat) (r : Reg) (s : State) :
    lastRead (readAccess host r s) = hostReadValue r (Config.unspecifiedRead s.freeCount) s.b3c := rfl

theorem mayDrive_self (host : Nat) : mayDrive (some host) host = true := by simp [mayDrive]

/-! ## One line -/

theorem hostMove_wr {h : HostRun} {r : Reg} {v : Word} {rest : List Line} (hl : h.lines = .wr r v :: rest)
    (hm : mayDrive h.machine.owner h.host = true) :
    hostMove h = .next { h with machine := writeAccess h.host r v h.machine, lines := rest } := by
  simp only [hostMove, hl, access, eventStep_wrReg r v hm]

theorem hostMove_wrRead {h : HostRun} {r : Reg} {rest : List Line} (hl : h.lines = .wrRead r :: rest)
    (hm : mayDrive h.machine.owner h.host = true) :
    hostMove h = .next { h with machine := writeAccess h.host r h.value h.machine, lines := rest } := by
  simp only [hostMove, hl, access, eventStep_wrReg r h.value hm]

theorem hostMove_rd {h : HostRun} {r : Reg} {rest : List Line} (hl : h.lines = .rd r :: rest)
    (hm : mayDrive h.machine.owner h.host = true) :
    hostMove h = .next { h with
      machine := readAccess h.host r h.machine, lines := rest
      value := lastRead (readAccess h.host r h.machine)
      words := keepWord r (lastRead (readAccess h.host r h.machine)) h.words } := by
  simp only [hostMove, hl, access, eventStep_rdReg r hm]

/-- A `wait` reads STATUS, whose bit 0 is BUSY, and stays as long as it is set (R89, R37). -/
theorem hostMove_wait {h : HostRun} {rest : List Line} (hl : h.lines = .wait :: rest)
    (hm : mayDrive h.machine.owner h.host = true) :
    hostMove h = .next { h with
      machine := readAccess h.host .status h.machine
      lines := if (statusWord h.machine.b3c).getLsbD 0 then .wait :: rest else rest } := by
  simp only [hostMove, hl, access, eventStep_rdReg .status hm, lastRead_readAccess]
  simp [hostReadValue, unspecifiedWhenBusy, readReg]

theorem hostMove_append {h : HostRun} {m : Nat} {rest : List Line} (hl : h.lines = .append m :: rest) :
    hostMove h = .next { h with lines := rest, bytes := h.bytes ++ (bytesOf h.words).toList.take m } := by
  simp only [hostMove, hl]

/-- Bit 0 of STATUS is BUSY (R37). -/
theorem statusWord_bit_zero (b : B3C) : (statusWord b).getLsbD 0 = b.busy := by
  simp only [statusWord]
  cases b.busy <;> cases b.err <;> cases b.phase <;> cases b.mode <;> cases b.errCode <;> decide

/-- The host's copy of DOUT word by word. -/
theorem getElem_keepWord (r : Reg) (v : Word) (ws : Block) (j : Fin 16) :
    (keepWord r v ws)[j] = if r = .dout j then v else ws[j] := by
  cases r with
  | dout i =>
    by_cases h : i = j
    · subst h; simp [keepWord]
    · have : ¬ Reg.dout i = .dout j := fun e => h (Reg.dout.inj e)
      simp only [keepWord, if_neg this, Fin.getElem_fin]
      exact Vector.getElem_set_ne _ _ (fun e => h (Fin.ext e))
  | _ => simp [keepWord]

/-! ## Keys given as byte strings (R233) -/

/-- The host library takes 32 bytes, as they are. -/
theorem keyOfBytes_eq_some {k : List Byte} {key : Bytes32} : keyOfBytes k = some key ↔ key.toList = k := by
  unfold keyOfBytes
  constructor
  · intro h
    split at h
    · cases h; rfl
    · cases h
  · rintro rfl
    rw [dif_pos (by simp)]
    rfl

/-- The host library refuses every other length, whatever the input and the output length. -/
theorem keyedHashOfBytes_eq_none {k xs : List Byte} {n : Nat} : keyedHashOfBytes k xs n = none ↔ k.length ≠ 32 := by
  unfold keyedHashOfBytes keyOfBytes
  split <;> simp_all

theorem keyedHashOfBytes_of_key (key : Bytes32) (xs : List Byte) (n : Nat) :
    keyedHashOfBytes key.toList xs n = some (keyedHashProgram key xs n) := by
  rw [keyedHashOfBytes, keyOfBytes_eq_some.mpr rfl, Option.map_some]

/-! ## Turns -/

@[simp] theorem runTurns_nil (h : HostRun) : runTurns [] h = .next h := rfl

theorem runTurns_cons_of_next {a : Turn} {turns : List Turn} {h k : HostRun} (ha : turnMove a h = .next k) :
    runTurns (a :: turns) h = runTurns turns k := by rw [runTurns, ha]

theorem runTurns_append_of_next {first then_ : List Turn} {h k : HostRun} (hf : runTurns first h = .next k) :
    runTurns (first ++ then_) h = runTurns then_ k := by
  induction first generalizing h with
  | nil => cases hf; rfl
  | cons a first ih =>
    rw [runTurns] at hf
    cases ha : turnMove a h with
    | next u => rw [ha] at hf; rw [List.cons_append, runTurns_cons_of_next ha]; exact ih hf
    | fault f => rw [ha] at hf; cases hf
    | refused r => rw [ha] at hf; cases hf

end Sys2Proof.Machine
end

