-- ==== Sys2Proof/Laws/PerInstr.lean ====
section
/-! SUPPORT. What is said of every command as syntax, one lemma per constructor: the fields of its word (30_encoding.md R80,
R81, R88). -/

namespace Sys2Proof.Laws.EncodeFields

/-- OP of a command (R81). -/
def op : Instr → Nat
  | .nop => 0x00
  | .init _ => 0x01
  | .absorb _ => 0x02
  | .finalize => 0x03
  | .xofRead _ => 0x04
  | .xofSeek => 0x05
  | .compress => 0x06

/-- ARG of a command: the mode number, the byte count, or 0 (R81, R82). -/
def arg : Instr → Nat
  | .nop => 0
  | .init m => m.number
  | .absorb n => n
  | .finalize => 0
  | .xofRead n => n
  | .xofSeek => 0
  | .compress => 0

/-- The word of a well-formed command has its OP, its ARG, and RSV = 0 (R80, R81). -/
def Statement (i : Instr) : Prop :=
  i.wf = true → opField (encode i) = op i ∧ argField (encode i) = arg i ∧ rsvField (encode i) = 0

theorem number_lt (m : Mode) : m.number < 256 := by cases m <;> decide

theorem nop : Statement .nop := fun _ => fields_commandWord 0x00 0 (by decide) (by decide)
theorem init (m : Mode) : Statement (.init m) := fun _ => fields_commandWord 0x01 m.number (by decide) (number_lt m)
theorem absorb (n : Nat) : Statement (.absorb n) := fun h =>
  fields_commandWord 0x02 n (by decide) (by have : n ≤ 64 := of_decide_eq_true h; omega)
theorem finalize : Statement .finalize := fun _ => fields_commandWord 0x03 0 (by decide) (by decide)
theorem xofRead (n : Nat) : Statement (.xofRead n) := fun h =>
  fields_commandWord 0x04 n (by decide) (by have : n ≤ 64 := of_decide_eq_true h; omega)
theorem xofSeek : Statement .xofSeek := fun _ => fields_commandWord 0x05 0 (by decide) (by decide)
theorem compress : Statement .compress := fun _ => fields_commandWord 0x06 0 (by decide) (by decide)

end Sys2Proof.Laws.EncodeFields
end

