-- ==== Sys2Proof/Laws/Xof.lean ====
section
/-! SUPPORT. The bytes that XOF_READ returns are the stream's (45_xof.md R201, R202). -/

namespace Sys2Proof.Machine

theorem length_streamBytes (b : B3C) (p n : Nat) (h : n ≤ 64) : (streamBytes b p n).length = n := by
  have := Nat.mod_lt p (show 0 < 64 by decide)
  simp [streamBytes]
  omega

/-- Byte `j` of a read at position `p` is `Stream(p + j)` (R202). -/
theorem getElem_streamBytes (b : B3C) (p n j : Nat) (h : n ≤ 64) (hj : j < (streamBytes b p n).length) :
    (streamBytes b p n)[j] = stream b (p + j) := by
  have hl := length_streamBytes b p n h
  have := Nat.mod_lt p (show 0 < 64 by decide)
  simp only [streamBytes, List.getElem_take, List.getElem_drop, stream]
  by_cases hc : p % 64 + j < 64
  · rw [List.getElem_append_left (by simp; omega)]
    have e1 : (p + j) / 64 = p / 64 := by omega
    have e2 : (p + j) % 64 = p % 64 + j := by omega
    simp only [e1, e2, Vector.getElem_toList]
  · rw [List.getElem_append_right (by simp; omega)]
    have e1 : (p + j) / 64 = p / 64 + 1 := by omega
    have e2 : (p + j) % 64 = p % 64 + j - 64 := by omega
    simp only [e1, e2, Vector.getElem_toList, Vector.length_toList]

end Sys2Proof.Machine
end

