-- ==== Sys2Proof/Tests/Slice0.lean ====
section
/-! SUPPORT. Tests of the model, each expected value taken from spec/95_test_vectors.md or written out from the table a
comment names, and for every statement with hypotheses a witness that meets them. -/

open Sys2Proof.Machine Sys2Proof.Claims

namespace Sys2Proof.Tests

/-! ## Helpers -/

/-- The reset state with another machine in it. -/
def on (b : B3C) : State := { State.reset with b3c := b }

/-- `on b` with `w` pending and nothing asked of the other agents. -/
def pending (b : B3C) (w : Word) : State := on { b with pend := w, busy := true }

/-- The machine after an outcome that goes on. -/
def machine (o : Host.Outcome State Fault Refusal) : B3C :=
  match o with
  | .next t => t.b3c
  | .fault _ => B3C.reset
  | .refused _ => B3C.reset

/-- The state after an outcome that goes on. -/
def after (o : Host.Outcome State Fault Refusal) : State :=
  match o with
  | .next t => t
  | .fault _ => State.reset
  | .refused _ => State.reset

/-- The machine after a pending word is executed. -/
def run (b : B3C) (w : Word) : B3C := machine (step (pending b w))

/-- Bytes as a block of DIN or DOUT. -/
def blockOf (ws : List Word) : Block := Vector.ofFn fun i => ws.getD i.val 0

/-- After `init plain` from reset (R182). -/
def hashing : B3C := initBody .plain B3C.reset

/-- After `init plain`, `finalize` from reset (L2.6's start). -/
def closedEmpty : B3C := captureRoot (rootFold hashing) hashing

/-- A full chunk that is still open (the start of V-T1 to V-T5). -/
def fullChunk : B3C := { hashing with bufLen := 64, blocks := 15 }

/-! ## Well-formedness: what the check refuses (R81) -/

theorem test_wf_absorb_65_refused : (Instr.absorb 65).wf = false := by decide
theorem test_wf_xofRead_65_refused : (Instr.xofRead 65).wf = false := by decide
theorem test_wf_absorb_64_accepted : (Instr.absorb 64).wf = true := by decide

/-! ## Decoding: words written field by field, RSV, ARG, OP (R80, R81) -/

theorem test_decode_nop : decode ((0x0000#16) ++ (0x00#8) ++ (0x00#8)) = .ok .nop := by decide
theorem test_decode_init : decode ((0b0000000000000000#16) ++ (0b00000011#8) ++ (0b00000001#8)) = .ok (.init .deriveMat) := by
  decide
theorem test_decode_absorb : decode ((0b0000000000000000#16) ++ (0b01000000#8) ++ (0b00000010#8)) = .ok (.absorb 64) := by
  decide
theorem test_decode_finalize : decode ((0x0000#16) ++ (0x00#8) ++ (0b00000011#8)) = .ok .finalize := by decide
theorem test_decode_xofRead : decode ((0b0000000000000000#16) ++ (0b00100000#8) ++ (0b00000100#8)) = .ok (.xofRead 32) := by
  decide
theorem test_decode_xofSeek : decode ((0x0000#16) ++ (0x00#8) ++ (0b00000101#8)) = .ok .xofSeek := by decide
theorem test_decode_compress : decode ((0x0000#16) ++ (0x00#8) ++ (0b00000110#8)) = .ok .compress := by decide

/-- V-H17, V-H18, V-H19, V-H20, V-H21, V-H23, V-H25. -/
theorem test_decode_illegal :
    decode 0x00010001 = .error .reservedBits ∧ decode 0x00000007 = .error .unknownOp ∧
    decode 0x000000FF = .error .unknownOp ∧ decode 0x00000401 = .error .argRange ∧
    decode 0x00000100 = .error .argRange ∧ decode 0x00000103 = .error .argRange ∧
    decode 0x00004104 = .error .argRange := by decide

/-- The opcode table's bit numbering: ABSORB 3 of R88's table, and a row wider than a command word (log 16). -/
theorem test_decodeTableWord : decodeTableWord 32 0x00000302 = some (.absorb 3) ∧ decodeTableWord 40 0x302 = none := by
  decide

/-- A word placed by withFetchWord runs as the next step from reset: `init keyed`, STATUS 0x14 (V-H3). -/
theorem test_withFetchWord : statusWord (machine (step (State.reset.withFetchWord 32 0x00000101))) = 0x00000014 := by
  decide

/-! ## One step of each command -/

/-- V-H1. -/
theorem test_nop : statusWord (run B3C.reset 0x00000000) = 0x00000000 := by decide

/-- V-H2, V-H4, V-H5. -/
theorem test_init_status : statusWord (run B3C.reset 0x00000001) = 0x00000004 ∧
    statusWord (run B3C.reset 0x00000201) = 0x00000024 ∧ statusWord (run B3C.reset 0x00000301) = 0x00000034 := by
  decide

/-- V-H3 and L2.5: keyed mode takes its base key from KEY and its base flags are 0x10 (R87). -/
theorem test_init_keyed :
    let b := run { B3C.reset with key := Vector.replicate 8 0x74616877 } 0x00000101
    b.bk = Vector.replicate 8 0x74616877 ∧ b.bf = 0x10 ∧ b.cscv = b.bk := by decide

/-- P1: `absorb 3` of "abc" gives INFO 3 and BUF = 61 62 63. -/
theorem test_absorb_abc :
    let b := run { hashing with din := blockOf [0x00636261] } 0x00000302
    infoWord b = 0x00000003 ∧ b.buf.toList.take 4 = [0x61, 0x62, 0x63, 0x00] ∧ statusWord b = 0x00000004 := by decide

/-- V-T2: a close that needs a 55th slot raises STACK_OVERFLOW and changes nothing of the chunk. -/
theorem test_absorb_stack_overflow :
    let b := run { fullChunk with ccnt := 0x007FFFFFFFFFFFFE, depth := 54 } 0x00000102
    statusWord b = 0x00000806 ∧ infoWord b = 0x00360F40 ∧ b.ccnt = 0x007FFFFFFFFFFFFE := by decide

/-- L1.2: "abc" gives R_FLG 0x0b, R_BLEN 3, R_BLK word 0 00636261. -/
theorem test_finalize_abc :
    let b := run { hashing with buf := padTo64 [0x61, 0x62, 0x63], bufLen := 3 } 0x00000003
    b.rFlg = 0x0B ∧ b.rBlen = 3 ∧ b.rBlk = blockOf [0x00636261] ∧ statusWord b = 0x00000008 := by decide

/-- V-H15. -/
theorem test_finalize_twice : statusWord (run closedEmpty 0x00000003) = 0x0000030A := by decide

/-- V-X3: 8 bytes from position 60 are the last Word of block 0 and the first of block 1. -/
theorem test_xofRead_straddles :
    let b := run { closedEmpty with xpos := 60 } 0x00000804
    b.dout = blockOf [0x3A24086C, 0x7748F526] ∧ b.xpos = 68 := by decide +kernel

/-- V-X6: a read past position 2^64 - 2 raises XOF_RANGE. -/
theorem test_xofRead_range : statusWord (run { closedEmpty with xpos := 0xFFFFFFFFFFFFFFFF } 0x00000104) = 0x0000060A := by
  decide

/-- V-X4's seek: any 64-bit position is accepted. -/
theorem test_xofSeek :
    (run { closedEmpty with seekLo := 0xFFFFFFFE, seekHi := 0xFFFFFFFF } 0x00000005).xpos = 0xFFFFFFFFFFFFFFFE := by
  decide

/-- V-H13. -/
theorem test_xofSeek_not_final : statusWord (run hashing 0x00000005) = 0x00000406 := by decide

/-- V-K1: COMPRESS of "abc" gives V-C7. -/
theorem test_compress :
    (run { B3C.reset with cv := iv, din := blockOf [0x00636261], cparam := 0x0B03 } 0x00000006).dout =
      blockOf [0xACB33764, 0x33514638, 0x753BB6FF, 0xB58D3A27, 0x4658C548, 0x03DB795D, 0x6C9C35FD, 0x859DBDD5,
        0xAE50B21F, 0xD0F59373, 0x5DB61328, 0x490D1A52, 0x9CA09B2D, 0x4C7FCEF7, 0xF200D9FF, 0x0BBF7433] := by
  decide +kernel

/-- V-K5. -/
theorem test_compress_blen_range : statusWord (run { B3C.reset with cparam := 0x0041 } 0x00000006) = 0x00000502 := by
  decide

/-! ## The shared operations -/

/-- V-G3: the wrap of `+` and the four rotations. -/
theorem test_g : (g (blockOf [0xFFFFFFFF, 0x00000001]) 0 1 2 3 0x00000001 0xFFFFFFFF).toList.take 4 =
    [0x00100010, 0x20202222, 0x10011100, 0x10001100] := by decide

/-- L2.2, n = 65: the 65th byte compresses block 0 of pat(·), and CSCV and INFO are the table's. -/
theorem test_absorb_65th_byte :
    let b := run { hashing with buf := Vector.ofFn fun i => BitVec.ofNat 8 i.val, bufLen := 64, din := blockOf [0x40] } 0x00000102
    b.cscv = #v[0x9D3729FF, 0x57F21CDB, 0xAB5A0F7D, 0x4E8F734E, 0xB16CF69F, 0x888CCC5C, 0x2D1D84AC, 0x206F2607] ∧
    infoWord b = 0x00000101 := by decide +kernel

/-- L2.3: merges at the close of chunk 8, 12 and 16, and DEPTH after 15 chunks (R153). -/
theorem test_tz_popcount : tz 8 = 3 ∧ tz 12 = 2 ∧ tz 16 = 4 ∧ tz 15 = 0 ∧ popcount 15 = 4 ∧ popcount 12 = 2 := by decide

/-! ## The host's accesses -/

/-- V-R5: CPARAM keeps its bits 15:0. -/
theorem test_cparam_reads_back : readReg (hostWrite .cparam 0xFFFFFFFF B3C.reset) .cparam = 0x0000FFFF := by decide

/-- V-R1: ID. -/
theorem test_id : readReg B3C.reset .id = 0x42330007 := by decide

/-- P5 (a): the write to DIN0 falls before INIT's core step, is lost, and is recorded; INIT still executes. -/
theorem test_busy_write :
    let b := machine (coreStep (on (hostWrite (.din 0) 0x11223344 (hostWrite .cmd 0x00000001 B3C.reset))))
    statusWord b = 0x00000906 ∧ readReg b (.din 0) = 0x00000000 := by decide

/-- P5 (b): the core step falls first, and there is no error. -/
theorem test_write_after_core_step :
    let b := hostWrite (.din 0) 0x11223344 (machine (coreStep (on (hostWrite .cmd 0x00000001 B3C.reset))))
    statusWord b = 0x00000004 ∧ readReg b (.din 0) = 0x11223344 := by decide

/-- P1's lines for `hash "abc", 32`. -/
theorem test_host_program_abc :
    hashProgram [0x61, 0x62, 0x63] 32 =
      [.wr .cmd 0x00000001, .wait, .wr (.din 0) 0x00636261, .wr .cmd 0x00000302, .wait, .wr .cmd 0x00000003, .wait,
       .wr .cmd 0x00002004, .wait, .rd (.dout 0), .rd (.dout 1), .rd (.dout 2), .rd (.dout 3), .rd (.dout 4),
       .rd (.dout 5), .rd (.dout 6), .rd (.dout 7), .append 32] := by rfl

/-- L2.5: the key "whats the Elvish word for friend" and the words KEY[0..7] that the spec gives for it. -/
theorem test_ld_key_words :
    ldKey #v[0x77, 0x68, 0x61, 0x74, 0x73, 0x20, 0x74, 0x68, 0x65, 0x20, 0x45, 0x6c, 0x76, 0x69, 0x73, 0x68,
        0x20, 0x77, 0x6f, 0x72, 0x64, 0x20, 0x66, 0x6f, 0x72, 0x20, 0x66, 0x72, 0x69, 0x65, 0x6e, 0x64] =
      [.wr (.key 0) 0x74616877, .wr (.key 1) 0x68742073, .wr (.key 2) 0x6c452065, .wr (.key 3) 0x68736976,
       .wr (.key 4) 0x726f7720, .wr (.key 5) 0x6f662064, .wr (.key 6) 0x72662072, .wr (.key 7) 0x646e6569] := by decide

/-- R233: keys of 31 and of 33 bytes are refused, and one of 32 is not. -/
theorem test_key_length :
    (keyedHashOfBytes (List.replicate 31 0) [] 32).isNone = true ∧ (keyedHashOfBytes (List.replicate 33 0) [] 32).isNone = true ∧
    (keyedHashOfBytes (List.replicate 32 0) [] 32).isSome = true := by decide

/-- R89's `key_from_out`, written out. -/
theorem test_key_from_out_lines :
    keyFromOut =
      [.rd (.dout 0), .wrRead (.key 0), .rd (.dout 1), .wrRead (.key 1), .rd (.dout 2), .wrRead (.key 2),
       .rd (.dout 3), .wrRead (.key 3), .rd (.dout 4), .wrRead (.key 4), .rd (.dout 5), .wrRead (.key 5),
       .rd (.dout 6), .wrRead (.key 6), .rd (.dout 7), .wrRead (.key 7)] := by rfl

/-! ## Witnesses: for each statement with hypotheses, a case that meets them, each clause at a boundary -/

theorem hashing_inv : hashing.Inv := by
  have h : popcount 0 = 0 := popcount_zero
  constructor <;> simp [hashing, B3C.reset, zero64, baseKey]

theorem pending_hashing_inv (w : Word) : (pending hashing w).Inv := by
  have h : popcount 0 = 0 := popcount_zero
  constructor <;> simp [pending, on, hashing, B3C.reset, zero64, baseKey]

theorem witness_coreMoves_no_inputs (b : B3C) (w : Word) : CoreMoves (pending b w) (pending b w) := ⟨rfl, .inl ⟨rfl, rfl⟩⟩

theorem witness_coreMoves_coreTurn (b : B3C) (w : Word) :
    CoreMoves { pending b w with inputs := [.coreTurn] } (pending b w) := ⟨rfl, .inr ⟨[], rfl, rfl⟩⟩

theorem witness_DecodeOfEncode : (Instr.absorb 64).wf = true ∧ (Instr.xofRead 0).wf = true ∧ (Instr.init .deriveMat).wf = true := by
  decide

theorem witness_EncodeOfDecode : decode 0x00004002 = .ok (.absorb 64) := by decide

theorem witness_IllegalWordRaisesIllegalCmd :
    CoreMoves (pending hashing 0x00004102) (pending hashing 0x00004102) ∧ (pending hashing 0x00004102).b3c.pend = 0x00004102 ∧
    ∀ i, decode 0x00004102 ≠ .ok i := by
  refine ⟨witness_coreMoves_no_inputs _ _, rfl, fun i h => ?_⟩
  have : decode 0x00004102 = .error .argRange := by decide
  rw [this] at h
  cases h

theorem witness_StepRunsPendingCommand :
    CoreMoves { pending hashing 0x00000000 with inputs := [.coreTurn] } (pending hashing 0x00000000) ∧
    decode (pending hashing 0x00000000).b3c.pend = .ok .nop ∧
    exec .nop (pending hashing 0x00000000) = .next (pending hashing 0x00000000) :=
  ⟨witness_coreMoves_coreTurn _ _, by decide, rfl⟩

/-- The fault clause: ABSORB 1 pending on a full chunk with CCNT 1 and no stack entry. -/
theorem witness_StepRunsPendingCommand_fault :
    exec (.absorb 1) (pending { fullChunk with ccnt := 1 } 0x00000102) = .fault .mergeWithoutEntry := by rfl

theorem witness_CoreStepClearsBusy :
    CoreMoves (pending hashing 0x00000003) (pending hashing 0x00000003) ∧ (pending hashing 0x00000003).Inv :=
  ⟨witness_coreMoves_no_inputs _ _, pending_hashing_inv _⟩

theorem witness_ErrorEntryKeepsFirstError :
    (on { hashing with err := true, errCode := .busyWrite }).b3c.err = true ∧ (on hashing).b3c.err = false := by decide

theorem witness_AbsorbPhaseErrors :
    (64 ≤ 64 ∧ (on B3C.reset).b3c.phase = .idle) ∧ (0 ≤ 64 ∧ (on closedEmpty).b3c.phase = .finalized) ∧ 64 < 65 :=
  ⟨⟨by decide, rfl⟩, ⟨by decide, rfl⟩, by decide⟩

theorem witness_AbsorbWithinBlock :
    ((on hashing).b3c.phase = .absorbing ∧ (on hashing).b3c.bufLen.val + 64 ≤ 64) ∧
    ((on fullChunk).b3c.phase = .absorbing ∧ (on fullChunk).b3c.bufLen.val + 0 ≤ 64) := by decide

theorem witness_AbsorbCompressesFullBlock :
    (on { hashing with bufLen := 64, blocks := 14 }).b3c.phase = .absorbing ∧
    64 < (on { hashing with bufLen := 64, blocks := 14 }).b3c.bufLen.val + 64 ∧
    64 * (on { hashing with bufLen := 64, blocks := 14 }).b3c.blocks.val +
      (on { hashing with bufLen := 64, blocks := 14 }).b3c.bufLen.val + 64 ≤ 1024 := by decide

/-- V-T1's start: 54 merges, the most one close makes. -/
theorem witness_AbsorbClosesFullChunk :
    let b := { fullChunk with ccnt := 0x003FFFFFFFFFFFFF, depth := 54 }
    b.phase = .absorbing ∧ 1024 < 64 * b.blocks.val + b.bufLen.val + 1 ∧ b.ccnt.toNat < 2 ^ 64 - 1 ∧
    tz (b.ccnt.toNat + 1) ≤ b.depth.val ∧ b.depth.val - tz (b.ccnt.toNat + 1) < 54 := by decide

/-- V-T3's and V-T2's starts. -/
theorem witness_AbsorbCloseErrors :
    (let b := { fullChunk with ccnt := 0xFFFFFFFFFFFFFFFF, depth := 54 }
     b.phase = .absorbing ∧ 1024 < 64 * b.blocks.val + b.bufLen.val + 1 ∧ b.ccnt.toNat = 2 ^ 64 - 1) ∧
    (let b := { fullChunk with ccnt := 0x007FFFFFFFFFFFFE, depth := 54 }
     b.phase = .absorbing ∧ 1024 < 64 * b.blocks.val + b.bufLen.val + 1 ∧ b.ccnt.toNat ≠ 2 ^ 64 - 1 ∧
     54 ≤ b.depth.val - tz (b.ccnt.toNat + 1)) := by decide

theorem witness_CloseWithoutEntryFaults :
    let b := { fullChunk with ccnt := 1 }
    b.phase = .absorbing ∧ 1024 < 64 * b.blocks.val + b.bufLen.val + 1 ∧ b.ccnt.toNat ≠ 2 ^ 64 - 1 ∧
    b.depth.val < tz (b.ccnt.toNat + 1) := by decide

theorem witness_CloseKeepsPopcountDepth :
    hashing.Inv ∧ hashing.ccnt.toNat < 2 ^ 64 - 1 ∧ closeChecked hashing = .ok (closed hashing 0) := by
  refine ⟨hashing_inv, by decide, ?_⟩
  have h : tz (hashing.ccnt.toNat + 1) = 0 := by decide
  rcases closeChecked_cases hashing with ⟨h1, _⟩ | ⟨_, h2, _⟩ | ⟨_, h3, _⟩ | ⟨_, _, _, e⟩
  · exact absurd h1 (by decide)
  · exact absurd h2 (by decide)
  · exact absurd h3 (by decide)
  · rw [e, h]

theorem witness_AbsorbSplitInvariant : (on hashing).b3c.phase = .absorbing ∧ 64 ≤ 64 := by decide

/-- Three bytes "abc", and two DIN words that differ in the byte after them. -/
theorem witness_AbsorbIgnoresBytesPastCount :
    (∀ j, j < 3 → streamByte (blockOf [0xFF636261]) j = streamByte (on { hashing with din := blockOf [0x00636261] }).b3c.din j) ∧
    exec (.absorb 3) (on hashing) = .next (after (exec (.absorb 3) (on hashing))) := ⟨by decide, rfl⟩

theorem witness_StreamingFlagsHaveNoRoot : hashing.Inv := hashing_inv

theorem witness_FinalizePhaseErrors : (on B3C.reset).b3c.phase = .idle ∧ (on closedEmpty).b3c.phase = .finalized := ⟨rfl, rfl⟩

theorem witness_FinalizeSingleChunkRoot : (on fullChunk).b3c.phase = .absorbing ∧ (on fullChunk).b3c.depth.val = 0 := by decide

theorem witness_FinalizeParentRoot :
    (on { hashing with depth := 54 }).b3c.phase = .absorbing ∧ 1 ≤ (on { hashing with depth := 54 }).b3c.depth.val ∧
    1 ≤ (on { hashing with depth := 1 }).b3c.depth.val := by decide

theorem witness_AccumulatorComputesMerkleTree :
    (List.replicate 1025 (0 : Byte)).length < 2 ^ 64 ∧ ([] : List Byte).length < 2 ^ 64 := by
  rw [List.length_replicate]
  decide

theorem witness_XofReadReturnsStream :
    let b := { closedEmpty with xpos := 0xFFFFFFFFFFFFFFBF }
    b.phase = .finalized ∧ 64 ≤ 64 ∧ b.xpos.toNat + 64 ≤ 2 ^ 64 - 1 := by
  exact ⟨rfl, by decide, by decide⟩

theorem witness_XofReadErrors :
    64 < 65 ∧ (64 ≤ 64 ∧ (on hashing).b3c.phase ≠ .finalized) ∧
    (1 ≤ 64 ∧ (on { closedEmpty with xpos := 0xFFFFFFFFFFFFFFFF }).b3c.phase = .finalized ∧
      2 ^ 64 - 1 < (on { closedEmpty with xpos := 0xFFFFFFFFFFFFFFFF }).b3c.xpos.toNat + 1) :=
  ⟨by decide, ⟨by decide, by decide⟩, by decide, rfl, by decide⟩

/-- V-X1's reads. -/
theorem witness_XofReadSplitInvariant :
    (on closedEmpty).b3c.phase = .finalized ∧ (∀ n ∈ [10, 64, 57, 0], n ≤ 64) ∧
    (on closedEmpty).b3c.xpos.toNat + [10, 64, 57, 0].sum ≤ 2 ^ 64 - 1 := ⟨rfl, by decide, by decide⟩

theorem witness_XofSeekSetsPosition : (on closedEmpty).b3c.phase = .finalized ∧ (on hashing).b3c.phase ≠ .finalized :=
  ⟨rfl, by decide⟩

theorem witness_CompressWritesDout :
    (on { hashing with cparam := 0x0B40 }).b3c.cparam.toNat % 256 ≤ 64 ∧
    64 < (on { hashing with cparam := 0x0B41 }).b3c.cparam.toNat % 256 := by decide

theorem witness_CompressIgnoresHash :
    SameOperands (on hashing).b3c (on closedEmpty).b3c ∧ (on hashing).b3c.cparam.toNat % 256 ≤ 64 :=
  ⟨⟨rfl, rfl, rfl, rfl, rfl, rfl, rfl, rfl⟩, by decide⟩

theorem witness_MixUpdatesQuartetOnly : ([0, 4, 8, 12] : List (Fin 16)).Nodup := by decide

theorem witness_DisjointMixesCommute : ([0, 4, 8, 12, 1, 5, 9, 13] : List (Fin 16)).Nodup := by decide

theorem witness_PhaseChangesOnlyBy :
    (step (pending B3C.reset 0x00000001) = .next (after (step (pending B3C.reset 0x00000001))) ∧
      (after (step (pending B3C.reset 0x00000001))).b3c.phase ≠ (pending B3C.reset 0x00000001).b3c.phase) ∧
    (step (pending hashing 0x00000003) = .next (after (step (pending hashing 0x00000003))) ∧
      (after (step (pending hashing 0x00000003))).b3c.phase ≠ (pending hashing 0x00000003).b3c.phase) ∧
    (step { on hashing with inputs := [.reset] } = .next (on B3C.reset) ∧ (on B3C.reset).b3c.phase ≠ hashing.phase) :=
  ⟨⟨rfl, by decide⟩, ⟨rfl, by decide⟩, rfl, by decide⟩

theorem witness_ModeAndKeyWrittenOnlyByInit :
    step (pending B3C.reset 0x00000101) = .next (after (step (pending B3C.reset 0x00000101))) ∧
    (after (step (pending B3C.reset 0x00000101))).b3c.mode ≠ (pending B3C.reset 0x00000101).b3c.mode := ⟨rfl, by decide⟩

theorem witness_StackWrittenOnlyByClose :
    step (pending fullChunk 0x00000102) = .next (after (step (pending fullChunk 0x00000102))) ∧
    (after (step (pending fullChunk 0x00000102))).b3c.depth ≠ (pending fullChunk 0x00000102).b3c.depth := ⟨rfl, by decide⟩

/-- One live entry, and a dead one that differs. -/
theorem witness_DeadStackEntriesUnread :
    (∀ d : Fin 54, d.val < ({ hashing with depth := 1 } : B3C).depth.val →
      (hashing.stack.set 53 iv)[d] = ({ hashing with depth := 1 } : B3C).stack[d]) ∧
    absorbBody 0 { hashing with depth := 1 } = .ok { hashing with depth := 1 } ∧
    finalizeBody { hashing with depth := 1 } =
      .ok (captureRoot (rootFold { hashing with depth := 1 }) { hashing with depth := 1 }) :=
  ⟨by decide, rfl, rfl⟩

theorem witness_ErrorIsSticky :
    let s := pending { hashing with err := true, errCode := .busyWrite } 0x00000000
    step s = .next (after (step s)) ∧ s.b3c.err = true ∧ ¬ ResetMoves s :=
  ⟨rfl, rfl, by rintro ⟨_, h⟩; cases h⟩

theorem witness_ErrorGateStopsCommands :
    let s := on { hashing with err := true, errCode := .notFinal }
    step s = .next (after (step s)) ∧ s.b3c.err = true ∧ s.b3c.busy = false ∧ ¬ ResetMoves s :=
  ⟨rfl, rfl, rfl, by rintro ⟨_, h⟩; cases h⟩

theorem witness_ExecDependsOnMachineOnly :
    (on hashing).b3c = ({ on hashing with freeCount := 7 } : State).b3c ∧ exec .nop (on hashing) = .next (on hashing) ∧
    exec (.absorb 1) (on { fullChunk with ccnt := 1 }) = .fault .mergeWithoutEntry := ⟨rfl, rfl, rfl⟩

theorem witness_KeyIsLatched :
    (∀ m, Instr.finalize ≠ .init m) ∧ exec .finalize (on hashing) = .next (on closedEmpty) :=
  ⟨(fun _ h => by cases h), rfl⟩

theorem witness_RegisterMapIsExact : 63 < 64 ∧ regAtWord 63 = some (.dout 15) := by decide

theorem witness_CommandWriteIssues :
    ({ on hashing with inputs := [wrReg 0 .cmd 0x00000003] } : State).inputs = wrReg 0 .cmd 0x00000003 :: [] ∧
    mayDrive (on hashing).owner 0 = true ∧ (on hashing).b3c.busy = false ∧ (on hashing).b3c.err = false ∧
    (on { hashing with err := true, errCode := .notFinal }).b3c.err = true := ⟨rfl, rfl, rfl, rfl, rfl⟩

theorem witness_WriteWhileBusyRaises :
    ({ pending hashing 0 with inputs := [wrReg 3 (.dout 15) 1] } : State).inputs = wrReg 3 (.dout 15) 1 :: [] ∧
    mayDrive (some 3) 3 = true ∧ (pending hashing 0).b3c.busy = true := ⟨rfl, rfl, rfl⟩

theorem witness_AccessMakesOneHost :
    ({ on hashing with inputs := [rdReg 7 .id], owner := some 7 } : State).inputs = rdReg 7 .id :: [] ∧
    mayDrive (some 7) 7 = true ∧ ({ on hashing with inputs := [wrReg 7 .seekLo 1] } : State).inputs = wrReg 7 .seekLo 1 :: [] ∧
    mayDrive none 7 = true ∧ 8 ≠ 7 := ⟨rfl, rfl, rfl, rfl, by decide⟩

theorem witness_PendingCommandSurvivesBusyWrite :
    (pending hashing 0x00000003).b3c.busy = true ∧ (pending hashing 0x00000003).b3c.err = false ∧
    coreStep (pending hashing 0x00000003) = .next (after (coreStep (pending hashing 0x00000003))) := ⟨rfl, rfl, rfl⟩

theorem witness_WrittenRegisterReadsBack :
    ({ on hashing with inputs := [wrReg 2 .cparam 0xFFFFFFFF], owner := some 2 } : State).inputs =
      wrReg 2 .cparam 0xFFFFFFFF :: [] ∧
    mayDrive (some 2) 2 = true ∧ (on hashing).b3c.busy = false ∧ isRW .cparam = true ∧ isRW (.din 15) = true :=
  ⟨rfl, rfl, rfl, rfl, rfl⟩

theorem witness_ReadOnlyWriteIgnored :
    ({ on hashing with inputs := [wrReg 0 (.dout 15) 1] } : State).inputs = wrReg 0 (.dout 15) 1 :: [] ∧
    mayDrive (on hashing).owner 0 = true ∧ (on hashing).b3c.busy = false ∧ isRW (.dout 15) = false ∧
    isRW (.reserved 2) = false ∧ Reg.dout 15 ≠ .cmd := ⟨rfl, rfl, rfl, rfl, rfl, by decide⟩

theorem witness_ReadHasNoSideEffect :
    ({ on hashing with inputs := [rdReg 0 .info] } : State).inputs = rdReg 0 .info :: [] ∧ mayDrive none 0 = true ∧
    (on hashing).b3c.busy = false ∧ (pending hashing 0).b3c.busy = true ∧ unspecifiedWhenBusy .info = true ∧
    unspecifiedWhenBusy .status = false := ⟨rfl, rfl, rfl, rfl, rfl, rfl⟩

/-- The window's first and last byte addresses, an access that runs into the window wherever there is room below it, and the
addresses just outside it. -/
theorem witness_AccessRefusals :
    ({ on hashing with inputs := [.write 0 Config.b3cBase 1 0] } : State).inputs = .write 0 Config.b3cBase 1 0 :: [] ∧
    (Config.b3cBase < Config.b3cBase + 256 ∧ Config.b3cBase ≤ Config.b3cBase ∧ 1 ≠ 4) ∧
    (0 < Config.b3cBase → Config.b3cBase - 1 < Config.b3cBase + 256 ∧ Config.b3cBase < Config.b3cBase - 1 + 4 ∧ 4 = 4 ∧
      (Config.b3cBase - 1) % 4 ≠ 0) ∧
    (Config.b3cBase + 255 < Config.b3cBase + 256 ∧ (Config.b3cBase + 255) % 4 ≠ 0) ∧
    (Config.b3cBase + 252 < Config.b3cBase + 256 ∧ (Config.b3cBase + 252) % 4 = 0 ∧ mayDrive (some 0) 1 = false) ∧
    Config.b3cBase + 256 ≤ Config.b3cBase + 256 := by
  have h := b3cBase_mod_four
  generalize Config.b3cBase = base at *
  refine ⟨rfl, ⟨by omega, by omega, by decide⟩, fun _ => ⟨by omega, by omega, rfl, by omega⟩, ⟨by omega, by omega⟩,
    ⟨by omega, by omega, rfl⟩, by omega⟩

theorem witness_ResetClearsEverything :
    ({ pending hashing 0x00000003 with inputs := [.reset] } : State).inputs = .reset :: [] ∧ Reg.status ≠ .id :=
  ⟨rfl, by decide⟩

/-- Each kind of line at a boundary: the last DOUT word, BUSY set and clear, 64 bytes. -/
theorem witness_HostLinesRunAsWritten :
    mayDrive (HostRun.start (on hashing) 4 [.wait]).machine.owner 4 = true ∧
    (HostRun.start (on hashing) 4 [.wr (.key 7) 1]).lines = .wr (.key 7) 1 :: [] ∧
    ((HostRun.start (on closedEmpty) 4 [.rd (.dout 15)]).lines = .rd (.dout 15) :: [] ∧ (on closedEmpty).b3c.busy = false) ∧
    (HostRun.start (on hashing) 4 [.wrRead (.key 0)]).lines = .wrRead (.key 0) :: [] ∧
    ((HostRun.start (pending hashing 0) 4 [.wait]).lines = .wait :: [] ∧ (pending hashing 0).b3c.busy = true ∧
      (on hashing).b3c.busy = false) ∧
    64 ≤ 64 ∧ (HostRun.start (on hashing) 4 [.append 64]).lines = .append 64 :: [] :=
  ⟨rfl, rfl, ⟨rfl, rfl⟩, rfl, ⟨rfl, rfl, rfl⟩, by decide, rfl⟩

theorem witness_KeyFromOutCopiesDout :
    let h := HostRun.start (on closedEmpty) 4 (keyFromOut ++ [.wait])
    mayDrive h.machine.owner h.host = true ∧ h.machine.b3c.busy = false ∧ h.lines = keyFromOut ++ [.wait] := ⟨rfl, rfl, rfl⟩

theorem witness_StepKeepsInvariant :
    (pending hashing 0x00000003).Inv ∧
    step (pending hashing 0x00000003) = .next (after (step (pending hashing 0x00000003))) :=
  ⟨pending_hashing_inv _, rfl⟩

theorem witness_InvariantExcludesFault : (pending hashing 0x00000102).Inv := pending_hashing_inv _

theorem witness_InternalBlockLengthsInRange : hashing.Inv := hashing_inv

end Sys2Proof.Tests
end

section
/-! The register map, the status words and the invariant at reset (10_state.md R34, R37, R38, R26). -/

namespace Sys2Proof.Machine

/-! ## The register map (R34) -/

/-- R34's table row by row: each of the 64 word offsets reaches a register that stands there. -/
theorem map_regOffset_regAtWord : ∀ i : Fin 64, (regAtWord i.val).map regOffset = some (4 * i.val) := by decide

/-- Settles O44: a register's own offset reaches it, and R34's table gives the other direction. -/
theorem registerMapIsExact : Obligations.RegisterMapIsExact := by
  refine ⟨fun r => ⟨regOffset_mod_four r, regOffset_lt r, regAtWord_regOffset r⟩, fun i hi => ?_⟩
  exact Option.map_eq_some_iff.mp (map_regOffset_regAtWord ⟨i, hi⟩)

/-! ## STATUS and INFO (R37, R38) -/

/-- A field of `n` bits stands below the fields before it. -/
theorem toNat_append_add {m n : Nat} (x : BitVec m) (y : BitVec n) : (x ++ y).toNat = x.toNat * 2 ^ n + y.toNat := by
  rw [BitVec.toNat_append, ← Nat.shiftLeft_add_eq_or_of_lt y.isLt, Nat.shiftLeft_eq]

/-- STATUS as a number: its fields at the bits of R37's table. -/
theorem toNat_statusWord (b : B3C) : (statusWord b).toNat = b.busy.toNat + 2 * b.err.toNat +
    4 * b.phase.code.toNat + 16 * (modeCode b.mode).toNat + 256 * b.errCode.code.toNat := by
  simp only [statusWord, toNat_append_add, BitVec.toNat_ofBool, BitVec.ofNat_eq_ofNat, BitVec.toNat_zero]
  omega

/-- INFO as a number: its fields at the bits of R38's table. -/
theorem toNat_infoWord (b : B3C) :
    (infoWord b).toNat = b.bufLen.val + 256 * b.blocks.val + 65536 * b.depth.val := by
  have hl := b.bufLen.isLt
  have hk := b.blocks.isLt
  have hd := b.depth.isLt
  simp only [infoWord, toNat_append_add, BitVec.ofNat_eq_ofNat, BitVec.toNat_ofNat]
  omega

/-- Settles O52: the two words as numbers, and the number of each code. -/
theorem statusAndInfoFields : Obligations.StatusAndInfoFields := by
  refine fun b => ⟨?_, toNat_infoWord b⟩
  rw [readReg, toNat_statusWord]
  congr 1
  · congr 1
    · cases b.phase <;> rfl
    · cases b.mode <;> rfl
  · cases b.errCode <;> rfl

/-! ## The invariant at reset (R26) -/

/-- Settles O57: every clause is about registers that are 0 at reset. -/
theorem invariantHoldsAtReset : Obligations.InvariantHoldsAtReset := by
  change B3C.reset.Inv
  have hp : popcount 0 = 0 := popcount_zero
  constructor <;> simp [B3C.reset, zeroCV, zero64, hp]

end Sys2Proof.Machine
end

section
/-! What one step can do to the hash, said once, and what follows for PHASE, MODE, BK, BF, STACK and DEPTH
(10_state.md R22, R23, R24, R27). -/

namespace Sys2Proof.Machine

/-! ## What leaves the hash alone -/

theorem sameHash_hostWrite (r : Reg) (v : Word) (b : B3C) : SameHash (hostWrite r v b) b := by
  rcases hostWrite_cases r v b with ⟨_, e⟩ | ⟨_, _, _, e⟩ | ⟨_, _, _, e⟩ | ⟨_, _, e⟩
  · rw [e, recordError_eq]; simp [SameHash]
  · rw [e]; simp [SameHash]
  · rw [e]; simp [SameHash]
  · rw [e]; simp [SameHash]

/-- What one step can do to the hash: the reset, the commit of the pending command, or nothing. -/
theorem step_hash_cases {s t : State} (h : step s = .next t) :
    (ResetMoves s ∧ t.b3c = B3C.reset) ∨
    (∃ s' i b, CoreMoves s s' ∧ decode s.b3c.pend = .ok i ∧ execBody i s.b3c = .ok b ∧
      t.b3c = { b with busy := false }) ∨
    SameHash t.b3c s.b3c := by
  rcases step_machine_cases h with ⟨s', hm, ⟨c, e, _⟩ | ⟨i, b, hd, hb, e⟩⟩ | ⟨r, v, e, _⟩ | ⟨e, _⟩ | hr
  · exact .inr (.inr (by rw [e]; simp [SameHash]))
  · exact .inr (.inl ⟨s', i, b, hm, hd, hb, e⟩)
  · exact .inr (.inr (by rw [e]; exact sameHash_hostWrite r v s.b3c))
  · exact .inr (.inr (by rw [e]; simp [SameHash]))
  · exact .inl hr

/-! ## What a command does to PHASE, MODE, BK, BF, STACK and DEPTH -/

/-- The commands that write PHASE, and what they make of it (R22). -/
theorem execBody_phase_cases {i : Instr} {b c : B3C} (h : execBody i b = .ok c) :
    c.phase = b.phase ∨ (∃ m, i = .init m ∧ c.phase = .absorbing) ∨
    (i = .finalize ∧ b.phase = .absorbing ∧ c.phase = .finalized) := by
  cases i with
  | nop => cases h; exact .inl rfl
  | init m => cases h; exact .inr (.inl ⟨m, rfl, rfl⟩)
  | absorb n =>
    obtain ⟨_, _, ha⟩ := absorbBody_ok h
    obtain ⟨_, _, _, _, _, _, _, e⟩ := absorbBytes_frame ha
    exact .inl (by rw [e])
  | finalize => obtain ⟨hp, rfl⟩ := finalizeBody_ok h; exact .inr (.inr ⟨rfl, hp, rfl⟩)
  | xofRead n => obtain ⟨_, _, _, e⟩ := xofReadBody_ok h; exact .inl (by rw [e])
  | xofSeek => obtain ⟨_, e⟩ := xofSeekBody_ok h; exact .inl (by rw [e])
  | compress => obtain ⟨_, e⟩ := compressBody_ok h; exact .inl (by rw [e])

/-- Only INIT writes MODE, BK and BF (R23, R24). -/
theorem execBody_key_cases {i : Instr} {b c : B3C} (h : execBody i b = .ok c) :
    (∃ m, i = .init m) ∨ (c.mode = b.mode ∧ c.bk = b.bk ∧ c.bf = b.bf) := by
  cases i with
  | nop => cases h; exact .inr ⟨rfl, rfl, rfl⟩
  | init m => exact .inl ⟨m, rfl⟩
  | absorb n =>
    obtain ⟨_, _, ha⟩ := absorbBody_ok h
    obtain ⟨_, _, _, _, _, _, _, e⟩ := absorbBytes_frame ha
    rw [e]; exact .inr ⟨rfl, rfl, rfl⟩
  | finalize => obtain ⟨_, rfl⟩ := finalizeBody_ok h; exact .inr ⟨by simp, by simp, by simp⟩
  | xofRead n => obtain ⟨_, _, _, e⟩ := xofReadBody_ok h; rw [e]; exact .inr ⟨rfl, rfl, rfl⟩
  | xofSeek => obtain ⟨_, e⟩ := xofSeekBody_ok h; rw [e]; exact .inr ⟨rfl, rfl, rfl⟩
  | compress => obtain ⟨_, e⟩ := compressBody_ok h; rw [e]; exact .inr ⟨rfl, rfl, rfl⟩

/-- Bytes that fit the current chunk go nowhere near the stack (R132). -/
theorem foldl_pushByte_stack (xs : List Byte) (b : B3C) :
    (xs.foldl pushByte b).stack = b.stack ∧ (xs.foldl pushByte b).depth = b.depth := by
  obtain ⟨_, _, _, _, e⟩ := foldl_pushByte_frame xs b
  rw [e]; exact ⟨rfl, rfl⟩

/-- At most one block of bytes either stays in the current chunk, and the stack stays, or closes it (R154, R183). -/
theorem absorbBytes_stack_cases {xs : List Byte} {b c : B3C} (hn : xs.length ≤ 64) (h : absorbBytes xs b = .ok c) :
    (c.stack = b.stack ∧ c.depth = b.depth) ∨
    (1024 < chunkLen b + xs.length ∧ c.ccnt.toNat = b.ccnt.toNat + 1) := by
  rcases Nat.lt_or_ge 1024 (chunkLen b + xs.length) with hgt | hle
  · rw [absorbBytes_across xs b hgt hn] at h
    cases hc : closeChecked (fillBuf b (xs.take (64 - b.bufLen.val))) with
    | error e => rw [hc] at h; cases h
    | ok d =>
      rw [hc] at h
      cases h
      obtain ⟨hcc, _, _, rfl⟩ := closeChecked_ok hc
      refine .inr ⟨hgt, ?_⟩
      rw [fillBuf_ccnt, closed_ccnt, ccnt_succ_toNat hcc, fillBuf_ccnt]
  · rw [absorbBytes_within xs b hle] at h
    cases h
    exact .inl (foldl_pushByte_stack xs b)

/-- The commands that write STACK or DEPTH: INIT, and an ABSORB that closes a chunk (R27, R150). -/
theorem execBody_stack_cases {i : Instr} {b c : B3C} (h : execBody i b = .ok c) :
    (c.stack = b.stack ∧ c.depth = b.depth) ∨ (∃ m, i = .init m) ∨
    (∃ n, i = .absorb n ∧ 1024 < chunkLen b + n ∧ c.ccnt.toNat = b.ccnt.toNat + 1) := by
  cases i with
  | nop => cases h; exact .inl ⟨rfl, rfl⟩
  | init m => exact .inr (.inl ⟨m, rfl⟩)
  | absorb n =>
    obtain ⟨hn, _, ha⟩ := absorbBody_ok h
    have hl := length_absorbOperand b n hn
    rcases absorbBytes_stack_cases (by omega) ha with hk | ⟨hgt, hc⟩
    · exact .inl hk
    · exact .inr (.inr ⟨n, rfl, by omega, hc⟩)
  | finalize => obtain ⟨_, rfl⟩ := finalizeBody_ok h; exact .inl ⟨by simp, by simp⟩
  | xofRead n => obtain ⟨_, _, _, e⟩ := xofReadBody_ok h; rw [e]; exact .inl ⟨rfl, rfl⟩
  | xofSeek => obtain ⟨_, e⟩ := xofSeekBody_ok h; rw [e]; exact .inl ⟨rfl, rfl⟩
  | compress => obtain ⟨_, e⟩ := compressBody_ok h; rw [e]; exact .inl ⟨rfl, rfl⟩

/-! ## The statements -/

/-- Settles O36: of the steps that write the hash, only the reset, INIT and FINALIZE write PHASE. -/
theorem phaseChangesOnlyBy : Obligations.PhaseChangesOnlyBy := by
  intro s t h hne
  rcases step_hash_cases h with ⟨hr, e⟩ | ⟨s', i, b, hm, hd, hb, e⟩ | ⟨hp, _⟩
  · exact .inl ⟨hr, by rw [e]; rfl⟩
  · have hte : t.b3c.phase = b.phase := by rw [e]
    rw [hte] at hne ⊢
    rcases execBody_phase_cases hb with hp | ⟨m, rfl, hp⟩ | ⟨rfl, hp, hp'⟩
    · exact absurd hp hne
    · exact .inr ⟨s', hm, .inl ⟨m, hd, hp⟩⟩
    · exact .inr ⟨s', hm, .inr ⟨hd, hp, hp'⟩⟩
  · exact absurd hp hne

/-- Settles O37: of the steps that write the hash, only the reset and INIT write MODE, BK or BF. -/
theorem modeAndKeyWrittenOnlyByInit : Obligations.ModeAndKeyWrittenOnlyByInit := by
  intro s t h hne
  rcases step_hash_cases h with ⟨hr, _⟩ | ⟨s', i, b, hm, hd, hb, e⟩ | ⟨_, hmode, hbk, hbf, _⟩
  · exact .inl hr
  · rcases execBody_key_cases hb with ⟨m, rfl⟩ | ⟨hmode, hbk, hbf⟩
    · exact .inr ⟨s', m, hm, hd⟩
    · simp [e, hmode, hbk, hbf] at hne
  · simp [hmode, hbk, hbf] at hne

/-- Settles O38: of the steps that write the hash, only the reset, INIT and a closing ABSORB write STACK or DEPTH. -/
theorem stackWrittenOnlyByClose : Obligations.StackWrittenOnlyByClose := by
  intro s t h hne
  rcases step_hash_cases h with ⟨hr, _⟩ | ⟨s', i, b, hm, hd, hb, e⟩ | ⟨_, _, _, _, _, _, _, _, _, hst, hdp, _⟩
  · exact .inl hr
  · rcases execBody_stack_cases hb with ⟨hst, hdp⟩ | ⟨m, rfl⟩ | ⟨n, rfl, hgt, hc⟩
    · simp [e, hst, hdp] at hne
    · exact .inr ⟨s', hm, .inl ⟨m, hd⟩⟩
    · exact .inr ⟨s', hm, .inr ⟨n, hd, hgt, by rw [e]; exact hc⟩⟩
  · simp [hst, hdp] at hne

end Sys2Proof.Machine
end

section
/-! Dead stack entries (10_state.md R27): the chunk accumulator does not touch the stack, and the merges of a close and
RootFold read entries below DEPTH only. -/

namespace Sys2Proof.Machine

/-- The machine `b` with other words in STACK. -/
def withStack (st : Vector CV 54) (b : B3C) : B3C := { b with stack := st }

/-- `st` holds the live entries of `b`'s stack (R27). -/
def LiveAgree (st : Vector CV 54) (b : B3C) : Prop := ∀ d : Fin 54, d.val < b.depth.val → st[d] = b.stack[d]

@[simp] theorem withStack_depth (st : Vector CV 54) (b : B3C) : (withStack st b).depth = b.depth := rfl
@[simp] theorem withStack_ccnt (st : Vector CV 54) (b : B3C) : (withStack st b).ccnt = b.ccnt := rfl
@[simp] theorem withStack_bufLen (st : Vector CV 54) (b : B3C) : (withStack st b).bufLen = b.bufLen := rfl
@[simp] theorem withStack_stack (st : Vector CV 54) (b : B3C) : (withStack st b).stack = st := rfl
@[simp] theorem withStack_phase (st : Vector CV 54) (b : B3C) : (withStack st b).phase = b.phase := rfl

/-! ## What does not read the stack -/

theorem chunkLen_withStack (st : Vector CV 54) (b : B3C) : chunkLen (withStack st b) = chunkLen b := rfl

theorem absorbOperand_withStack (st : Vector CV 54) (b : B3C) (n : Nat) :
    absorbOperand (withStack st b) n = absorbOperand b n := rfl

theorem fillBuf_withStack (st : Vector CV 54) (b : B3C) (xs : List Byte) :
    fillBuf (withStack st b) xs = withStack st (fillBuf b xs) := by
  simp only [fillBuf, withStack, bufTake]

theorem compressBlock_withStack (st : Vector CV 54) (b : B3C) :
    compressBlock (withStack st b) = withStack st (compressBlock b) := by
  simp only [compressBlock, withStack, blockFlags, startFlag]
  rfl

theorem pushByte_withStack (st : Vector CV 54) (b : B3C) (x : Byte) :
    pushByte (withStack st b) x = withStack st (pushByte b x) := by
  by_cases h : b.bufLen.val = 64
  · rw [pushByte, pushByte, makeRoom_of_full h, makeRoom_of_full (by simpa using h), compressBlock_withStack,
      fillBuf_withStack]
  · rw [pushByte, pushByte, makeRoom_of_ne h, makeRoom_of_ne (by simpa using h), fillBuf_withStack]

theorem chunkNode_withStack (st : Vector CV 54) (b : B3C) : chunkNode (withStack st b) = chunkNode b := by
  simp only [chunkNode, withStack, chunkEndFlags, startFlag]
  rfl

theorem parentNode_withStack (st : Vector CV 54) (b : B3C) (l r : CV) :
    parentNode (withStack st b) l r = parentNode b l r := by
  simp only [parentNode, withStack, parentFlags]

/-! ## What reads live entries only -/

theorem stackEntry_withStack {st : Vector CV 54} {b : B3C} (hl : LiveAgree st b) {d : Nat} (hd : d < b.depth.val) :
    stackEntry (withStack st b) d = stackEntry b d := by
  have hlt := b.depth.isLt
  have h54 : d < 54 := by omega
  rw [stackEntry, stackEntry, dif_pos h54, dif_pos h54]
  exact hl ⟨d, h54⟩ hd

/-- The merges of a close take the entries from DEPTH - 1 down (R152). -/
theorem mergeN_withStack {st : Vector CV 54} {b : B3C} (hl : LiveAgree st b) (cv : CV) (k : Nat)
    (hk : k ≤ b.depth.val) : mergeN (withStack st b) b.depth.val cv k = mergeN b b.depth.val cv k := by
  induction k with
  | zero => rfl
  | succ k ih =>
    rw [mergeN, mergeN, ih (by omega), parentCV, parentCV, parentNode_withStack,
      stackEntry_withStack hl (by omega)]

/-- A fold from `d` entries takes those below `d` (R156). -/
theorem foldFrom_withStack {st : Vector CV 54} {b : B3C} (hl : LiveAgree st b) (d : Nat) (n : Node)
    (hd : d ≤ b.depth.val) : foldFrom (withStack st b) d n = foldFrom b d n := by
  induction d generalizing n with
  | zero => rfl
  | succ d ih =>
    rw [foldFrom, foldFrom, parentNode_withStack, stackEntry_withStack hl (by omega), ih _ (by omega)]

theorem rootFold_withStack {st : Vector CV 54} {b : B3C} (hl : LiveAgree st b) :
    rootFold (withStack st b) = rootFold b := by
  rw [rootFold, rootFold, chunkNode_withStack, withStack_depth, foldFrom_withStack hl _ _ (Nat.le_refl _)]

/-! ## A close, a byte, an input -/

/-- The stack `st` after a close of `b` that makes `k` merges (R152). -/
def closedStack (st : Vector CV 54) (b : B3C) (k : Nat) : Vector CV 54 :=
  st.setIfInBounds (b.depth.val - k) (mergeN b b.depth.val (nodeCV (chunkNode b)) k)

theorem closed_withStack {st : Vector CV 54} {b : B3C} (hl : LiveAgree st b) {k : Nat} (hk : k ≤ b.depth.val) :
    closed (withStack st b) k = withStack (closedStack st b k) (closed b k) := by
  rw [closed, withStack_depth, mergeN_withStack hl _ k hk, chunkNode_withStack, closed, closedStack]
  simp only [chunkReset, pushCV, withStack]

/-- A close writes the same entry over both stacks, and the entries below it are live before it (R152). -/
theorem liveAgree_closed {st : Vector CV 54} {b : B3C} (hl : LiveAgree st b) {k : Nat}
    (hk : k ≤ b.depth.val) (h54 : b.depth.val - k < 54) : LiveAgree (closedStack st b k) (closed b k) := by
  intro d hd
  rw [closed_depth b k h54] at hd
  simp only [closedStack, closed_stack, Fin.getElem_fin, Vector.getElem_setIfInBounds]
  split
  · rfl
  · exact hl d (by omega)

theorem closeChecked_withStack {st : Vector CV 54} {b c : B3C} (hl : LiveAgree st b) (h : closeChecked b = .ok c) :
    ∃ st', closeChecked (withStack st b) = .ok (withStack st' c) ∧ LiveAgree st' c := by
  obtain ⟨hcc, h54, htz, rfl⟩ := closeChecked_ok h
  refine ⟨closedStack st b (tz (b.ccnt.toNat + 1)), ?_, liveAgree_closed hl htz h54⟩
  rw [← closed_withStack hl htz]
  rcases closeChecked_cases (withStack st b) with ⟨h1, _⟩ | ⟨_, h2, _⟩ | ⟨_, h3, _⟩ | ⟨_, _, _, e⟩
  · exact absurd h1 hcc
  · rw [withStack_depth, withStack_ccnt] at h2; omega
  · rw [withStack_depth, withStack_ccnt] at h3; omega
  · exact e

theorem closeIfFull_withStack {st : Vector CV 54} {b c : B3C} (hl : LiveAgree st b) (h : closeIfFull b = .ok c) :
    ∃ st', closeIfFull (withStack st b) = .ok (withStack st' c) ∧ LiveAgree st' c := by
  by_cases hf : chunkLen b = 1024
  · rw [closeIfFull_of_full hf] at h
    rw [closeIfFull_of_full (by rw [chunkLen_withStack, hf])]
    exact closeChecked_withStack hl h
  · rw [closeIfFull_of_ne hf] at h
    cases h
    exact ⟨st, closeIfFull_of_ne (by rw [chunkLen_withStack]; exact hf), hl⟩

/-- A byte in the current chunk leaves the live entries as they are. -/
theorem liveAgree_pushByte {st : Vector CV 54} {b : B3C} (hl : LiveAgree st b) (x : Byte) :
    LiveAgree st (pushByte b x) := by
  obtain ⟨_, _, _, _, e⟩ := pushByte_frame b x
  rw [e]; exact hl

theorem absorbByte_withStack {st : Vector CV 54} {b c : B3C} {x : Byte} (hl : LiveAgree st b)
    (h : absorbByte b x = .ok c) :
    ∃ st', absorbByte (withStack st b) x = .ok (withStack st' c) ∧ LiveAgree st' c := by
  rw [absorbByte] at h
  cases hc : closeIfFull b with
  | error e => rw [hc] at h; cases h
  | ok d =>
    rw [hc] at h
    cases h
    obtain ⟨st', e, hl'⟩ := closeIfFull_withStack hl hc
    exact ⟨st', by rw [absorbByte, e, ← pushByte_withStack], liveAgree_pushByte hl' x⟩

/-- An input that is absorbed is absorbed over any other dead entries, to the same machine but for those (R27, R183). -/
theorem absorbBytes_withStack {st : Vector CV 54} {xs : List Byte} {b c : B3C} (hl : LiveAgree st b)
    (h : absorbBytes xs b = .ok c) :
    ∃ st', absorbBytes xs (withStack st b) = .ok (withStack st' c) ∧ LiveAgree st' c := by
  induction xs generalizing st b with
  | nil => cases h; exact ⟨st, rfl, hl⟩
  | cons x xs ih =>
    rw [absorbBytes_cons] at h
    cases hb : absorbByte b x with
    | error e => rw [hb] at h; cases h
    | ok d =>
      rw [hb] at h
      obtain ⟨st', e, hl'⟩ := absorbByte_withStack hl hb
      obtain ⟨st'', e', hl''⟩ := ih hl' h
      exact ⟨st'', by rw [absorbBytes_cons, e]; exact e', hl''⟩

theorem absorbBody_withStack {st : Vector CV 54} {n : Nat} {b c : B3C} (hl : LiveAgree st b)
    (h : absorbBody n b = .ok c) :
    ∃ st', absorbBody n (withStack st b) = .ok (withStack st' c) ∧ LiveAgree st' c := by
  obtain ⟨hn, hp, ha⟩ := absorbBody_ok h
  rw [absorbBody_of_absorbing (by rw [withStack_phase, hp]) hn, absorbOperand_withStack]
  exact absorbBytes_withStack hl ha

theorem finalizeBody_withStack {st : Vector CV 54} {b c : B3C} (hl : LiveAgree st b) (h : finalizeBody b = .ok c) :
    finalizeBody (withStack st b) = .ok (withStack st c) := by
  obtain ⟨hp, rfl⟩ := finalizeBody_ok h
  simp only [finalizeBody, withStack_phase, hp, rootFold_withStack hl]
  simp only [captureRoot, withStack]

/-- Settles O39: ABSORB and FINALIZE read live entries only, and a close writes the same live entries. -/
theorem deadStackEntriesUnread : Obligations.DeadStackEntriesUnread := by
  intro b c hc hl
  change c = withStack c.stack b at hc
  change LiveAgree c.stack b at hl
  rw [hc]
  refine ⟨fun n b' h => ?_, fun b' h => finalizeBody_withStack hl h⟩
  obtain ⟨st', e, hl'⟩ := absorbBody_withStack hl h
  exact ⟨_, e, rfl, hl'⟩

end Sys2Proof.Machine
end

section
/-! Every step keeps the invariant (10_state.md R26 to R30). The clauses about the accumulator and the stack are kept byte
by byte (`AccInv`); the others speak of what a step either leaves alone or writes whole. -/

namespace Sys2Proof.Machine

/-! ## Steps that leave the hash alone -/

/-- The invariant speaks of the hash and of the error status only. -/
theorem B3C.Inv.of_sameHash {b c : B3C} (hi : b.Inv) (h : SameHash c b) (he : c.err = true ↔ c.errCode ≠ .none) :
    c.Inv := by
  obtain ⟨hphase, hmode, hbk, hbf, hcscv, hccnt, hblocks, hbuf, hbufLen, hstack, hdepth, hrCv, hrBlk, hrBlen, hrFlg,
    hxpos⟩ := h
  have hg : c = graft c b := by rw [graft, ← hbk, ← hbf, ← hcscv, ← hccnt, ← hblocks, ← hbuf, ← hbufLen, ← hstack, ← hdepth]
  have hroot : rootFold c = rootFold b := by rw [hg, rootFold_graft]
  obtain ⟨i1, i2, i3, i4, i5, i6, i7, i8, i9, i10, i11, _⟩ := hi
  constructor
  case err_code => exact he
  all_goals
    simp only [hphase, hmode, hbk, hbf, hcscv, hccnt, hblocks, hbuf, hbufLen, hstack, hdepth, hrCv, hrBlk, hrBlen, hrFlg,
      hxpos, hroot]
    assumption

theorem rootFold_set_xpos (b : B3C) (x : U64) : rootFold { b with xpos := x } = rootFold b :=
  rootFold_graft { b with xpos := x } b

/-- XPOS moves freely in FINALIZED (R28, R203). -/
theorem B3C.Inv.set_xpos {b : B3C} (hi : b.Inv) (hp : b.phase = .finalized) (x : U64) : { b with xpos := x }.Inv where
  buf_zero := hi.buf_zero
  block_follows := hi.block_follows
  chunk_follows := hi.chunk_follows
  chunk_start := hi.chunk_start
  depth_popcount := hi.depth_popcount
  idle_hash := hi.idle_hash
  base_flags := hi.base_flags
  base_key := hi.base_key
  root_clear := fun h => absurd hp h
  root_fold := by rw [rootFold_set_xpos]; exact hi.root_fold
  root_blen := hi.root_blen
  err_code := hi.err_code

/-! ## INIT and FINALIZE -/

/-- INIT writes the whole hash (R182). -/
theorem initBody_inv (m : Mode) {b : B3C} (he : b.err = true ↔ b.errCode ≠ .none) : (initBody m b).Inv where
  buf_zero := by simp
  block_follows := by simp
  chunk_follows := by simp
  chunk_start := by simp
  depth_popcount := by simp
  idle_hash := by simp
  base_flags := by simp
  base_key := by
    simp only [initBody_mode, initBody_bk]
    rintro _ (rfl | rfl) <;> rfl
  root_clear := by simp
  root_fold := by simp
  root_blen := by simp
  err_code := by simpa using he

theorem parentNode_blen (b : B3C) (l r : CV) : (parentNode b l r).blen = 64 := rfl

theorem chunkNode_blen_le (b : B3C) : (chunkNode b).blen.toNat ≤ 64 := by
  have hl := b.bufLen.isLt
  change b.bufLen.val % 256 ≤ 64
  omega

/-- The root Node is the chunk's or a parent's (R156), so its block length is in range (R111). -/
theorem rootFold_blen_le (b : B3C) : (rootFold b).blen.toNat ≤ 64 := by
  change (foldFrom b b.depth.val (chunkNode b)).blen.toNat ≤ 64
  cases hd : b.depth.val with
  | zero => exact chunkNode_blen_le b
  | succ d =>
    obtain ⟨cv, e⟩ := foldFrom_succ_isParent b d (chunkNode b)
    rw [e, parentNode_blen]
    decide

/-- RootFold reads nothing that FINALIZE writes (R184). -/
theorem rootFold_captureRoot (n : Node) (b : B3C) : rootFold (captureRoot n b) = rootFold b := by
  have hg : captureRoot n b = graft (captureRoot n b) b := by simp only [captureRoot, graft]
  rw [hg, rootFold_graft]

/-- FINALIZE captures the root of what the accumulator and the stack hold (R184). -/
theorem captureRoot_inv {b : B3C} (hi : b.Inv) (hp : b.phase = .absorbing) : (captureRoot (rootFold b) b).Inv where
  buf_zero := by simpa using hi.buf_zero
  block_follows := by simpa using hi.block_follows
  chunk_follows := by simpa using hi.chunk_follows
  chunk_start := by simpa using hi.chunk_start
  depth_popcount := by simpa using hi.depth_popcount
  idle_hash := by simp
  base_flags := by simpa [hp] using hi.base_flags
  base_key := by simpa [hp] using hi.base_key
  root_clear := by simp
  root_fold := by simp [rootFold_captureRoot]
  root_blen := by simpa using rootFold_blen_le b
  err_code := by simpa using hi.err_code

/-! ## ABSORB, byte by byte -/

/-- What the invariant says of the accumulator and the stack at every byte of an input, also between a chunk close and the
byte that follows it. -/
structure AccInv (b : B3C) : Prop where
  buf_zero : ∀ j : Fin 64, b.bufLen.val ≤ j.val → b.buf[j] = 0
  chunk_start : b.blocks.val = 0 → b.cscv = b.bk
  depth_popcount : b.depth.val = popcount b.ccnt.toNat

theorem B3C.Inv.accInv {b : B3C} (hi : b.Inv) : AccInv b := ⟨hi.buf_zero, hi.chunk_start, hi.depth_popcount⟩

/-- A fill writes from BUFLEN on, and BUFLEN goes past what it wrote (R132). -/
theorem AccInv.fillBuf {b : B3C} (ha : AccInv b) (xs : List Byte) : AccInv (fillBuf b xs) where
  buf_zero := by
    intro j hj
    have hlt := j.isLt
    rw [fillBuf_bufLen_val] at hj
    rw [Fin.getElem_fin, getElem_fillBuf, if_neg (by omega)]
    exact ha.buf_zero j (by omega)
  chunk_start := by simpa using ha.chunk_start
  depth_popcount := by simpa using ha.depth_popcount

/-- A compressed block is not the chunk's start any more (R131): BLOCKS does not wrap. -/
theorem AccInv.compressBlock {b : B3C} (ha : AccInv b) (hk : b.blocks.val < 15) : AccInv (compressBlock b) where
  buf_zero := by simp
  chunk_start := by
    have hv : (b.blocks + 1).val = b.blocks.val + 1 := by
      rw [Fin.val_add]
      exact Nat.mod_eq_of_lt (by simp; omega)
    rw [compressBlock_blocks, hv]
    exact fun h => absurd h (Nat.succ_ne_zero _)
  depth_popcount := by simpa using ha.depth_popcount

/-- A close makes tz(CCNT + 1) merges and one push, so DEPTH stays the popcount of CCNT (R153). -/
theorem AccInv.closed {b : B3C} (ha : AccInv b) (hcc : b.ccnt.toNat ≠ 2 ^ 64 - 1)
    (h54 : b.depth.val - tz (b.ccnt.toNat + 1) < 54) : AccInv (closed b (tz (b.ccnt.toNat + 1))) where
  buf_zero := by simp
  chunk_start := by simp
  depth_popcount := by
    have hlt := b.ccnt.isLt
    have hs : b.ccnt.toNat + 1 < 2 ^ 64 := by omega
    have hsucc := popcount_succ b.ccnt.toNat hs
    have hle := tz_succ_le_popcount b.ccnt.toNat hs
    have hd := ha.depth_popcount
    rw [closed_depth _ _ h54, closed_ccnt, ccnt_succ_toNat hcc]
    omega

theorem AccInv.pushByte {b : B3C} (ha : AccInv b) (h : chunkLen b < 1024) (x : Byte) : AccInv (pushByte b x) := by
  unfold chunkLen at h
  by_cases hf : b.bufLen.val = 64
  · rw [Machine.pushByte, makeRoom_of_full hf]
    exact (ha.compressBlock (by omega)).fillBuf [x]
  · rw [Machine.pushByte, makeRoom_of_ne hf]
    exact ha.fillBuf [x]

/-- After a byte the buffer is not empty (R26(c), R154). -/
theorem bufLen_pushByte_pos (b : B3C) (x : Byte) : 1 ≤ (pushByte b x).bufLen.val := by
  have hlt := makeRoom_bufLen_lt b
  rw [pushByte, fillBuf_bufLen_val, List.length_singleton]
  omega

theorem AccInv.absorbByte {b c : B3C} {x : Byte} (ha : AccInv b) (h : absorbByte b x = .ok c) :
    AccInv c ∧ 1 ≤ c.bufLen.val := by
  have hle := chunkLen_le b
  rcases absorbByte_cases h with ⟨hne, rfl⟩ | ⟨_, hcc, h54, _, rfl⟩
  · exact ⟨ha.pushByte (by omega) x, bufLen_pushByte_pos b x⟩
  · exact ⟨(ha.closed hcc h54).pushByte (by simp [chunkLen]) x, bufLen_pushByte_pos _ x⟩

/-- An input keeps the accumulator's clauses, and leaves the buffer not empty unless it wrote nothing (R183). -/
theorem AccInv.absorbBytes {xs : List Byte} {b c : B3C} (ha : AccInv b) (h : absorbBytes xs b = .ok c) :
    AccInv c ∧ (c = b ∨ 1 ≤ c.bufLen.val) := by
  induction xs generalizing b with
  | nil => cases h; exact ⟨ha, .inl rfl⟩
  | cons x xs ih =>
    rw [absorbBytes_cons] at h
    cases hb : Machine.absorbByte b x with
    | error e => rw [hb] at h; cases h
    | ok d =>
      rw [hb] at h
      obtain ⟨hd, hpos⟩ := ha.absorbByte hb
      obtain ⟨hc, hcd⟩ := ih hd h
      refine ⟨hc, .inr ?_⟩
      rcases hcd with rfl | hpos'
      · exact hpos
      · exact hpos'

theorem absorbBytes_inv {xs : List Byte} {b c : B3C} (hi : b.Inv) (hp : b.phase = .absorbing)
    (h : absorbBytes xs b = .ok c) : c.Inv := by
  obtain ⟨hacc, rfl | hpos⟩ := hi.accInv.absorbBytes h
  · exact hi
  obtain ⟨_, _, _, _, _, _, _, rfl⟩ := absorbBytes_frame h
  exact
    { buf_zero := hacc.buf_zero
      block_follows := fun _ => hpos
      chunk_follows := fun _ => hpos
      chunk_start := hacc.chunk_start
      depth_popcount := hacc.depth_popcount
      idle_hash := fun hidle => absurd (hp.symm.trans hidle) (by decide)
      base_flags := hi.base_flags
      base_key := hi.base_key
      root_clear := hi.root_clear
      root_fold := fun hfin => absurd (hp.symm.trans hfin) (by decide)
      root_blen := hi.root_blen
      err_code := hi.err_code }

/-! ## Commands and steps -/

/-- Every command that commits keeps the invariant. -/
theorem execBody_inv {i : Instr} {b c : B3C} (hi : b.Inv) (h : execBody i b = .ok c) : c.Inv := by
  cases i with
  | nop => cases h; exact hi
  | init m => cases h; exact initBody_inv m hi.err_code
  | absorb n => obtain ⟨_, hp, ha⟩ := absorbBody_ok h; exact absorbBytes_inv hi hp ha
  | finalize => obtain ⟨hp, rfl⟩ := finalizeBody_ok h; exact captureRoot_inv hi hp
  | xofRead n =>
    obtain ⟨_, hp, _, rfl⟩ := xofReadBody_ok h
    exact (hi.set_xpos hp (BitVec.ofNat 64 (b.xpos.toNat + n))).of_sameHash (by simp [SameHash]) hi.err_code
  | xofSeek => obtain ⟨hp, rfl⟩ := xofSeekBody_ok h; exact hi.set_xpos hp _
  | compress => obtain ⟨_, rfl⟩ := compressBody_ok h; exact hi.of_sameHash (by simp [SameHash]) hi.err_code

/-- The first error recorded is one (R223): the one held, or the new one where none was held. -/
theorem firstError_ne_none {b : B3C} {c : ErrCode} (he : b.err = true ↔ b.errCode ≠ .none) (hc : c ≠ .none) :
    (if b.err then b.errCode else c) ≠ .none := by
  split
  · exact he.mp ‹_›
  · exact hc

/-- A host write raises BUSY_WRITE or leaves the error status alone (R256). -/
theorem hostWrite_err_code {r : Reg} {v : Word} {b : B3C} (he : b.err = true ↔ b.errCode ≠ .none) :
    (hostWrite r v b).err = true ↔ (hostWrite r v b).errCode ≠ .none := by
  rcases hostWrite_cases r v b with ⟨_, e⟩ | ⟨_, _, _, e⟩ | ⟨_, _, _, e⟩ | ⟨_, _, e⟩
  · rw [e, recordError_eq]
    exact iff_of_true rfl (firstError_ne_none he (by decide))
  · rw [e]; exact he
  · rw [e]; exact he
  · rw [e, storeReg_err, storeReg_errCode]; exact he

/-- Settles O58: a commit keeps the invariant, the reset makes it hold, and every other step leaves the hash alone and
records an error with its code. -/
theorem stepKeepsInvariant : Obligations.StepKeepsInvariant := by
  intro s t hi h
  change s.b3c.Inv at hi
  change t.b3c.Inv
  rcases step_machine_cases h with ⟨s', _, ⟨c, e, hc⟩ | ⟨i, b, _, hb, e⟩⟩ | ⟨r, v, e, _⟩ | ⟨e, _⟩ | ⟨_, e⟩ <;> rw [e]
  · exact hi.of_sameHash (by simp [SameHash]) (iff_of_true rfl (firstError_ne_none hi.err_code hc))
  · have hib := execBody_inv hi hb
    exact hib.of_sameHash (by simp [SameHash]) hib.err_code
  · exact hi.of_sameHash (sameHash_hostWrite r v s.b3c) (hostWrite_err_code hi.err_code)
  · exact hi
  · exact invariantHoldsAtReset

end Sys2Proof.Machine
end

section
/-! DIN's bytes past ABSORB's count (20_memory.md R64): the operand of ABSORB is its first bytes only, and absorbing does not
read DIN again. -/

namespace Sys2Proof.Machine

open Sys2Proof.Claims

/-- The machine `b` with other words in DIN. -/
def withDin (din : Block) (b : B3C) : B3C := { b with din := din }

/-- The state `s` with other words in the machine's DIN. -/
def State.withDin (din : Block) (s : State) : State := { s with b3c := Machine.withDin din s.b3c }

/-! ## The operand (R64) -/

/-- Byte `j` in stream order is byte `j` of `Bytes(W)` (R8, R64). -/
theorem streamByte_eq_getElem_bytesOf (w : Block) (j : Nat) (h : j < 64) : streamByte w j = (bytesOf w)[j] := by
  have hj : j / 4 < w.toList.length := by rw [Vector.length_toList]; omega
  rw [getElem_bytesOf, streamByte, List.getD_eq_getElem _ _ hj, Vector.getElem_toList, byteOf]

/-- ABSORB's operand depends on the first `n` bytes of DIN only. -/
theorem absorbOperand_withDin {din : Block} {b : B3C} {n : Nat} (h : ∀ j, j < n → streamByte din j = streamByte b.din j) :
    absorbOperand (withDin din b) n = absorbOperand b n := by
  apply List.ext_getElem (by simp [absorbOperand])
  intro j hj _
  obtain ⟨hn, h64⟩ : j < n ∧ j < 64 := by simpa [absorbOperand] using hj
  have hbyte : (bytesOf din)[j] = (bytesOf b.din)[j] := by
    rw [← streamByte_eq_getElem_bytesOf, h j hn, streamByte_eq_getElem_bytesOf]
  simpa only [absorbOperand, withDin, List.getElem_take, Vector.getElem_toList] using hbyte

/-! ## The command (R183) -/

/-- The bytes are absorbed into the accumulator and the stack, and DIN stays as it is. -/
theorem absorbBytes_withDin (din : Block) (xs : List Byte) (b : B3C) :
    absorbBytes xs (withDin din b) = (absorbBytes xs b).map (withDin din) := by
  have hgraft : absorbBytes xs (withDin din b) = (absorbBytes xs b).map (graft (withDin din b)) :=
    absorbBytes_graft (withDin din b) xs b
  rw [hgraft]
  cases ha : absorbBytes xs b with
  | error e => rfl
  | ok c =>
    have hc : graft (withDin din b) c = withDin din (graft b c) := rfl
    simp only [Except.map, hc, ← absorbBytes_eq_graft ha]

theorem absorbBody_withDin {din : Block} {b : B3C} {n : Nat} (h : ∀ j, j < n → streamByte din j = streamByte b.din j) :
    absorbBody n (withDin din b) = (absorbBody n b).map (withDin din) := by
  have hphase : (withDin din b).phase = b.phase := rfl
  unfold absorbBody
  rw [absorbOperand_withDin h, absorbBytes_withDin, hphase]
  split
  · rfl
  · cases b.phase <;> rfl

/-- Error entry keeps DIN (R223). -/
theorem errorEntry_withDin (c : ErrCode) (din : Block) (s : State) :
    errorEntry c (s.withDin din) = (errorEntry c s).withDin din := by
  simp only [errorEntry, recordError_eq, State.withDin, withDin]

/-- What ABSORB answers over another DIN that agrees below the count: the same, but for DIN itself (R64, R91). -/
theorem exec_absorb_withDin {din : Block} {s : State} {n : Nat}
    (h : ∀ j, j < n → streamByte din j = streamByte s.b3c.din j) :
    (∀ t, exec (.absorb n) s = .next t → exec (.absorb n) (s.withDin din) = .next (t.withDin din)) ∧
    (∀ f, exec (.absorb n) s = .fault f → exec (.absorb n) (s.withDin din) = .fault f) := by
  have hbody : execBody (.absorb n) (s.withDin din).b3c = (execBody (.absorb n) s.b3c).map (withDin din) :=
    absorbBody_withDin h
  rw [exec_eq_commit, exec_eq_commit, hbody]
  cases execBody (.absorb n) s.b3c with
  | ok b => exact ⟨by rintro t ⟨⟩; rfl, nofun⟩
  | error e => cases e with
    | error c =>
      refine ⟨fun t ht => ?_, nofun⟩
      obtain rfl : errorEntry c s = t := by simpa using ht
      exact congrArg _ (errorEntry_withDin c din s)
    | fault f => simp [Except.map]

/-- Settles O19: the operand is the same, and absorbing it does not read or write DIN. -/
theorem absorbIgnoresBytesPastCount : Obligations.AbsorbIgnoresBytesPastCount :=
  fun _ _ _ h => exec_absorb_withDin h

end Sys2Proof.Machine
end

section
/-! The host's accesses (10_state.md R34 to R48, 20_memory.md R60 to R77): what a write stores and what it leaves, what a
read returns, and which accesses are turned away. -/

namespace Sys2Proof.Machine

open Sys2Proof.Claims

/-! ## Writes (R70) -/

/-- A host write that is no command, with nothing pending, stores its word. -/
theorem hostWrite_eq_storeReg {r : Reg} {v : Word} {b : B3C} (hb : b.busy = false) (hr : r ≠ .cmd) :
    hostWrite r v b = storeReg r v b := by
  simp [hostWrite, hb, hr]

/-- An RO register or a reserved offset stores nothing (R70, R48). -/
theorem storeReg_eq_self {r : Reg} (v : Word) (b : B3C) (h : isRW r = false) : storeReg r v b = b := by
  cases r with
  | seekLo | seekHi | cctrLo | cctrHi | cparam | key _ | cv _ | din _ => cases h
  | id | cmd | status | info | ccntLo | ccntHi | xposLo | xposHi | reserved _ | dout _ => rfl

/-- CPARAM's 16 writable bits, read as a Word (R43). -/
theorem zeroExtend_extractLsb'_eq_and (v : Word) : (v.extractLsb' 0 16).zeroExtend 32 = v &&& 0x0000FFFF := by
  apply BitVec.eq_of_toNat_eq
  have hmask : v.toNat &&& 65535 = v.toNat % 65536 := Nat.and_two_pow_sub_one_eq_mod _ 16
  have hlt : v.toNat % 65536 % 4294967296 = v.toNat % 65536 := by omega
  simp [hmask, hlt]

/-- An RW register reads back what was stored (R34, R43). -/
theorem readReg_storeReg_self {r : Reg} (v : Word) (b : B3C) (h : isRW r = true) :
    readReg (storeReg r v b) r = readBack r v := by
  cases r with
  | cparam => exact zeroExtend_extractLsb'_eq_and v
  | key j | cv j | din j => simp [storeReg, readReg, readBack]
  | seekLo | seekHi | cctrLo | cctrHi => rfl
  | id | cmd | status | info | ccntLo | ccntHi | xposLo | xposHi | reserved _ | dout _ => cases h

/-- No other register reads differently (R70): what RO registers show is no operand, and an operand is its own field. -/
theorem readReg_storeReg_ne {r r' : Reg} (v : Word) (b : B3C) (h : r ≠ r') :
    readReg (storeReg r v b) r' = readReg b r' := by
  cases r' with
  | id | cmd | reserved _ => rfl
  | status => simp [readReg, statusWord]
  | info => simp [readReg, infoWord]
  | ccntLo | ccntHi | xposLo | xposHi | dout _ => simp [readReg]
  | seekLo | seekHi | cctrLo | cctrHi | cparam | key _ | cv _ | din _ =>
    cases r <;> simp_all [readReg, storeReg, Fin.val_inj]

/-- Settles O49: the write stores its word in the operand it names. -/
theorem writtenRegisterReadsBack : Obligations.WrittenRegisterReadsBack := by
  intro s host r v rest hi hm hb hrw
  have hcmd : r ≠ .cmd := by rintro rfl; cases hrw
  refine ⟨_, step_wrReg hi hm, rfl, ?_⟩
  simp only [hostWrite_eq_storeReg hb hcmd]
  refine ⟨readReg_storeReg_self v _ hrw, fun r' hr' => readReg_storeReg_ne v _ hr'.symm, ?_⟩
  simp [SameHash, SameStatus]

/-- Settles O50: what is no operand stores nothing. -/
theorem readOnlyWriteIgnored : Obligations.ReadOnlyWriteIgnored := by
  intro s host r v rest hi hm hb hro hcmd
  refine ⟨_, step_wrReg hi hm, rfl, ?_⟩
  simp only [hostWrite_eq_storeReg hb hcmd, storeReg_eq_self v _ hro]

/-! ## Reads (R70, R257) -/

theorem hostReadValue_of_defined {r : Reg} {b : B3C} (free : Word) (h : b.busy = false ∨ unspecifiedWhenBusy r = false) :
    hostReadValue r free b = readReg b r := by
  rcases h with h | h <;> simp [hostReadValue, h]

theorem hostReadValue_of_unspecified {r : Reg} {b : B3C} (free : Word) (hb : b.busy = true)
    (hr : unspecifiedWhenBusy r = true) : hostReadValue r free b = free := by
  simp [hostReadValue, hb, hr]

theorem readAccess_freeCount_of_defined (host : Nat) {r : Reg} {s : State}
    (h : s.b3c.busy = false ∨ unspecifiedWhenBusy r = false) : (readAccess host r s).freeCount = s.freeCount := by
  rcases h with h | h <;> simp [readAccess, h]

theorem readAccess_freeCount_of_unspecified (host : Nat) {r : Reg} {s : State} (hb : s.b3c.busy = true)
    (hr : unspecifiedWhenBusy r = true) : (readAccess host r s).freeCount = s.freeCount + 1 := by
  simp [readAccess, hb, hr]

/-- Settles O51: the value and the count of free values, register by register and with BUSY 0 or 1. -/
theorem readHasNoSideEffect : Obligations.ReadHasNoSideEffect := by
  intro s host r rest hi hm
  refine ⟨_, _, step_rdReg hi hm, rfl, rfl, rfl, rfl, ?_, ?_, ?_, ?_, ?_⟩
  · exact fun hb => ⟨hostReadValue_of_defined _ (.inl hb), readAccess_freeCount_of_defined host (.inl hb)⟩
  · exact fun _ hr => ⟨hostReadValue_of_defined _ (.inr hr), readAccess_freeCount_of_defined host (.inr hr)⟩
  · exact fun hb hr => ⟨hostReadValue_of_unspecified _ hb hr, readAccess_freeCount_of_unspecified host hb hr⟩
  · rintro (rfl | ⟨j, rfl⟩) <;> exact hostReadValue_of_defined _ (.inr rfl)
  · rintro rfl
    exact hostReadValue_of_defined _ (.inr rfl)

/-! ## The one host (R77) -/

/-- Once one host drives the machine, no other may. -/
theorem mayDrive_other {host other : Nat} (h : other ≠ host) : mayDrive (some host) other = false := by
  simp [mayDrive, h.symm]

/-- Settles O47: a write and a read both make their host the owner. -/
theorem accessMakesOneHost : Obligations.AccessMakesOneHost := by
  rintro s host r v rest (hi | hi) hm
  · exact ⟨_, step_wrReg hi hm, rfl, rfl, fun _ h => mayDrive_other h, fun _ => ⟨rfl, rfl⟩⟩
  · refine ⟨_, step_rdReg hi hm, rfl, rfl, fun _ h => mayDrive_other h, fun hw => ?_⟩
    rw [hi] at hw
    cases hw

/-! ## Accesses that reach no register (R60, R62, R77) -/

theorem reachesWindow_of_outside {addr width : Nat}
    (h : Config.b3cBase + 256 ≤ addr ∨ addr + width ≤ Config.b3cBase ∧ 1 ≤ width) : reachesWindow addr width = false := by
  simp only [reachesWindow, decide_eq_false_iff_not]
  omega

theorem resolveAccess_of_outside (owner : Option Nat) (host : Nat) {addr width : Nat}
    (h : reachesWindow addr width = false) : resolveAccess owner host addr width = .unanswered := by
  rw [resolveAccess, if_pos h]

theorem resolveAccess_of_width (owner : Option Nat) (host : Nat) {addr width : Nat}
    (h : reachesWindow addr width = true) (hw : width ≠ 4) :
    resolveAccess owner host addr width = .refused .accessWidth := by
  rw [resolveAccess, if_neg (by simp [h]), if_pos hw]

theorem resolveAccess_of_misaligned (owner : Option Nat) (host : Nat) {addr : Nat}
    (h : reachesWindow addr 4 = true) (ha : addr % 4 ≠ 0) : resolveAccess owner host addr 4 = .refused .misaligned := by
  rw [resolveAccess, if_neg (by simp [h]), if_neg (by simp), if_pos ha]

theorem resolveAccess_of_secondHost {owner : Option Nat} {host addr : Nat}
    (h : reachesWindow addr 4 = true) (ha : addr % 4 = 0) (hm : mayDrive owner host = false) :
    resolveAccess owner host addr 4 = .refused .secondHost := by
  rw [resolveAccess, if_neg (by simp [h]), if_neg (by simp), if_neg (by simp [ha]), if_pos hm]

section
variable {s : State} {host addr width : Nat} {v : Word} {rest : List Event}
  (hi : s.inputs = .write host addr width v :: rest ∨ s.inputs = .read host addr width :: rest)
include hi

/-- A refused access stops the model by the refusal's name, be it a write or a read. -/
theorem step_of_refused {r : Refusal} (h : resolveAccess s.owner host addr width = .refused r) :
    step s = .refused r := by
  rcases hi with hi | hi
  · rw [step_of_inputs hi, eventStep_write, memWrite_of_refused (s := { s with inputs := rest }) h]
  · rw [step_of_inputs hi, eventStep_read, memRead_of_refused (s := { s with inputs := rest }) h]

/-- An unanswered access changes nothing, be it a write or a read. -/
theorem step_of_unanswered (h : resolveAccess s.owner host addr width = .unanswered) :
    step s = .next { s with inputs := rest } := by
  rcases hi with hi | hi
  · rw [step_of_inputs hi, eventStep_write, memWrite_of_unanswered (s := { s with inputs := rest }) h]
  · rw [step_of_inputs hi, eventStep_read, memRead_of_unanswered (s := { s with inputs := rest }) h]

end

/-- Settles O53: width, alignment and host are looked at in this order, for an access that touches the window. -/
theorem accessRefusals : Obligations.AccessRefusals := by
  intro s host addr width v rest hi
  refine ⟨fun hlt hge => ?_, fun ho => ?_⟩
  · have hreach := reachesWindow_of_touch hlt hge
    refine ⟨fun hw => step_of_refused hi (resolveAccess_of_width _ _ hreach hw), ?_, ?_⟩
    · rintro rfl ha
      exact step_of_refused hi (resolveAccess_of_misaligned _ _ hreach ha)
    · rintro rfl ha hm
      exact step_of_refused hi (resolveAccess_of_secondHost hreach ha hm)
  · exact step_of_unanswered hi (resolveAccess_of_outside _ _ (reachesWindow_of_outside ho))

end Sys2Proof.Machine
end

section
/-! The command word and its decoder (30_encoding.md R80 to R88): a word decodes to a command exactly when it has that
command's fields, so the decoder and the encoder are each other's inverse and the illegal words are R83's. -/

namespace Sys2Proof

open Sys2Proof.Claims Sys2Proof.Laws.EncodeFields

/-! ## A command and its fields (R80, R81) -/

/-- A command's word is built from its OP and its ARG (R88). -/
theorem encode_eq_commandWord (i : Instr) : encode i = commandWord (op i) (arg i) := by
  cases i <;> rfl

/-- The fields of every well-formed command's word. -/
theorem fields_encode (i : Instr) : Statement i := by
  cases i with
  | nop => exact Laws.EncodeFields.nop
  | init m => exact Laws.EncodeFields.init m
  | absorb n => exact Laws.EncodeFields.absorb n
  | finalize => exact Laws.EncodeFields.finalize
  | xofRead n => exact Laws.EncodeFields.xofRead n
  | xofSeek => exact Laws.EncodeFields.xofSeek
  | compress => exact Laws.EncodeFields.compress

theorem ofNumber_number (m : Mode) : Mode.ofNumber m.number = some m := by
  cases m <;> rfl

/-- A word with the fields of a well-formed command decodes to that command. -/
theorem decode_eq_ok_of_fields {w : Word} {i : Instr} (hwf : i.wf = true) (hop : opField w = op i)
    (harg : argField w = arg i) (hrsv : rsvField w = 0) : decode w = .ok i := by
  cases i with
  | nop | finalize | xofSeek | compress => simp [decode, decodeBare, hop, harg, hrsv, op, arg]
  | init m => simp [decode, decodeMode, hop, harg, hrsv, op, arg, ofNumber_number]
  | absorb n | xofRead n => simpa [decode, decodeCount, hop, harg, hrsv, op, arg, Instr.wf] using hwf

/-- A word decodes to a command exactly when the command is well formed and the word has its fields and RSV = 0. -/
theorem decode_eq_ok_iff {w : Word} {i : Instr} :
    decode w = .ok i ↔ i.wf = true ∧ opField w = op i ∧ argField w = arg i ∧ rsvField w = 0 := by
  refine ⟨fun h => ?_, fun ⟨hwf, hop, harg, hrsv⟩ => decode_eq_ok_of_fields hwf hop harg hrsv⟩
  obtain ⟨hrsv, hcases⟩ := decode_ok_cases h
  rcases hcases with ⟨hop, harg, rfl⟩ | ⟨hop, m, hm, rfl⟩ | ⟨hop, hn, rfl⟩ | ⟨hop, harg, rfl⟩ |
    ⟨hop, hn, rfl⟩ | ⟨hop, harg, rfl⟩ | ⟨hop, harg, rfl⟩
  · exact ⟨rfl, hop, harg, hrsv⟩
  · exact ⟨rfl, hop, (number_of_ofNumber hm).symm, hrsv⟩
  · exact ⟨decide_eq_true hn, hop, rfl, hrsv⟩
  · exact ⟨rfl, hop, harg, hrsv⟩
  · exact ⟨decide_eq_true hn, hop, rfl, hrsv⟩
  · exact ⟨rfl, hop, harg, hrsv⟩
  · exact ⟨rfl, hop, harg, hrsv⟩

/-- Settles O1: a well-formed command's word has the fields that decode to it. -/
theorem decodeOfEncode : Obligations.DecodeOfEncode := by
  intro i hwf
  obtain ⟨hop, harg, hrsv⟩ := fields_encode i hwf
  exact decode_eq_ok_of_fields hwf hop harg hrsv

/-- Settles O2: a word is its three fields, and these are the decoded command's. -/
theorem encodeOfDecode : Obligations.EncodeOfDecode := by
  intro w i h
  obtain ⟨hwf, hop, harg, hrsv⟩ := decode_eq_ok_iff.mp h
  refine ⟨hwf, ?_⟩
  rw [word_eq_fields w, hop, harg, hrsv, encode_eq_commandWord, commandWord, Nat.zero_mul, Nat.add_zero]

/-! ## The illegal words (R83) -/

/-- Every number up to 3 is a mode's (R87). -/
theorem exists_number {n : Nat} (h : n ≤ 3) : ∃ m : Mode, m.number = n := by
  interval_cases n
  · exact ⟨.plain, rfl⟩
  · exact ⟨.keyed, rfl⟩
  · exact ⟨.deriveCtx, rfl⟩
  · exact ⟨.deriveMat, rfl⟩

theorem number_le (m : Mode) : m.number ≤ 3 := ofNumber_le (ofNumber_number m)

/-- R81's constraint on OP and ARG says that they are those of some well-formed command. -/
theorem legalArg_iff_exists_command (o a : Nat) : legalArg o a ↔ ∃ i : Instr, i.wf = true ∧ o = op i ∧ a = arg i := by
  constructor
  · rintro (⟨rfl, rfl⟩ | ⟨rfl, ha⟩ | ⟨rfl, ha⟩ | ⟨rfl, rfl⟩ | ⟨rfl, ha⟩ | ⟨rfl, rfl⟩ | ⟨rfl, rfl⟩)
    · exact ⟨.nop, rfl, rfl, rfl⟩
    · obtain ⟨m, rfl⟩ := exists_number ha
      exact ⟨.init m, rfl, rfl, rfl⟩
    · exact ⟨.absorb a, decide_eq_true ha, rfl, rfl⟩
    · exact ⟨.finalize, rfl, rfl, rfl⟩
    · exact ⟨.xofRead a, decide_eq_true ha, rfl, rfl⟩
    · exact ⟨.xofSeek, rfl, rfl, rfl⟩
    · exact ⟨.compress, rfl, rfl, rfl⟩
  · rintro ⟨i, hwf, rfl, rfl⟩
    cases i with
    | nop | finalize | xofSeek | compress => simp [legalArg, op, arg]
    | init m => simpa [legalArg, op, arg] using number_le m
    | absorb n | xofRead n => simpa [legalArg, op, arg, Instr.wf] using hwf

/-- A word is legal exactly when RSV is 0 and its ARG meets R81's constraint for its OP. -/
theorem exists_decode_ok_iff (w : Word) :
    (∃ i, decode w = .ok i) ↔ rsvField w = 0 ∧ legalArg (opField w) (argField w) := by
  simp only [decode_eq_ok_iff, legalArg_iff_exists_command]
  exact ⟨fun ⟨i, hwf, hop, harg, hrsv⟩ => ⟨hrsv, i, hwf, hop, harg⟩,
    fun ⟨hrsv, i, hwf, hop, harg⟩ => ⟨i, hwf, hop, harg, hrsv⟩⟩

/-- A word is illegal exactly when RSV is not 0 or its ARG breaks R81's constraint for its OP. -/
theorem forall_decode_ne_ok_iff (w : Word) :
    (∀ i, decode w ≠ .ok i) ↔ rsvField w ≠ 0 ∨ ¬ legalArg (opField w) (argField w) := by
  rw [← not_exists, exists_decode_ok_iff, not_and_or]

/-- Settles O4: the table's words and the examples one by one. -/
theorem tableWordsDecode : Obligations.TableWordsDecode := by
  unfold Obligations.TableWordsDecode
  decide

end Sys2Proof
end

section
/-! The core's step (30_encoding.md R91): it runs the pending command or raises ILLEGAL_CMD, clears BUSY, and completes in
every state of the invariant; and a command commits whole, or enters one error, or meets the model's fault. -/

namespace Sys2Proof.Machine

/-! ## Error entry as a whole (R223) -/

theorem errorEntry_eq (c : ErrCode) (s : State) :
    errorEntry c s = { s with b3c := { s.b3c with
      busy := false, err := true, errCode := if s.b3c.err then s.b3c.errCode else c } } := by
  simp only [errorEntry, recordError_eq]

/-- Clearing BUSY after error entry changes nothing more. -/
theorem clearBusy_errorEntry (c : ErrCode) (s : State) : clearBusy (errorEntry c s) = errorEntry c s := by
  simp only [clearBusy, errorEntry]

/-! ## The core's step -/

/-- The core executes the pending command while BUSY is still set (R91). -/
theorem CoreMoves.busy {s s' : State} (hm : CoreMoves s s') : s'.b3c.busy = true := by
  rw [(step_of_coreMoves hm).2]
  exact hm.1

/-- The core's step on an illegal pending word enters ILLEGAL_CMD (R83, R91). -/
theorem step_of_illegal {s s' : State} (hm : CoreMoves s s') (h : ∀ i, decode s.b3c.pend ≠ .ok i) :
    step s = .next (errorEntry .illegalCmd s') := by
  obtain ⟨hstep, hs⟩ := step_of_coreMoves hm
  rw [← hs] at h
  cases hd : decode s'.b3c.pend with
  | ok i => exact absurd hd (h i)
  | error e => rw [hstep, coreStep_of_error hm.busy hd, clearBusy_errorEntry]

/-- Settles O3: the fields of an illegal word, and the error it enters. -/
theorem illegalWordRaisesIllegalCmd : Obligations.IllegalWordRaisesIllegalCmd := by
  refine fun w => ⟨?_, ?_⟩
  · rw [← rsvField_eq, ← opField_eq, ← argField_eq]
    exact forall_decode_ne_ok_iff w
  · rintro s s' hm rfl h
    rw [step_of_illegal hm h, errorEntry_eq]

/-- Settles O5: each outcome of `exec` is the step's, BUSY cleared. -/
theorem stepRunsPendingCommand : Obligations.StepRunsPendingCommand := by
  intro s s' i hm hd
  obtain ⟨hstep, hs⟩ := step_of_coreMoves hm
  rw [← hs] at hd
  rw [hstep, coreStep_of_ok hm.busy hd]
  refine ⟨fun t ht => ?_, fun f hf => ?_, fun r hr => ?_⟩
  · simp only [ht, clearBusy]
  · rw [hf]
  · rw [hr]

/-! ## No fault in a state of the invariant (R153, R26) -/

/-- A byte finds an entry for every merge, since DEPTH is the popcount of CCNT. -/
theorem AccInv.absorbByte_ne_fault {b : B3C} (ha : AccInv b) (x : Byte) (f : Fault) :
    Machine.absorbByte b x ≠ .error (.fault f) := by
  intro h
  unfold Machine.absorbByte at h
  by_cases hfull : chunkLen b = 1024
  · rw [closeIfFull_of_full hfull] at h
    rcases closeChecked_cases b with ⟨_, e⟩ | ⟨_, _, e⟩ | ⟨hcc, hlt, _⟩ | ⟨_, _, _, e⟩
    · rw [e] at h; cases h
    · rw [e] at h; cases h
    · have hccnt := b.ccnt.isLt
      have hle := tz_succ_le_popcount b.ccnt.toNat (by omega)
      have hdepth := ha.depth_popcount
      omega
    · rw [e] at h; cases h
  · rw [closeIfFull_of_ne hfull] at h
    cases h

theorem AccInv.absorbBytes_ne_fault {b : B3C} (ha : AccInv b) (xs : List Byte) (f : Fault) :
    Machine.absorbBytes xs b ≠ .error (.fault f) := by
  induction xs generalizing b with
  | nil => nofun
  | cons x xs ih =>
    rw [absorbBytes_cons]
    cases hb : Machine.absorbByte b x with
    | error e =>
      rintro ⟨⟩
      exact ha.absorbByte_ne_fault x f hb
    | ok c => exact ih (ha.absorbByte hb).1

/-- Only ABSORB can fault, and from the invariant it does not. -/
theorem execBody_ne_fault {b : B3C} (hi : b.Inv) (i : Instr) (f : Fault) : execBody i b ≠ .error (.fault f) := by
  intro h
  obtain ⟨n, rfl⟩ := execBody_fault h
  simp only [execBody, absorbBody] at h
  split at h
  · cases h
  · split at h
    · cases h
    · cases h
    · exact hi.accInv.absorbBytes_ne_fault _ f h

theorem exec_goesOn {s : State} (hi : s.b3c.Inv) (i : Instr) : goesOn (exec i s) := by
  rcases exec_cases i s with ⟨b, _, e⟩ | ⟨c, _, e⟩ | ⟨f, hf, _⟩
  · exact ⟨_, e⟩
  · exact ⟨_, e⟩
  · exact absurd hf (execBody_ne_fault hi i f)

/-- Settles O6: the core's last act is to clear BUSY, and no command faults from the invariant. -/
theorem coreStepClearsBusy : Obligations.CoreStepClearsBusy := by
  intro s s' hm
  obtain ⟨hstep, hs⟩ := step_of_coreMoves hm
  refine ⟨fun t ht => ?_, fun hi => ?_⟩
  · rw [hstep] at ht
    rcases coreStep_next_cases hm.busy ht with ⟨_, _, rfl⟩ | ⟨_, _, _, _, rfl⟩ <;> rfl
  · cases hd : decode s.b3c.pend with
    | error e => exact ⟨_, step_of_illegal hm (by simp [hd])⟩
    | ok i =>
      have hi' : s'.b3c.Inv := by rw [hs]; exact hi
      obtain ⟨t, ht⟩ := exec_goesOn hi' i
      exact ⟨_, (stepRunsPendingCommand s s' i hm hd).1 t ht⟩

/-! ## All or nothing (R91, R223, R224) -/

/-- Settles O7: the three ends of a command's body. -/
theorem commandIsAllOrNothing : Obligations.CommandIsAllOrNothing := by
  intro i s
  rcases exec_cases i s with ⟨b, hb, e⟩ | ⟨c, hc, e⟩ | ⟨f, hf, e⟩
  · obtain ⟨hops, hstatus⟩ := execBody_frame hb
    exact .inl ⟨_, e, hops, hstatus, rfl, rfl, rfl, rfl⟩
  · exact .inr (.inl ⟨c, execBody_error_ne_none hc, by rw [e, errorEntry_eq]⟩)
  · exact .inr (.inr ⟨execBody_fault hf, e⟩)

/-! ## COMPRESS (R110) -/

/-- BLEN is CPARAM's low byte as a number (R43). -/
theorem toNat_blenOperand (b : B3C) : (blenOperand b).toNat = b.cparam.toNat % 256 := by
  simp [blenOperand, BitVec.extractLsb'_toNat]

/-- COMPRESS with BLEN in range writes the compression of its operands to DOUT and nothing else. -/
theorem exec_compress_of_le {s : State} (h : (blenOperand s.b3c).toNat ≤ 64) :
    exec .compress s = .next { s with b3c := { s.b3c with
      dout := compress s.b3c.cv s.b3c.din (cctrOperand s.b3c) (blenOperand s.b3c) (flagsOperand s.b3c) } } := by
  rw [exec_eq_commit, execBody, compressBody, if_neg (by omega), commit_ok]

/-- Settles O31: what COMPRESS writes is a function of the operands, and it writes DOUT only. -/
theorem compressIgnoresHash : Obligations.CompressIgnoresHash := by
  intro s u hops hlen
  obtain ⟨_, hcv, hdin, hlo, hhi, hparam, _, _⟩ := hops
  refine ⟨_, _, exec_compress_of_le (by rw [toNat_blenOperand]; exact hlen),
    exec_compress_of_le (by rw [toNat_blenOperand, ← hparam]; exact hlen), ?_, ?_, ?_⟩
  · simp only [cctrOperand, blenOperand, flagsOperand, hcv, hdin, hlo, hhi, hparam]
  · simp [SameHash]
  · simp [SameHash]

end Sys2Proof.Machine
end

section
/-! Host programs (30_encoding.md R88, R89; 44_hasher.md R186): what the host does at each kind of line, and
what the lines of `key_from_out` do. -/

namespace Sys2Proof.Machine

open Sys2Proof.Claims

/-! ## Each kind of line -/

/-- The first `m` bytes of `Bytes(W)` in stream order (R8, R64). -/
theorem take_bytesOf_eq_map_streamByte (w : Block) {m : Nat} (h : m ≤ 64) :
    (bytesOf w).toList.take m = (List.range m).map fun j => streamByte w j := by
  apply List.ext_getElem (by simpa using h)
  intro j hj _
  obtain ⟨_, h64⟩ : j < m ∧ j < 64 := by simpa using hj
  rw [List.getElem_take, Vector.getElem_toList, List.getElem_map, List.getElem_range,
    streamByte_eq_getElem_bytesOf w j h64]

/-- Settles O55: one clause per kind of line. -/
theorem hostLinesRunAsWritten : Obligations.HostLinesRunAsWritten := by
  intro h rest hm
  refine ⟨fun r v hl => ?_, fun r hl hb => ?_, fun r hl => ?_, fun hl => ?_, fun m h64 hl => ?_⟩
  · exact ⟨_, hostMove_wr hl hm, rfl, rfl⟩
  · have hv : lastRead (readAccess h.host r h.machine) = readReg h.machine.b3c r := by
      rw [lastRead_readAccess, hostReadValue_of_defined _ (.inl hb)]
    refine ⟨_, hostMove_rd hl hm, rfl, rfl, hv, fun j => ?_⟩
    rw [getElem_keepWord, hv]
  · exact ⟨_, hostMove_wrRead hl hm, rfl, rfl⟩
  · refine ⟨_, hostMove_wait hl hm, rfl, ?_⟩
    rw [statusWord_bit_zero, hl]
  · refine ⟨_, hostMove_append hl, rfl, rfl, ?_⟩
    rw [take_bytesOf_eq_map_streamByte _ h64]

/-! ## `key_from_out` (R89, R186) -/

theorem runTurns_host {turns : List Turn} {h k : HostRun} (hk : hostMove h = .next k) :
    runTurns (.host :: turns) h = runTurns turns k := runTurns_cons_of_next hk

/-- The lines that copy DOUT word `j` to KEY word `j`. -/
def copyWordLines (j : Fin 8) : List Line := [.rd (.dout (Fin.ofNat 16 j.val)), .wrRead (.key j)]

theorem keyFromOut_eq : keyFromOut = (List.finRange 8).flatMap copyWordLines := rfl

/-- KEY after the words `js` of DOUT are copied to it, one by one. -/
def copyWords (dout : Block) (js : List (Fin 8)) (key : CV) : CV :=
  js.foldl (fun (key : CV) (j : Fin 8) => key.set j dout[j.val]) key

/-- A copied word is DOUT's, and every other word stays. -/
theorem getElem_copyWords (dout : Block) (js : List (Fin 8)) (key : CV) (i : Fin 8) :
    (copyWords dout js key)[i] = if i ∈ js then dout[i.val] else key[i] := by
  induction js generalizing key with
  | nil => rfl
  | cons j js ih =>
    have hcons : copyWords dout (j :: js) key = copyWords dout js (key.set j dout[j.val]) := rfl
    rw [hcons, ih]
    by_cases hij : i = j
    · subst hij
      simp
    · have hne : j.val ≠ i.val := fun e => hij (Fin.ext e.symm)
      simp [hij, Vector.getElem_set_ne _ _ hne]

/-- All eight words copied. -/
theorem copyWords_finRange (dout : Block) (key : CV) :
    copyWords dout (List.finRange 8) key = Vector.ofFn fun j => dout[j.val] := by
  apply Vector.ext
  intro i hi
  simpa using getElem_copyWords dout (List.finRange 8) key ⟨i, hi⟩

/-- Two host moves copy one word: the read keeps DOUT word `j`, the write stores it in KEY word `j`. -/
theorem runTurns_copyWordLines {h : HostRun} {j : Fin 8} {rest : List Line}
    (hm : mayDrive h.machine.owner h.host = true) (hb : h.machine.b3c.busy = false)
    (hl : h.lines = copyWordLines j ++ rest) :
    ∃ k, runTurns [.host, .host] h = .next k ∧ k.lines = rest ∧ k.bytes = h.bytes ∧
      mayDrive k.machine.owner k.host = true ∧
      k.machine.b3c = { h.machine.b3c with key := copyWords h.machine.b3c.dout [j] h.machine.b3c.key } := by
  have hrd := hostMove_rd (r := .dout (Fin.ofNat 16 j.val)) (rest := .wrRead (.key j) :: rest) hl hm
  rw [lastRead_readAccess, hostReadValue_of_defined _ (.inl hb)] at hrd
  rw [runTurns_host hrd]
  refine ⟨_, runTurns_host (hostMove_wrRead rfl (mayDrive_self h.host)), rfl, rfl, mayDrive_self h.host, ?_⟩
  have hj : j.val % 16 = j.val := by omega
  simp [hostWrite_eq_storeReg hb, storeReg, readReg, copyWords, hj]

/-- Two host moves for each word copy the words `js`. -/
theorem runTurns_flatMap_copyWordLines {h : HostRun} (js : List (Fin 8)) {rest : List Line}
    (hm : mayDrive h.machine.owner h.host = true) (hb : h.machine.b3c.busy = false)
    (hl : h.lines = js.flatMap copyWordLines ++ rest) :
    ∃ k, runTurns (js.flatMap fun _ => [.host, .host]) h = .next k ∧ k.lines = rest ∧ k.bytes = h.bytes ∧
      k.machine.b3c = { h.machine.b3c with key := copyWords h.machine.b3c.dout js h.machine.b3c.key } := by
  induction js generalizing h with
  | nil => exact ⟨h, rfl, hl, rfl, rfl⟩
  | cons j js ih =>
    rw [List.flatMap_cons, List.append_assoc] at hl
    obtain ⟨k, hk, hklines, hkbytes, hkm, hkb⟩ := runTurns_copyWordLines hm hb hl
    obtain ⟨u, hu, hulines, hubytes, hub⟩ := ih hkm (by rw [hkb]; exact hb) hklines
    refine ⟨u, ?_, hulines, hubytes.trans hkbytes, ?_⟩
    · rw [List.flatMap_cons, runTurns_append_of_next hk, hu]
    · rw [hub, hkb]
      rfl

/-- Settles O56: eight pairs of host moves, one for each word of KEY. -/
theorem keyFromOutCopiesDout : Obligations.KeyFromOutCopiesDout := by
  intro h rest hm hb hl
  rw [keyFromOut_eq] at hl
  have hturns : List.replicate 16 Turn.host = (List.finRange 8).flatMap fun _ => [.host, .host] := rfl
  rw [hturns]
  obtain ⟨k, hk, hlines, hbytes, hmachine⟩ := runTurns_flatMap_copyWordLines (List.finRange 8) hm hb hl
  exact ⟨k, hk, hlines, hbytes, by rw [hmachine, copyWords_finRange]⟩

end Sys2Proof.Machine
end

section
/-! G (40_compress.md R102, R109): what it leaves in its quartet is a function of the quartet's four Words, and it leaves
every other Word alone; so two calls on disjoint quartets commute. -/

namespace Sys2Proof.Machine

/-- What G makes of the Words `a, b, c, d` of its quartet: R102's eight lines on values, without a state. -/
def mixWords (a b c d mx my : Word) : Word × Word × Word × Word :=
  let a1 := a + b + mx
  let d1 := (d ^^^ a1).rotateRight 16
  let c1 := c + d1
  let b1 := (b ^^^ c1).rotateRight 12
  let a2 := a1 + b1 + my
  let d2 := (d1 ^^^ a2).rotateRight 8
  let c2 := c1 + d2
  (a2, (b1 ^^^ c2).rotateRight 7, c2, d2)

/-- G writes its quartet only (R102). -/
theorem getElem_g_of_notMem (s : Block) {a b c d e : Fin 16} (mx my : Word) (h : e ∉ [a, b, c, d]) :
    (g s a b c d mx my)[e] = s[e] := by
  simp only [List.mem_cons, List.not_mem_nil, or_false, not_or, ← ne_eq] at h
  obtain ⟨ha, hb, hc, hd⟩ := h
  simp only [g, getElem_set_fin, ha.symm, hb.symm, hc.symm, hd.symm, if_false]

/-- On four different Words, G's eight updates of the state are R102's eight lines on the values (R7 for the rotations). -/
theorem getElem_g_quartet (s : Block) {a b c d : Fin 16} (mx my : Word) (h : [a, b, c, d].Nodup) :
    ((g s a b c d mx my)[a], (g s a b c d mx my)[b], (g s a b c d mx my)[c], (g s a b c d mx my)[d]) =
      mixWords s[a] s[b] s[c] s[d] mx my := by
  obtain ⟨⟨hab, hac, had⟩, ⟨hbc, hbd⟩, hcd⟩ : (a ≠ b ∧ a ≠ c ∧ a ≠ d) ∧ (b ≠ c ∧ b ≠ d) ∧ c ≠ d := by
    simpa using h
  simp only [g, mixWords, getElem_set_fin, rotr_eq_rotateRight, Nat.reduceLT, hab, hac, had, hbc, hbd, hcd, hab.symm,
    hac.symm, had.symm, hbc.symm, hbd.symm, hcd.symm, if_true, if_false]

/-- Settles O33: the eight lines are `mixWords`, and the other Words are G's frame. -/
theorem mixUpdatesQuartetOnly : Obligations.MixUpdatesQuartetOnly := by
  intro s a b c d mx my h
  have hq := getElem_g_quartet s mx my h
  simp only [mixWords, Prod.mk.injEq] at hq
  obtain ⟨ha, hb, hc, hd⟩ := hq
  refine ⟨_, _, _, _, rfl, rfl, rfl, rfl, ha, ?_, ?_, ?_, fun e he => getElem_g_of_notMem s mx my he⟩
  · rw [ha]; exact hd
  · rw [hd]; exact hc
  · rw [hc]; exact hb

/-- G reads its quartet only: two states that agree there agree there after it (R102). -/
theorem getElem_g_congr {s t : Block} {a b c d e : Fin 16} (mx my : Word) (h : [a, b, c, d].Nodup)
    (hst : ∀ i ∈ [a, b, c, d], s[i] = t[i]) (he : e ∈ [a, b, c, d]) :
    (g s a b c d mx my)[e] = (g t a b c d mx my)[e] := by
  have hq := getElem_g_quartet s mx my h
  rw [hst a (by simp), hst b (by simp), hst c (by simp), hst d (by simp), ← getElem_g_quartet t mx my h] at hq
  simp only [Prod.mk.injEq] at hq
  obtain ⟨ha, hb, hc, hd⟩ := hq
  simp only [List.mem_cons, List.not_mem_nil, or_false] at he
  rcases he with rfl | rfl | rfl | rfl
  · exact ha
  · exact hb
  · exact hc
  · exact hd

/-- A G call on another quartet, before it or after it, does not show in a call's own quartet (R109). -/
theorem getElem_g_g_of_mem (s : Block) {a b c d a' b' c' d' e : Fin 16} (mx my mx' my' : Word)
    (h : [a, b, c, d].Nodup) (hdis : List.Disjoint [a, b, c, d] [a', b', c', d']) (he : e ∈ [a, b, c, d]) :
    (g (g s a b c d mx my) a' b' c' d' mx' my')[e] = (g (g s a' b' c' d' mx' my') a b c d mx my)[e] := by
  rw [getElem_g_of_notMem _ mx' my' (hdis he)]
  exact getElem_g_congr mx my h (fun i hi => (getElem_g_of_notMem s mx' my' (hdis hi)).symm) he

/-- Settles O34: Word by Word, by the quartet the Word is in. -/
theorem disjointMixesCommute : Obligations.DisjointMixesCommute := by
  intro s a b c d a' b' c' d' mx my mx' my' h
  obtain ⟨hq, hq', hdis⟩ := List.nodup_append'.mp (show ([a, b, c, d] ++ [a', b', c', d']).Nodup from h)
  refine Vector.ext fun i hi => ?_
  let e : Fin 16 := ⟨i, hi⟩
  change (g (g s a b c d mx my) a' b' c' d' mx' my')[e] = (g (g s a' b' c' d' mx' my') a b c d mx my)[e]
  by_cases he : e ∈ [a, b, c, d]
  · exact getElem_g_g_of_mem s mx my mx' my' hq hdis he
  · by_cases he' : e ∈ [a', b', c', d']
    · exact (getElem_g_g_of_mem s mx' my' mx my hq' hdis.symm he').symm
    · rw [getElem_g_of_notMem _ _ _ he', getElem_g_of_notMem _ _ _ he, getElem_g_of_notMem _ _ _ he,
        getElem_g_of_notMem _ _ _ he']

end Sys2Proof.Machine
end

section
/-! Compress as seven rounds over R105's schedules (40_compress.md R101 to R107): a permuted schedule is the schedule of the
next row of the table. -/

namespace Sys2Proof.Machine

open Sys2Proof.Claims

/-- The row that follows a row of R105's table: P (R104) on the indices. -/
def nextRow (row : List Nat) : List Nat := msgPerm.toList.map fun j => row.getD j.val 0

/-- The seven rows are the block's own order and its six permutations (R105). -/
theorem scheduleTable_eq_iterate : scheduleTable = List.iterate nextRow (List.range 16) 7 := by decide

theorem scheduled_range (m : Block) : scheduled m (List.range 16) = m := by
  refine Vector.ext fun i hi => ?_
  simp [scheduled, List.getD_eq_getElem?_getD]

/-- P on a schedule is the next row's schedule (R104, R105). -/
theorem permute_scheduled (m : Block) (row : List Nat) : permute (scheduled m row) = scheduled m (nextRow row) := by
  refine Vector.ext fun i hi => ?_
  simp [scheduled, nextRow, List.getD_eq_getElem?_getD]

/-- A round is R103's eight G calls in its order. -/
theorem round_eq_roundOfCalls (s m' : Block) : round s m' = roundOfCalls s m' := rfl

/-- Further rounds run over the rows that follow (R105). -/
theorem moreRounds_scheduled (k : Nat) (s m : Block) (row : List Nat) :
    moreRounds k s (scheduled m row) =
      (List.iterate nextRow (nextRow row) k).foldl (fun s row => roundOfCalls s (scheduled m row)) s := by
  induction k generalizing s row with
  | zero => rfl
  | succ k ih => rw [moreRounds, permute_scheduled, ih, round_eq_roundOfCalls, List.iterate, List.foldl_cons]

/-- Compress is seven rounds over the rows of R105's table (R107). -/
theorem compress_eq_foldl (cv : CV) (m : Block) (t : U64) (blen flags : Byte) :
    compress cv m t blen flags = outputWords
      (scheduleTable.foldl (fun s row => roundOfCalls s (scheduled m row)) (initialState cv t blen flags)) cv := by
  rw [scheduleTable_eq_iterate, List.iterate, List.foldl_cons, ← moreRounds_scheduled, scheduled_range, compress,
    round_eq_roundOfCalls]

/-- The initial state Word by Word: cv, IV[0..3], and the last row as numbers (R101, R7). -/
theorem initialState_eq_ofFn (cv : CV) (t : U64) (blen flags : Byte) :
    initialState cv t blen flags = Vector.ofFn fun i =>
      if h : i.val < 8 then cv[i.val]
      else if h : i.val < 12 then iv[i.val - 8]
      else if i.val = 12 then BitVec.ofNat 32 t.toNat
      else if i.val = 13 then BitVec.ofNat 32 (t.toNat / 2 ^ 32)
      else if i.val = 14 then BitVec.ofNat 32 blen.toNat
      else BitVec.ofNat 32 flags.toNat := by
  refine Vector.ext fun i hi => ?_
  interval_cases i <;> simp [initialState, lo32_eq, hi32_eq]

/-- Output Words 0 to 7 (R106). -/
theorem getElem_outputWords_low (s : Block) (cv : CV) (i : Fin 8) :
    (outputWords s cv)[i.val] = s[i.val] ^^^ s[i.val + 8] := by
  simp [outputWords]

/-- Output Words 8 to 15 (R106). -/
theorem getElem_outputWords_high (s : Block) (cv : CV) (i : Fin 8) :
    (outputWords s cv)[i.val + 8] = s[i.val + 8] ^^^ cv[i.val] := by
  simp [outputWords]

/-- Settles O32: R101's state, the seven rows, R106's output. -/
theorem compressFollowsSchedules : Obligations.CompressFollowsSchedules := by
  intro cv m t blen flags s0 s7
  have hs0 : initialState cv t blen flags = s0 := initialState_eq_ofFn cv t blen flags
  rw [compress_eq_foldl, hs0]
  exact ⟨getElem_outputWords_low s7 cv, getElem_outputWords_high s7 cv⟩

end Sys2Proof.Machine
end

section
/-! COMPRESS by its operands as numbers (40_compress.md R110), and the block lengths of the hashing compressions (R111). -/

namespace Sys2Proof.Machine

/-- COMPRESS with BLEN out of range commits nothing and raises BLEN_RANGE (R110). -/
theorem exec_compress_of_gt {s : State} (h : 64 < (blenOperand s.b3c).toNat) :
    exec .compress s = .next (errorEntry .blenRange s) := by
  rw [exec_eq_commit, execBody, compressBody, if_pos h, commit_error]

/-- Settles O30: BLEN in range or not, with the operands as numbers. -/
theorem compressWritesDout : Obligations.CompressWritesDout := by
  refine fun s => ⟨fun h => ?_, fun h => ?_⟩
  · rw [← cctrOperand_eq, ← blenOperand_eq, ← flagsOperand_eq]
    exact exec_compress_of_le (by rw [toNat_blenOperand]; exact h)
  · exact exec_compress_of_gt (by rw [toNat_blenOperand]; exact h)

/-- Settles O60: BUFLEN bounds the chunk's length, a parent's is 64, and R_BLEN is the root's. -/
theorem internalBlockLengthsInRange : Obligations.InternalBlockLengthsInRange := by
  intro b hi
  refine ⟨chunkNode_blen_le b, hi.root_blen, rootFold_blen_le b, fun l r => ?_⟩
  rw [parentNode_blen]
  decide

end Sys2Proof.Machine
end

section
/-! A block of a chunk filled and passed (41_chunk.md R131, R132, R133), and the empty input (R138). -/

namespace Sys2Proof.Machine

open Sys2Proof.Claims

/-! ## ABSORB's bytes in the block buffer (R64, R132) -/

/-- ABSORB's operand byte by byte, in stream order. -/
theorem getD_absorbOperand_eq_streamByte (b : B3C) {n j : Nat} (hn : n ≤ 64) (h : j < n) :
    (absorbOperand b n).getD j 0 = streamByte b.din j := by
  rw [getD_absorbOperand b n j hn h, streamByte_eq_getElem_bytesOf b.din j (by omega)]

/-- Bytes that do not fit the buffer fill it. -/
theorem fillBuf_absorbOperand_buf (b : B3C) {n : Nat} (hn : n ≤ 64) (h : 64 < b.bufLen.val + n) :
    (fillBuf b ((absorbOperand b n).take (64 - b.bufLen.val))).buf = filledBuf b := by
  refine Vector.ext fun j hj => ?_
  rw [getElem_fillBuf, List.length_take, length_absorbOperand b n hn, filledBuf, Vector.getElem_ofFn]
  by_cases hlow : j < b.bufLen.val
  · rw [if_neg (by omega), if_pos hlow, Fin.getElem_fin]
  · rw [if_pos (by omega), if_neg hlow, ← getD_absorbOperand_eq_streamByte b hn (by omega),
      List.getD_eq_getElem?_getD, List.getElem?_take_of_lt (by omega), ← List.getD_eq_getElem?_getD]

/-- The bytes past the first ones, put into a cleared buffer. -/
theorem fillBuf_absorbOperand_drop_buf {b c : B3C} {n : Nat} (hn : n ≤ 64) (first : Nat)
    (hlen : c.bufLen = 0) (hbuf : c.buf = zero64) :
    (fillBuf c ((absorbOperand b n).drop first)).buf = restBuf b first n := by
  refine Vector.ext fun j hj => ?_
  rw [getElem_fillBuf, List.length_drop, length_absorbOperand b n hn, hlen, hbuf, getElem_zero64, restBuf,
    Vector.getElem_ofFn]
  by_cases hin : first + j < n
  · rw [if_pos (by simp; omega), if_pos hin, ← getD_absorbOperand_eq_streamByte b hn hin]
    simp
  · rw [if_neg (by simp; omega), if_neg hin]

/-! ## Past the block, within the chunk (R131, R132, R133) -/

/-- The machine with its buffer filled by ABSORB's first bytes, that block compressed, and the rest of the bytes in the
cleared buffer. -/
def blockPassed (b : B3C) (n : Nat) : B3C :=
  fillBuf (compressBlock (fillBuf b ((absorbOperand b n).take (64 - b.bufLen.val))))
    ((absorbOperand b n).drop (64 - b.bufLen.val))

/-- Bytes past the block buffer, within the chunk. -/
theorem exec_absorb_past_block {n : Nat} {s : State} (hp : s.b3c.phase = .absorbing) (hn : n ≤ 64)
    (h : 64 < s.b3c.bufLen.val + n) (hfit : chunkLen s.b3c + n ≤ 1024) :
    exec (.absorb n) s = .next { s with b3c := blockPassed s.b3c n } := by
  have hlen := length_absorbOperand s.b3c n hn
  rw [exec_eq_commit, execBody, absorbBody_of_absorbing hp hn, absorbBytes_within _ _ (by rw [hlen]; exact hfit),
    foldl_pushByte_across _ _ (by rw [hlen]; exact h) (by rw [hlen]; exact hn), commit_ok, blockPassed]

/-- One CompressBlock of the filled buffer, with flags `BF | StartFlag`, counter CCNT and length 64. -/
theorem blockPassed_cscv (b : B3C) {n : Nat} (hn : n ≤ 64) (h : 64 < b.bufLen.val + n) :
    (blockPassed b n).cscv = first8 (compress b.cscv (wordsOf (filledBuf b)) b.ccnt 64 (blockFlags b)) := by
  rw [blockPassed, fillBuf_cscv, compressBlock, fillBuf_absorbOperand_buf b hn h]
  simp only [fillBuf_cscv, fillBuf_ccnt, blockFlags, startFlag, fillBuf_bf, fillBuf_blocks]

/-- BLOCKS does not wrap. -/
theorem blockPassed_blocks (b : B3C) (n : Nat) (h : b.blocks.val < 15) :
    (blockPassed b n).blocks.val = b.blocks.val + 1 := by
  rw [blockPassed, fillBuf_blocks, compressBlock_blocks, fillBuf_blocks, Fin.val_add_one_of_lt h]

theorem blockPassed_bufLen (b : B3C) {n : Nat} (hn : n ≤ 64) (h : 64 < b.bufLen.val + n) :
    (blockPassed b n).bufLen.val = b.bufLen.val + n - 64 := by
  have hl := b.bufLen.isLt
  rw [blockPassed, fillBuf_bufLen_val, compressBlock_bufLen, List.length_drop, length_absorbOperand b n hn, Fin.val_zero]
  omega

theorem blockPassed_buf (b : B3C) {n : Nat} (hn : n ≤ 64) :
    (blockPassed b n).buf = restBuf b (64 - b.bufLen.val) n :=
  fillBuf_absorbOperand_drop_buf hn _ (compressBlock_bufLen _) (compressBlock_buf _)

/-- CSCV, BLOCKS, BUF and BUFLEN are all that is written. -/
theorem blockPassed_frame (b : B3C) (n : Nat) :
    blockPassed b n = { b with
      cscv := (blockPassed b n).cscv, blocks := (blockPassed b n).blocks
      buf := (blockPassed b n).buf, bufLen := (blockPassed b n).bufLen } := by
  simp only [blockPassed, fillBuf, compressBlock]

/-- Settles O13: the operand fills the buffer, CompressBlock runs once, and the rest goes into the cleared buffer. -/
theorem absorbCompressesFullBlock : Obligations.AbsorbCompressesFullBlock := by
  intro n s hp hn hpast hfit
  exact ⟨_, exec_absorb_past_block hp hn hpast hfit, blockPassed_cscv s.b3c hn hpast,
    blockPassed_blocks s.b3c n (by omega), blockPassed_bufLen s.b3c hn hpast, blockPassed_buf s.b3c hn,
    congrArg (fun b => { s with b3c := b }) (blockPassed_frame s.b3c n)⟩

/-! ## The empty input (R138) -/

/-- The Words of 64 zero bytes are zero (R8). -/
@[simp] theorem wordsOf_zero64 : wordsOf zero64 = Vector.replicate 16 0 := by
  refine Vector.ext fun i hi => ?_
  rw [getElem_wordsOf, Vector.getElem_replicate]
  simp only [getElem_zero64]
  rfl

/-- The Node of a chunk that has taken no byte since INIT. -/
theorem chunkNode_initBody (m : Mode) (b : B3C) :
    chunkNode (initBody m b) = ⟨baseKey m b, Vector.replicate 16 0, 0, 0, baseFlags m ||| 0x03⟩ := by
  have hflags : chunkEndFlags (initBody m b) = baseFlags m ||| 0x03 := by
    rw [chunkEndFlags, startFlag, initBody_blocks, initBody_bf, Fin.val_zero, if_pos rfl, BitVec.or_assoc]
    rfl
  rw [chunkNode, hflags, initBody_cscv, initBody_buf, wordsOf_zero64, initBody_ccnt, initBody_bufLen]
  rfl

/-- With an empty stack the root is the chunk's Node with ROOT added (R157). -/
theorem rootFold_of_depth_zero {b : B3C} (h : b.depth = 0) :
    rootFold b = { chunkNode b with flags := (chunkNode b).flags ||| rootFlag } := by
  rw [rootFold, h]
  rfl

/-- FINALIZE in the ABSORBING phase captures the root (R184). -/
theorem exec_finalize_of_absorbing {s : State} (hp : s.b3c.phase = .absorbing) :
    exec .finalize s = .next { s with b3c := captureRoot (rootFold s.b3c) s.b3c } := by
  rw [exec_eq_commit, execBody, finalizeBody, hp, commit_ok]

/-- Settles O24: INIT clears the chunk and the stack, so the root is the empty chunk's Node. -/
theorem emptyInputRoot : Obligations.EmptyInputRoot := by
  intro m s
  have hnode := chunkNode_initBody m s.b3c
  have hroot := rootFold_of_depth_zero (initBody_depth m s.b3c)
  rw [hnode] at hroot
  refine ⟨_, _, (exec_eq_commit _ s).trans (commit_ok s _), exec_finalize_of_absorbing (initBody_phase m s.b3c),
    by rw [hnode, initBody_bk, initBody_bf], ?_, ?_, ?_, ?_⟩
  · rw [captureRoot_rCv, hroot, initBody_bk]
  · rw [captureRoot_rBlk, hroot]
  · rw [captureRoot_rBlen, hroot]
  · rw [captureRoot_rFlg, hroot, initBody_bf, BitVec.or_assoc]
    rfl

end Sys2Proof.Machine
end

section
/-! A chunk close as ABSORB makes it (42_tree.md R152 to R155): the bytes that fill the chunk, then the checks, the merges and
the push, then the rest of the bytes in a fresh chunk. -/

namespace Sys2Proof.Machine

open Sys2Proof.Claims

/-! ## The ends of a checked close (R155) -/

theorem closeChecked_of_counter_full {b : B3C} (h : b.ccnt.toNat = 2 ^ 64 - 1) :
    closeChecked b = .error (.error .ctrOverflow) := by
  rw [closeChecked, if_pos h]

theorem closeChecked_of_stack_full {b : B3C} (hcc : b.ccnt.toNat ≠ 2 ^ 64 - 1)
    (h : 54 ≤ b.depth.val - tz (b.ccnt.toNat + 1)) : closeChecked b = .error (.error .stackOverflow) := by
  rw [closeChecked, if_neg hcc, if_pos h]

theorem closeChecked_of_entry_missing {b : B3C} (hcc : b.ccnt.toNat ≠ 2 ^ 64 - 1)
    (h : b.depth.val < tz (b.ccnt.toNat + 1)) : closeChecked b = .error (.fault .mergeWithoutEntry) := by
  rw [closeChecked, if_neg hcc, if_neg (by omega), chunkClose_eq_none b h]

theorem closeChecked_of_entries {b : B3C} (hcc : b.ccnt.toNat ≠ 2 ^ 64 - 1)
    (hle : tz (b.ccnt.toNat + 1) ≤ b.depth.val) (hroom : b.depth.val - tz (b.ccnt.toNat + 1) < 54) :
    closeChecked b = .ok (closed b (tz (b.ccnt.toNat + 1))) := by
  rw [closeChecked, if_neg hcc, if_neg (by omega), chunkClose_eq_some b hle]

/-- A close faults only for a merge without an entry. -/
theorem closeChecked_fault {b : B3C} {f : Fault} (h : closeChecked b = .error (.fault f)) :
    b.depth.val < tz (b.ccnt.toNat + 1) := by
  rcases closeChecked_cases b with ⟨_, e⟩ | ⟨_, _, e⟩ | ⟨_, hlt, _⟩ | ⟨_, _, _, e⟩
  · rw [e] at h; cases h
  · rw [e] at h; cases h
  · exact hlt
  · rw [e] at h; cases h

/-! ## DEPTH is the popcount of CCNT (R153) -/

theorem popcount_sub_tz_add_one (n : Nat) (h : n + 1 < 2 ^ 64) : popcount n - tz (n + 1) + 1 = popcount (n + 1) := by
  have hsucc := popcount_succ n h
  have hle := tz_succ_le_popcount n h
  omega

/-- Settles O17: DEPTH is the popcount of CCNT, and the close's `tz(n)` merges and one push turn it into that of `n`. -/
theorem closeKeepsPopcountDepth : Obligations.CloseKeepsPopcountDepth := by
  intro b hi hlt
  have hdepth := hi.depth_popcount
  have hle := tz_succ_le_popcount b.ccnt.toNat (by omega)
  have hafter := popcount_sub_tz_add_one b.ccnt.toNat (by omega)
  rw [← hdepth] at hle hafter
  refine ⟨hle, hafter, by omega, fun c hc => ?_, fun f hf => Nat.not_lt.mpr hle (closeChecked_fault hf)⟩
  obtain ⟨hcc, hroom, _, rfl⟩ := closeChecked_ok hc
  rw [closed_depth _ _ hroom, closed_ccnt, ccnt_succ_toNat hcc]
  exact ⟨hafter, rfl⟩

/-! ## ABSORB past the chunk (R183) -/

/-- The machine with its buffer filled by ABSORB's first bytes. -/
def bufFilled (b : B3C) (n : Nat) : B3C := fillBuf b ((absorbOperand b n).take (64 - b.bufLen.val))

/-- Bytes past the chunk: the chunk's last block is filled, the chunk closed, and the rest put into the next one. -/
theorem exec_absorb_past_chunk {n : Nat} {s : State} (hp : s.b3c.phase = .absorbing) (hn : n ≤ 64)
    (h : 1024 < chunkLen s.b3c + n) :
    exec (.absorb n) s = commit s ((closeChecked (bufFilled s.b3c n)).map
      fun c => fillBuf c ((absorbOperand s.b3c n).drop (64 - s.b3c.bufLen.val))) := by
  have hlen := length_absorbOperand s.b3c n hn
  rw [exec_eq_commit, execBody, absorbBody_of_absorbing hp hn,
    absorbBytes_across _ _ (by rw [hlen]; exact h) (by rw [hlen]; exact hn), bufFilled]
  cases closeChecked (fillBuf s.b3c ((absorbOperand s.b3c n).take (64 - s.b3c.bufLen.val))) <;> rfl

theorem bufFilled_ccnt (b : B3C) (n : Nat) : (bufFilled b n).ccnt = b.ccnt := fillBuf_ccnt b _

theorem bufFilled_depth (b : B3C) (n : Nat) : (bufFilled b n).depth = b.depth := fillBuf_depth b _

/-- Settles O15: filling the buffer moves neither CCNT nor DEPTH, and the error commits nothing. -/
theorem absorbCloseErrors : Obligations.AbsorbCloseErrors := by
  intro n s hp hn hpast
  refine ⟨fun hcc => ?_, fun hcc hfull => ?_⟩
  · rw [exec_absorb_past_chunk hp hn hpast, closeChecked_of_counter_full (by rw [bufFilled_ccnt]; exact hcc)]
    rfl
  · rw [exec_absorb_past_chunk hp hn hpast, closeChecked_of_stack_full (by rw [bufFilled_ccnt]; exact hcc)
      (by rw [bufFilled_ccnt, bufFilled_depth]; exact hfull)]
    rfl

/-- Settles O16: filling the buffer moves neither CCNT nor DEPTH. -/
theorem closeWithoutEntryFaults : Obligations.CloseWithoutEntryFaults := by
  intro n s hp hn hpast hcc hmissing
  rw [exec_absorb_past_chunk hp hn hpast, closeChecked_of_entry_missing (by rw [bufFilled_ccnt]; exact hcc)
    (by rw [bufFilled_ccnt, bufFilled_depth]; exact hmissing)]
  rfl

/-! ## The close that completes (R152) -/

/-- The chaining value of the filled chunk: its last block is no first block and has 64 bytes (R134). -/
theorem nodeCV_chunkNode_bufFilled (b : B3C) {n : Nat} (hn : n ≤ 64) (h : 1024 < chunkLen b + n) :
    nodeCV (chunkNode (bufFilled b n)) = fullChunkCV b := by
  have hblocks := b.blocks.isLt
  have hbuf := b.bufLen.isLt
  unfold chunkLen at h
  have hfull : (bufFilled b n).bufLen.val = 64 :=
    fillBuf_full b _ (by rw [length_absorbOperand b n hn]; omega)
  have hflags : chunkEndFlags (bufFilled b n) = b.bf ||| 0x02 := by
    rw [chunkEndFlags, startFlag, bufFilled, fillBuf_bf, fillBuf_blocks, if_neg (by omega)]
    exact congrArg (· ||| chunkEnd) BitVec.or_zero
  have hdata : (bufFilled b n).buf = filledBuf b := fillBuf_absorbOperand_buf b hn (by omega)
  rw [nodeCV, nodeOut, chunkNode, hflags, hdata, hfull, bufFilled_ccnt, bufFilled, fillBuf_cscv]
  rfl

/-- The merges read BK, BF and the stack, which filling the buffer leaves alone. -/
theorem mergeN_bufFilled (b : B3C) {n : Nat} (hn : n ≤ 64) (h : 1024 < chunkLen b + n) (k : Nat) :
    mergeN (bufFilled b n) b.depth.val (nodeCV (chunkNode (bufFilled b n))) k = mergedCV b k := by
  induction k with
  | zero => exact nodeCV_chunkNode_bufFilled b hn h
  | succ k ih =>
    rw [mergeN, ih, parentCV, nodeCV, nodeOut, mergedCV]
    simp only [parentNode, parentFlags, stackEntry, bufFilled, fillBuf_bk, fillBuf_bf, fillBuf_stack]
    rfl

/-- The machine after ABSORB's bytes closed the chunk. -/
def chunkPassed (b : B3C) (n : Nat) : B3C :=
  fillBuf (closed (bufFilled b n) (tz (b.ccnt.toNat + 1))) ((absorbOperand b n).drop (64 - b.bufLen.val))

theorem chunkPassed_depth (b : B3C) (n : Nat) (h : b.depth.val - tz (b.ccnt.toNat + 1) < 54) :
    (chunkPassed b n).depth.val = b.depth.val - tz (b.ccnt.toNat + 1) + 1 := by
  rw [chunkPassed, fillBuf_depth, closed_depth _ _ (by rw [bufFilled_depth]; exact h), bufFilled_depth]

/-- The one slot written is the one that the merges leave free. -/
theorem chunkPassed_stack (b : B3C) {n : Nat} (hn : n ≤ 64) (h : 1024 < chunkLen b + n) (d : Fin 54) :
    (chunkPassed b n).stack[d] =
      if d.val = b.depth.val - tz (b.ccnt.toNat + 1) then mergedCV b (tz (b.ccnt.toNat + 1)) else b.stack[d] := by
  rw [chunkPassed, fillBuf_stack, closed_stack, bufFilled_depth, mergeN_bufFilled b hn h, bufFilled, fillBuf_stack,
    Fin.getElem_fin, Vector.getElem_setIfInBounds]
  simp only [eq_comm, Fin.getElem_fin]

theorem chunkPassed_bufLen (b : B3C) {n : Nat} (hn : n ≤ 64) (h : 1024 < chunkLen b + n) :
    (chunkPassed b n).bufLen.val = b.bufLen.val + n - 64 := by
  have hblocks := b.blocks.isLt
  have hbuf := b.bufLen.isLt
  unfold chunkLen at h
  rw [chunkPassed, fillBuf_bufLen_val, closed_bufLen, List.length_drop, length_absorbOperand b n hn, Fin.val_zero]
  omega

theorem chunkPassed_buf (b : B3C) {n : Nat} (hn : n ≤ 64) :
    (chunkPassed b n).buf = restBuf b (64 - b.bufLen.val) n :=
  fillBuf_absorbOperand_drop_buf hn _ (closed_bufLen _ _) (closed_buf _ _)

/-- CCNT, STACK, DEPTH and the accumulator are all that is written. -/
theorem chunkPassed_frame (b : B3C) (n : Nat) :
    chunkPassed b n = { b with
      ccnt := (chunkPassed b n).ccnt, depth := (chunkPassed b n).depth, stack := (chunkPassed b n).stack
      cscv := (chunkPassed b n).cscv, blocks := (chunkPassed b n).blocks
      buf := (chunkPassed b n).buf, bufLen := (chunkPassed b n).bufLen } := by
  simp only [chunkPassed, bufFilled, closed, chunkReset, pushCV, fillBuf]

/-- Settles O14: the filled chunk closes with an entry for every merge, and the rest goes into the fresh chunk. -/
theorem absorbClosesFullChunk : Obligations.AbsorbClosesFullChunk := by
  intro n s hp hn hpast hcc hle hroom
  have hclose : closeChecked (bufFilled s.b3c n) = .ok (closed (bufFilled s.b3c n) (tz (s.b3c.ccnt.toNat + 1))) := by
    rw [closeChecked_of_entries (by rw [bufFilled_ccnt]; omega) (by rw [bufFilled_ccnt, bufFilled_depth]; exact hle)
      (by rw [bufFilled_ccnt, bufFilled_depth]; exact hroom), bufFilled_ccnt]
  have hexec : exec (.absorb n) s = .next { s with b3c := chunkPassed s.b3c n } := by
    rw [exec_absorb_past_chunk hp hn hpast, hclose]
    rfl
  have hccnt : (chunkPassed s.b3c n).ccnt.toNat = s.b3c.ccnt.toNat + 1 := by
    rw [chunkPassed, fillBuf_ccnt, closed_ccnt, bufFilled_ccnt, ccnt_succ_toNat (by omega)]
  have hcscv : (chunkPassed s.b3c n).cscv = s.b3c.bk := by
    rw [chunkPassed, fillBuf_cscv, closed_cscv, bufFilled, fillBuf_bk]
  have hblocks : (chunkPassed s.b3c n).blocks = 0 := by rw [chunkPassed, fillBuf_blocks, closed_blocks]
  exact ⟨_, hexec, hccnt, chunkPassed_depth s.b3c n hroom, chunkPassed_stack s.b3c hn hpast, hcscv, hblocks,
    chunkPassed_bufLen s.b3c hn hpast, chunkPassed_buf s.b3c hn,
    congrArg (fun b => { s with b3c := b }) (chunkPassed_frame s.b3c n)⟩

end Sys2Proof.Machine
end

section
/-! The tree of an input by its shape alone, and the binary counter that the CV stack is (42_tree.md R150, R153, R159): the
entries of the stack are the perfect subtrees of the one bits of the number of closed chunks, a close is the carry of that
counter, and RootFold joins the subtrees with the chunk left open. -/

namespace Sys2Proof.Machine

open Sys2Proof.Claims

/-! ## The tree by its shape (R159) -/

theorem treeNode_of_le_one (b : B3C) (xs : List Byte) (fuel start : Nat) {count : Nat} (h : count ≤ 1) :
    treeNode b xs fuel start count = leafNode b xs start := by
  cases fuel with
  | zero => rfl
  | succ fuel => rw [treeNode, if_pos h]

theorem treeNode_of_two_le (b : B3C) (xs : List Byte) (fuel start : Nat) {count : Nat} (h : 2 ≤ count) :
    treeNode b xs (fuel + 1) start count =
      parentNode b (nodeCV (treeNode b xs fuel start (2 ^ Nat.log2 (count - 1))))
        (nodeCV (treeNode b xs fuel (start + 2 ^ Nat.log2 (count - 1)) (count - 2 ^ Nat.log2 (count - 1)))) := by
  rw [treeNode, if_neg (by omega)]

/-- With fuel for its height the tree does not depend on it. -/
theorem treeNode_fuel (b : B3C) (xs : List Byte) (f g start count : Nat) (hf : count ≤ f + 1) (hg : count ≤ g + 1) :
    treeNode b xs f start count = treeNode b xs g start count := by
  induction f generalizing g start count with
  | zero => rw [treeNode_of_le_one _ _ _ _ hf, treeNode_of_le_one _ _ _ _ hf]
  | succ f ih =>
    by_cases h1 : count ≤ 1
    · rw [treeNode_of_le_one _ _ _ _ h1, treeNode_of_le_one _ _ _ _ h1]
    · cases g with
      | zero => omega
      | succ g =>
        have hleft : 2 ^ Nat.log2 (count - 1) ≤ count - 1 := Nat.log2_self_le (by omega)
        have hpos := Nat.two_pow_pos (Nat.log2 (count - 1))
        rw [treeNode_of_two_le _ _ _ _ (by omega), treeNode_of_two_le _ _ _ _ (by omega),
          ih g start _ (by omega) (by omega), ih g (start + _) _ (by omega) (by omega)]

/-- The tree over the `count` chunks from chunk `start` on, with fuel enough. -/
def tree (b : B3C) (xs : List Byte) (start count : Nat) : Node := treeNode b xs count start count

theorem tree_one (b : B3C) (xs : List Byte) (start : Nat) : tree b xs start 1 = leafNode b xs start :=
  treeNode_of_le_one b xs 1 start (Nat.le_refl 1)

/-- A perfect subtree of `2^h` chunks followed by at most as many is the left child of their parent (R159). -/
theorem tree_split (b : B3C) (xs : List Byte) (start h : Nat) {r : Nat} (h1 : 1 ≤ r) (hr : r ≤ 2 ^ h) :
    tree b xs start (2 ^ h + r) =
      parentNode b (nodeCV (tree b xs start (2 ^ h))) (nodeCV (tree b xs (start + 2 ^ h) r)) := by
  have hlog : Nat.log2 (2 ^ h + r - 1) = h := (Nat.log2_eq_iff (by omega)).mpr ⟨by omega, by rw [Nat.pow_succ]; omega⟩
  rw [tree, treeNode_fuel b xs _ (2 ^ h + r - 1 + 1) _ _ (by omega) (by omega),
    treeNode_of_two_le _ _ _ _ (by omega), hlog, Nat.add_sub_cancel_left,
    treeNode_fuel b xs _ (2 ^ h) start (2 ^ h) (by omega) (by omega),
    treeNode_fuel b xs _ r (start + 2 ^ h) r (by omega) (by omega), tree, tree]

/-! ## The stack as a binary counter (R150, R153) -/

/-- The `depth` oldest entries of a stack are the CVs of the perfect subtrees of the first `n * 2^h` chunks: one for each one
bit of `n`, that of the lowest bit on top. -/
inductive Spine (b : B3C) (xs : List Byte) (stk : Nat → CV) : (h n depth : Nat) → Prop
  | empty (h : Nat) : Spine b xs stk h 0 0
  | zeroBit {h n depth : Nat} : Spine b xs stk (h + 1) n depth → Spine b xs stk h (2 * n) depth
  | oneBit {h n depth : Nat} : Spine b xs stk (h + 1) n depth →
      stk depth = nodeCV (tree b xs (2 * n * 2 ^ h) (2 ^ h)) → Spine b xs stk h (2 * n + 1) (depth + 1)

theorem even_mul_two_pow (n h : Nat) : 2 * n * 2 ^ h = n * 2 ^ (h + 1) := by
  rw [Nat.pow_succ', Nat.mul_comm 2 n, Nat.mul_assoc]

theorem odd_mul_two_pow (n h : Nat) : (2 * n + 1) * 2 ^ h = 2 * n * 2 ^ h + 2 ^ h := by
  rw [Nat.add_mul, Nat.one_mul]

/-- Only the live entries count. -/
theorem Spine.congr {b : B3C} {xs : List Byte} {stk stk' : Nat → CV} {h n depth : Nat} (hs : Spine b xs stk h n depth)
    (heq : ∀ d, d < depth → stk' d = stk d) : Spine b xs stk' h n depth := by
  induction hs with
  | empty h => exact .empty h
  | zeroBit _ ih => exact .zeroBit (ih heq)
  | oneBit _ htop ih =>
    exact .oneBit (ih fun d hd => heq d (by omega)) ((heq _ (Nat.lt_succ_self _)).trans htop)

/-- A push on top of the live entries leaves them alone. -/
theorem Spine.update {b : B3C} {xs : List Byte} {stk : Nat → CV} {h n depth : Nat} (hs : Spine b xs stk h n depth)
    (cv : CV) : Spine b xs (Function.update stk depth cv) h n depth :=
  hs.congr fun _ hd => Function.update_of_ne (Nat.ne_of_lt hd) _ _

/-- The merges and the push of a close are the counter's carry: with the next perfect subtree of `2^h` chunks in hand, they
count it in (R152, R153). -/
theorem Spine.carry {b c : B3C} {xs : List Byte} {h n depth fuel : Nat} {cv : CV}
    (hparent : ∀ l r, parentNode c l r = parentNode b l r)
    (hs : Spine b xs (stackEntry c) h n depth) (hcv : cv = nodeCV (tree b xs (n * 2 ^ h) (2 ^ h)))
    (hn : n + 1 < 2 ^ fuel) :
    Spine b xs
      (Function.update (stackEntry c) (depth - tzUpTo fuel (n + 1)) (mergeN c depth cv (tzUpTo fuel (n + 1))))
      h (n + 1) (depth - tzUpTo fuel (n + 1) + 1) := by
  induction hs generalizing cv fuel with
  | empty h =>
    rw [tzUpTo_odd fuel _ rfl]
    exact .oneBit (n := 0) (.empty (h + 1)) (by simpa [mergeN] using hcv)
  | @zeroBit h n depth hs _ =>
    rw [tzUpTo_odd fuel _ (by omega)]
    exact .oneBit (hs.update cv) ((Function.update_self _ _ _).trans hcv)
  | @oneBit h n depth hs htop ih =>
    cases fuel with
    | zero => rw [Nat.pow_zero] at hn; omega
    | succ fuel =>
      have hmerged : parentCV c (stackEntry c depth) cv = nodeCV (tree b xs (n * 2 ^ (h + 1)) (2 ^ (h + 1))) := by
        rw [hcv, htop, parentCV, hparent, odd_mul_two_pow, even_mul_two_pow,
          ← tree_split b xs _ h (Nat.two_pow_pos h) (Nat.le_refl _), ← Nat.two_mul, ← Nat.pow_succ']
      have hhalf : (2 * n + 1 + 1) / 2 = n + 1 := by omega
      have hcarry := ih hmerged (fuel := fuel) (by rw [Nat.pow_succ] at hn; omega)
      rw [tzUpTo_even _ _ (by omega), hhalf, mergeN_succ_left, Nat.add_sub_add_right]
      exact .zeroBit (n := n + 1) hcarry

/-- RootFold's fold joins the subtrees on the stack with what follows them, `r` chunks of at most `2^h` (R156). -/
theorem Spine.foldFrom {b c : B3C} {xs : List Byte} {h n depth r : Nat}
    (hparent : ∀ x y, parentNode c x y = parentNode b x y)
    (hs : Spine b xs (stackEntry c) h n depth) (h1 : 1 ≤ r) (hr : r ≤ 2 ^ h) :
    Machine.foldFrom c depth (tree b xs (n * 2 ^ h) r) = tree b xs 0 (n * 2 ^ h + r) := by
  induction hs generalizing r with
  | empty h => rw [Nat.zero_mul, Nat.zero_add]; rfl
  | @zeroBit h n depth _ ih =>
    rw [even_mul_two_pow]
    exact ih h1 (by rw [Nat.pow_succ]; omega)
  | @oneBit h n depth _ htop ih =>
    rw [Machine.foldFrom, htop, hparent, odd_mul_two_pow, even_mul_two_pow, ← tree_split b xs _ h h1 hr,
      ih (by omega) (by rw [Nat.pow_succ]; omega), Nat.add_assoc]

end Sys2Proof.Machine
end

section
/-! The accumulator computes the tree (42_tree.md R159): chunk by chunk, an input leaves a fresh chunk on the stack of the
chunks before it, and RootFold joins the last chunk with that stack. -/

namespace Sys2Proof.Machine

open Sys2Proof.Claims

/-! ## A chunk does not touch the stack (R131, R132) -/

/-- The machine with another stack, its depth included. -/
def onStack (st : Vector CV 54) (depth : Fin 55) (b : B3C) : B3C := { b with stack := st, depth := depth }

theorem fillBuf_onStack (st : Vector CV 54) (d : Fin 55) (b : B3C) (xs : List Byte) :
    fillBuf (onStack st d b) xs = onStack st d (fillBuf b xs) := by
  simp only [fillBuf, onStack, bufTake]

theorem compressBlock_onStack (st : Vector CV 54) (d : Fin 55) (b : B3C) :
    compressBlock (onStack st d b) = onStack st d (compressBlock b) := by
  simp only [compressBlock, onStack, blockFlags, startFlag]
  rfl

theorem pushByte_onStack (st : Vector CV 54) (d : Fin 55) (b : B3C) (x : Byte) :
    pushByte (onStack st d b) x = onStack st d (pushByte b x) := by
  by_cases h : b.bufLen.val = 64
  · rw [pushByte, pushByte, makeRoom_of_full h, makeRoom_of_full (by simpa only [onStack] using h),
      compressBlock_onStack, fillBuf_onStack]
  · rw [pushByte, pushByte, makeRoom_of_ne h, makeRoom_of_ne (by simpa only [onStack] using h), fillBuf_onStack]

theorem foldl_pushByte_onStack (st : Vector CV 54) (d : Fin 55) (xs : List Byte) (b : B3C) :
    xs.foldl pushByte (onStack st d b) = onStack st d (xs.foldl pushByte b) := by
  induction xs generalizing b with
  | nil => rfl
  | cons x xs ih => rw [List.foldl_cons, List.foldl_cons, pushByte_onStack, ih]

theorem chunkNode_onStack (st : Vector CV 54) (d : Fin 55) (b : B3C) : chunkNode (onStack st d b) = chunkNode b := by
  simp only [chunkNode, onStack, chunkEndFlags, startFlag]
  rfl

theorem stackEntry_eq_of_stack {b c : B3C} (h : b.stack = c.stack) : stackEntry b = stackEntry c := by
  funext d
  rw [stackEntry, stackEntry, h]

theorem parentNode_eq_of_key {b c : B3C} (hbk : c.bk = b.bk) (hbf : c.bf = b.bf) (l r : CV) :
    parentNode c l r = parentNode b l r := by
  rw [parentNode, parentNode, parentFlags, parentFlags, hbk, hbf]

/-! ## A fresh chunk and its bytes -/

/-- Chunk `k` of an input, fresh, on a stack (R139). -/
def freshChunk (b : B3C) (k : Nat) (st : Vector CV 54) (depth : Fin 55) : B3C :=
  onStack st depth (chunkReset { b with ccnt := BitVec.ofNat 64 k })

/-- Chunk `k` of an input with its bytes taken, on a stack. -/
def takenChunk (b : B3C) (xs : List Byte) (k : Nat) (st : Vector CV 54) (depth : Fin 55) : B3C :=
  (chunkBytes xs k).foldl pushByte (freshChunk b k st depth)

theorem chunkLen_freshChunk (b : B3C) (k : Nat) (st : Vector CV 54) (d : Fin 55) : chunkLen (freshChunk b k st d) = 0 := by
  rfl

/-- INIT leaves chunk 0 fresh on an empty stack (R182). -/
theorem initBody_eq_freshChunk (m : Mode) (b : B3C) :
    initBody m b = freshChunk (initBody m b) 0 (initBody m b).stack 0 := by
  simp only [initBody, freshChunk, onStack, chunkReset]
  rfl

theorem takenChunk_frame (b : B3C) (xs : List Byte) (k : Nat) (st : Vector CV 54) (d : Fin 55) :
    (takenChunk b xs k st d).bk = b.bk ∧ (takenChunk b xs k st d).bf = b.bf ∧
      (takenChunk b xs k st d).ccnt = BitVec.ofNat 64 k ∧ (takenChunk b xs k st d).stack = st ∧
      (takenChunk b xs k st d).depth = d := by
  obtain ⟨_, _, _, _, e⟩ := foldl_pushByte_frame (chunkBytes xs k) (freshChunk b k st d)
  rw [takenChunk, e]
  exact ⟨rfl, rfl, rfl, rfl, rfl⟩

theorem takenChunk_stack (b : B3C) (xs : List Byte) (k : Nat) (st : Vector CV 54) (d : Fin 55) :
    (takenChunk b xs k st d).stack = st := by
  obtain ⟨_, _, _, hstack, _⟩ := takenChunk_frame b xs k st d
  exact hstack

theorem toNat_takenChunk_ccnt (b : B3C) (xs : List Byte) {k : Nat} (hk : k < 2 ^ 64) (st : Vector CV 54) (d : Fin 55) :
    (takenChunk b xs k st d).ccnt.toNat = k := by
  obtain ⟨_, _, hccnt, _, _⟩ := takenChunk_frame b xs k st d
  rw [hccnt, BitVec.toNat_ofNat, Nat.mod_eq_of_lt hk]

/-- A chunk's Node is the leaf of the tree, whatever stack the chunk stands on (R134, R159). -/
theorem chunkNode_takenChunk (b : B3C) (xs : List Byte) (k : Nat) (st : Vector CV 54) (d : Fin 55) :
    chunkNode (takenChunk b xs k st d) = tree b xs k 1 := by
  rw [takenChunk, freshChunk, foldl_pushByte_onStack, chunkNode_onStack, tree_one, leafNode, chunkUpdate_eq_foldl]

theorem chunkLen_foldl_pushByte (xs : List Byte) (b : B3C) (h : chunkLen b + xs.length ≤ 1024) :
    chunkLen (xs.foldl pushByte b) = chunkLen b + xs.length := by
  induction xs generalizing b with
  | nil => rfl
  | cons x xs ih =>
    rw [List.length_cons] at h ⊢
    have hb := chunkLen_pushByte b x (by omega)
    rw [List.foldl_cons, ih _ (by omega), hb]
    omega

/-! ## Closing a chunk (R152, R160) -/

/-- A number below `2^m` has at most `m` one bits. -/
theorem popcountUpTo_le (f m n : Nat) (h : n < 2 ^ m) : popcountUpTo f n ≤ m := by
  induction f generalizing m n with
  | zero => exact Nat.zero_le m
  | succ f ih =>
    cases m with
    | zero =>
      rw [Nat.lt_one_iff.mp h, popcountUpTo_zero]
    | succ m =>
      rw [Nat.pow_succ] at h
      have hhalf := ih m (n / 2) (by omega)
      rw [popcountUpTo]
      omega

/-- A close writes the slot that its merges leave free (R152). -/
theorem stackEntry_closed {b : B3C} {k : Nat} (h : b.depth.val - k < 54) :
    stackEntry (closed b k) =
      Function.update (stackEntry b) (b.depth.val - k) (mergeN b b.depth.val (nodeCV (chunkNode b)) k) := by
  funext d
  rw [Function.update_apply]
  by_cases hd : d < 54
  · rw [stackEntry, stackEntry, dif_pos hd, dif_pos hd, closed_stack, Vector.getElem_setIfInBounds]
    simp only [eq_comm]
  · rw [stackEntry, stackEntry, dif_neg hd, dif_neg hd, if_neg (by omega)]

/-- A taken chunk, closed, leaves the next one fresh. -/
theorem closed_takenChunk (b : B3C) (xs : List Byte) (k : Nat) (st : Vector CV 54) (d : Fin 55) (t : Nat) :
    closed (takenChunk b xs k st d) t =
      freshChunk b (k + 1) (closed (takenChunk b xs k st d) t).stack (closed (takenChunk b xs k st d) t).depth := by
  obtain ⟨_, _, _, _, e⟩ := foldl_pushByte_frame (chunkBytes xs k) (freshChunk b k st d)
  rw [takenChunk, e]
  simp only [closed, freshChunk, onStack, chunkReset, pushCV, BitVec.ofNat_add]
  rfl

/-- A stack that holds the perfect subtrees of the `k` chunks before chunk `k` (R150, R153). -/
structure HoldsChunksBefore (b : B3C) (xs : List Byte) (k : Nat) (st : Vector CV 54) (d : Fin 55) : Prop where
  depth_popcount : d.val = popcount k
  spine : Spine b xs (stackEntry (takenChunk b xs k st d)) 0 k d.val

/-- The close of chunk `k` passes its checks and puts the chunk on the stack (R155, R160). -/
theorem HoldsChunksBefore.close {b : B3C} {xs : List Byte} {k : Nat} {st : Vector CV 54} {d : Fin 55}
    (hs : HoldsChunksBefore b xs k st d) (hk : k + 1 < 2 ^ 54) :
    ∃ st' d', closeChecked (takenChunk b xs k st d) = .ok (freshChunk b (k + 1) st' d') ∧
      HoldsChunksBefore b xs (k + 1) st' d' := by
  obtain ⟨hbk, hbf, _, _, hdepth⟩ := takenChunk_frame b xs k st d
  have hcount := toNat_takenChunk_ccnt b xs (show k < 2 ^ 64 by omega) st d
  have hle := tz_succ_le_popcount k (by omega)
  have hafter := popcount_sub_tz_add_one k (by omega)
  have hbound : popcount (k + 1) ≤ 54 := popcountUpTo_le 64 54 (k + 1) hk
  rw [← hs.depth_popcount] at hle hafter
  have hroom : (takenChunk b xs k st d).depth.val - tz (k + 1) < 54 := by rw [hdepth]; omega
  have hleaf : nodeCV (chunkNode (takenChunk b xs k st d)) = nodeCV (tree b xs (k * 2 ^ 0) (2 ^ 0)) := by
    rw [chunkNode_takenChunk, Nat.pow_zero, Nat.mul_one]
  have hcarry := hs.spine.carry (fuel := 64) (parentNode_eq_of_key hbk hbf) hleaf (by omega)
  have hclosed := stackEntry_closed hroom
  rw [hdepth] at hclosed
  refine ⟨(closed (takenChunk b xs k st d) (tz (k + 1))).stack, (closed (takenChunk b xs k st d) (tz (k + 1))).depth,
    ?_, ?_, ?_⟩
  · rw [closeChecked_of_entries (by rw [hcount]; omega) (by rw [hcount, hdepth]; exact hle)
      (by rw [hcount]; exact hroom), hcount]
    exact congrArg Except.ok (closed_takenChunk b xs k st d (tz (k + 1)))
  · rw [closed_depth _ _ hroom, hdepth, hafter]
  · rw [stackEntry_eq_of_stack (takenChunk_stack b xs (k + 1) _ _), hclosed, closed_depth _ _ hroom, hdepth]
    exact hcarry

/-! ## The whole input (R159) -/

/-- Every chunk but the first has a byte (R159). -/
theorem lt_chunkCount_iff (len k : Nat) : k < chunkCount len ↔ k = 0 ∨ 1024 * k < len := by
  unfold chunkCount
  omega

/-- A chunk's bytes and more close the chunk (R154). -/
theorem absorbBytes_close {f c : B3C} {ys : List Byte} (hf : chunkLen f = 0) (hlen : 1024 < ys.length)
    (hc : closeChecked ((ys.take 1024).foldl pushByte f) = .ok c) : absorbBytes ys f = absorbBytes (ys.drop 1024) c := by
  have htake : (ys.take 1024).length = 1024 := by rw [List.length_take]; omega
  have hfull : chunkLen ((ys.take 1024).foldl pushByte f) = 1024 := by
    rw [chunkLen_foldl_pushByte _ _ (by omega), hf, htake]
  have hmore : ys.drop 1024 ≠ [] := List.ne_nil_of_length_pos (by rw [List.length_drop]; omega)
  calc absorbBytes ys f
      = absorbBytes (ys.take 1024 ++ ys.drop 1024) f := by rw [List.take_append_drop]
    _ = absorbBytes (ys.drop 1024) ((ys.take 1024).foldl pushByte f) := by
        rw [absorbBytes_append, absorbBytes_within _ _ (by omega)]; rfl
    _ = absorbBytes (ys.drop 1024) c := by
        rw [absorbBytes_eq_foldlM, absorbBytes_eq_foldlM, closeIfFull_idem (by rw [closeIfFull_of_full hfull, hc]) _ hmore]

/-- The input reaches each of its chunks, with the chunks before it on the stack. -/
theorem absorbBytes_reaches_chunk (m : Mode) (b : B3C) (xs : List Byte) (hlen : xs.length < 2 ^ 64) (k : Nat)
    (hk : k < chunkCount xs.length) :
    ∃ st d, absorbBytes xs (initBody m b) = absorbBytes (xs.drop (1024 * k)) (freshChunk (initBody m b) k st d) ∧
      HoldsChunksBefore (initBody m b) xs k st d := by
  induction k with
  | zero =>
    exact ⟨_, _, congrArg (absorbBytes xs) (initBody_eq_freshChunk m b), popcount_zero.symm, .empty 0⟩
  | succ k ih =>
    obtain ⟨st, d, hreach, hholds⟩ := ih (by omega)
    rw [lt_chunkCount_iff] at hk
    have hmore : 1024 < (xs.drop (1024 * k)).length := by rw [List.length_drop]; omega
    obtain ⟨st', d', hclose, hholds'⟩ := hholds.close (by omega)
    refine ⟨st', d', ?_, hholds'⟩
    rw [hreach, absorbBytes_close (chunkLen_freshChunk _ k st d) hmore hclose, List.drop_drop, Nat.mul_succ]

/-- RootFold joins the open chunk with the chunks before it, and adds ROOT (R156). -/
theorem HoldsChunksBefore.rootFold {b : B3C} {xs : List Byte} {k : Nat} {st : Vector CV 54} {d : Fin 55}
    (hs : HoldsChunksBefore b xs k st d) :
    Machine.rootFold (takenChunk b xs k st d) =
      { tree b xs 0 (k + 1) with flags := (tree b xs 0 (k + 1)).flags ||| rootFlag } := by
  obtain ⟨hbk, hbf, _, _, hdepth⟩ := takenChunk_frame b xs k st d
  have hfold := hs.spine.foldFrom (parentNode_eq_of_key hbk hbf) (Nat.le_refl 1) (Nat.le_refl 1)
  rw [Nat.pow_zero, Nat.mul_one] at hfold
  rw [Machine.rootFold, hdepth, chunkNode_takenChunk, hfold]

/-- Settles O25: the input reaches its last chunk, which stays open, and RootFold joins it with the stack. -/
theorem accumulatorComputesMerkleTree : Obligations.AccumulatorComputesMerkleTree := by
  intro m b xs hlen
  obtain ⟨k, hcount⟩ : ∃ k, chunkCount xs.length = k + 1 :=
    Nat.exists_eq_add_of_le' (show 1 ≤ chunkCount xs.length from Nat.le_max_left _ _)
  obtain ⟨st, d, hreach, hholds⟩ := absorbBytes_reaches_chunk m b xs hlen k (by omega)
  have hin := (lt_chunkCount_iff xs.length k).mp (by omega)
  have hout := mt (lt_chunkCount_iff xs.length (k + 1)).mpr (by omega)
  have hlast : (xs.drop (1024 * k)).length ≤ 1024 := by rw [List.length_drop]; omega
  have hopen : absorbBytes xs (initBody m b) = .ok (takenChunk (initBody m b) xs k st d) := by
    rw [hreach, absorbBytes_within _ _ (by rw [chunkLen_freshChunk]; omega), takenChunk, chunkBytes,
      List.take_of_length_le hlast]
  refine ⟨_, hopen, ?_, ?_⟩
  · rw [toNat_takenChunk_ccnt _ _ (by omega), hcount]
  · rw [hholds.rootFold, hcount]
    rfl

end Sys2Proof.Machine
end

section
/-! What the invariant keeps out of the tree (42_tree.md R153, R158): a fault of any step, and ROOT in any compression made
while streaming. -/

namespace Sys2Proof.Machine

/-! ## No fault (R153, R26) -/

theorem memWrite_ne_fault (host addr width : Nat) (v : Word) (s : State) (f : Fault) :
    memWrite host addr width v s ≠ .fault f := by
  cases h : resolveAccess s.owner host addr width with
  | unanswered => rw [memWrite_of_unanswered h]; nofun
  | refused r => rw [memWrite_of_refused h]; nofun
  | register r => rw [memWrite_of_register h]; nofun

theorem memRead_ne_fault (host addr width : Nat) (s : State) (f : Fault) : memRead host addr width s ≠ .fault f := by
  cases h : resolveAccess s.owner host addr width with
  | unanswered => rw [memRead_of_unanswered h]; nofun
  | refused r => rw [memRead_of_refused h]; nofun
  | register r => rw [memRead_of_register h]; nofun

/-- The core's turn goes on: with BUSY set it runs a command that does not fault, and else it does nothing. -/
theorem coreStep_ne_fault {s : State} (hi : s.Inv) (f : Fault) : coreStep s ≠ .fault f := by
  cases hb : s.b3c.busy with
  | false => rw [coreStep_of_idle hb]; nofun
  | true =>
    cases hd : decode s.b3c.pend with
    | error e => rw [coreStep_of_error hb hd]; nofun
    | ok i =>
      obtain ⟨t, ht⟩ := exec_goesOn hi i
      rw [coreStep_of_ok hb hd, ht]
      nofun

/-- Settles O59: of the four moves only the core's can fault, and from the invariant it does not. -/
theorem invariantExcludesFault : Obligations.InvariantExcludesFault := by
  intro s f hi
  cases hin : s.inputs with
  | nil =>
    rw [step, hin]
    exact coreStep_ne_fault hi f
  | cons e rest =>
    rw [step_of_inputs hin]
    cases e with
    | write host addr width v =>
      rw [eventStep_write]
      exact memWrite_ne_fault host addr width v _ f
    | read host addr width =>
      rw [eventStep_read]
      exact memRead_ne_fault host addr width _ f
    | coreTurn =>
      rw [eventStep_coreTurn]
      exact coreStep_ne_fault (s := { s with inputs := rest }) hi f
    | reset => nofun

/-! ## No ROOT while streaming (R158, R86) -/

/-- BF holds a mode's flag or nothing. -/
theorem B3C.Inv.bf_and_root {b : B3C} (hi : b.Inv) : b.bf &&& 0x88 = 0 := by
  by_cases hp : b.phase = .idle
  · obtain ⟨_, _, hbf, _⟩ := hi.idle_hash hp
    rw [hbf]
    decide
  · rw [hi.base_flags hp]
    cases b.mode <;> decide

theorem startFlag_and_root (b : B3C) : startFlag b &&& 0x88 = 0 := by
  unfold startFlag
  split <;> decide

/-- Flags put together have ROOT or bit 7 only if one of them has. -/
theorem or_and_root {x y : Byte} (hx : x &&& 0x88 = 0) (hy : y &&& 0x88 = 0) : (x ||| y) &&& 0x88 = 0 := by
  rw [BitVec.and_comm, BitVec.and_or_distrib_left, BitVec.and_comm _ x, BitVec.and_comm _ y, hx, hy]
  rfl

/-- Settles O20: BF and each flag added to it have neither bit. -/
theorem streamingFlagsHaveNoRoot : Obligations.StreamingFlagsHaveNoRoot := by
  intro b hi
  have hblock : blockFlags b &&& 0x88 = 0 := or_and_root hi.bf_and_root (startFlag_and_root b)
  exact ⟨hblock, or_and_root hblock (by decide), fun _ _ => or_and_root hi.bf_and_root (by decide)⟩

end Sys2Proof.Machine
end

section
/-! The four-lane engine, lane by lane (43_compress4x.md R170, R171): what lane `j` of the vectors holds runs through the
scalar rules, and a full chunk taken by the accumulator is sixteen compressions of its blocks (41_chunk.md R131 to R134). -/

namespace Sys2Proof.Machine

/-! ## One lane of the vectors (R171) -/

/-- The Words that lane `j` of the vectors holds. -/
def lane {n : Nat} (j : Fin 4) (s : Vector Lanes n) : Vector Word n := s.map fun w => w[j]

theorem getElem_lane {n : Nat} (j : Fin 4) (s : Vector Lanes n) (i : Nat) (h : i < n) : (lane j s)[i] = s[i][j] := by
  simp [lane]

theorem getElem_lane_fin {n : Nat} (j : Fin 4) (s : Vector Lanes n) (i : Fin n) : (lane j s)[i] = s[i][j] :=
  getElem_lane j s i.val i.isLt

theorem lane_set {n : Nat} (j : Fin 4) (s : Vector Lanes n) (a : Fin n) (v : Lanes) :
    lane j (s.set a v) = (lane j s).set a v[j] := by
  simp [lane]

theorem getElem_addLanes (x y : Lanes) (j : Fin 4) : (addLanes x y)[j] = x[j] + y[j] := by simp [addLanes]

theorem getElem_xorLanes (x y : Lanes) (j : Fin 4) : (xorLanes x y)[j] = x[j] ^^^ y[j] := by simp [xorLanes]

theorem getElem_rotrLanes (x : Lanes) (n : Nat) (j : Fin 4) : (rotrLanes x n)[j] = rotr x[j] n := by simp [rotrLanes]

/-- Each lane of a four-lane G is G on that lane (R102). -/
theorem lane_gLanes (j : Fin 4) (s : Vector Lanes 16) (a b c d : Fin 16) (mx my : Lanes) :
    lane j (gLanes s a b c d mx my) = g (lane j s) a b c d mx[j] my[j] := by
  simp only [gLanes, g, ← getElem_lane_fin, lane_set, getElem_addLanes, getElem_xorLanes, getElem_rotrLanes]

/-- Each lane of a four-lane round is a round on that lane (R103). -/
theorem lane_roundLanes (j : Fin 4) (s m : Vector Lanes 16) : lane j (roundLanes s m) = round (lane j s) (lane j m) := by
  simp only [roundLanes, round, lane_gLanes, getElem_lane]

/-- "The message schedule and π are the same in every lane" (R171, R104). -/
theorem lane_permute (j : Fin 4) (m : Vector Lanes 16) : lane j (permute m) = permute (lane j m) := by
  refine Vector.ext fun i hi => ?_
  rw [getElem_lane, getElem_permute, getElem_permute, getElem_lane_fin]

theorem lane_moreRoundsLanes (j : Fin 4) (k : Nat) (s m : Vector Lanes 16) :
    lane j (moreRoundsLanes k s m) = moreRounds k (lane j s) (lane j m) := by
  induction k generalizing s m with
  | zero => rfl
  | succ k ih => rw [moreRoundsLanes, moreRounds, ih, lane_roundLanes, lane_permute]

/-- The initial state of four lanes (R101): IV, block length and flags are the same in each. -/
def initialLanes (cv : Vector Lanes 8) (t : Vector U64 4) (blen flags : Byte) : Vector Lanes 16 :=
  #v[cv[0], cv[1], cv[2], cv[3], cv[4], cv[5], cv[6], cv[7],
     sameLanes iv[0], sameLanes iv[1], sameLanes iv[2], sameLanes iv[3],
     Vector.ofFn fun j => lo32 t[j], Vector.ofFn fun j => hi32 t[j],
     sameLanes (blen.zeroExtend 32), sameLanes (flags.zeroExtend 32)]

theorem compressLanes_eq (cv : Vector Lanes 8) (m : Vector Lanes 16) (t : Vector U64 4) (blen flags : Byte) :
    compressLanes cv m t blen flags = Vector.ofFn fun i : Fin 8 =>
      xorLanes (moreRoundsLanes 6 (roundLanes (initialLanes cv t blen flags) m) m)[i.val]
        (moreRoundsLanes 6 (roundLanes (initialLanes cv t blen flags) m) m)[i.val + 8] := rfl

theorem lane_initialLanes (j : Fin 4) (cv : Vector Lanes 8) (t : Vector U64 4) (blen flags : Byte) :
    lane j (initialLanes cv t blen flags) = initialState (lane j cv) t[j] blen flags := by
  refine Vector.ext fun i hi => ?_
  interval_cases i <;> simp [lane, initialLanes, initialState, sameLanes]

/-- Each lane of a four-lane compression is the chaining value of that lane's compression (R107, R10). -/
theorem lane_compressLanes (j : Fin 4) (cv : Vector Lanes 8) (m : Vector Lanes 16) (t : Vector U64 4) (blen flags : Byte) :
    lane j (compressLanes cv m t blen flags) = first8 (compress (lane j cv) (lane j m) t[j] blen flags) := by
  refine Vector.ext fun w hw => ?_
  rw [getElem_first8, compress, getElem_outputWords_low _ _ ⟨w, hw⟩, ← lane_initialLanes, ← lane_roundLanes,
    ← lane_moreRoundsLanes, getElem_lane, getElem_lane, getElem_lane, compressLanes_eq, Vector.getElem_ofFn,
    getElem_xorLanes]

/-! ## A full chunk by blocks (R131 to R134) -/

/-- The chaining value after the first `n` blocks of a full chunk with counter `t`, by the scalar rules: one compression a
block (R131, R133). -/
def chunkCV (bk : CV) (bf : Byte) (t : U64) (x : FullChunk) : (n : Nat) → CV
  | 0 => bk
  | n + 1 => first8 (compress (chunkCV bk bf t x n) (chunkBlock x (Fin.ofNat 16 n)) t 64
      (fullChunkFlags bf (Fin.ofNat 16 n)))

theorem chunkCV_succ (bk : CV) (bf : Byte) (t : U64) (x : FullChunk) (i : Fin 16) :
    chunkCV bk bf t x (i.val + 1) =
      first8 (compress (chunkCV bk bf t x i.val) (chunkBlock x i) t 64 (fullChunkFlags bf i)) := by
  rw [chunkCV, Fin.ofNat_val_eq_self]

theorem lane_blockLanes (j : Fin 4) (xs : Vector FullChunk 4) (i : Fin 16) :
    lane j (blockLanes xs i) = chunkBlock xs[j] i := by
  refine Vector.ext fun w hw => ?_
  simp [blockLanes, getElem_lane]

/-- Each lane of the engine goes through its own chunk's chaining values, with its own counter (R170). -/
theorem lane_fourLaneBlocks (bk : CV) (bf : Byte) (k : U64) (xs : Vector FullChunk 4) (j : Fin 4) (n : Nat) :
    lane j (fourLaneBlocks bk bf k xs n) = chunkCV bk bf (k + BitVec.ofNat 64 j.val) xs[j] n := by
  induction n with
  | zero =>
    refine Vector.ext fun w hw => ?_
    simp [chunkCV, fourLaneBlocks, getElem_lane, sameLanes]
  | succ n ih =>
    have hcounter : (Vector.ofFn fun j : Fin 4 => k + BitVec.ofNat 64 j.val)[j] = k + BitVec.ofNat 64 j.val := by simp
    rw [fourLaneBlocks, lane_compressLanes, ih, lane_blockLanes, hcounter, chunkCV]

/-- The bytes of block `i` of a full chunk (R131). -/
def blockBytes (x : FullChunk) (i : Fin 16) : Bytes64 := Vector.ofFn fun j => x[64 * i.val + j.val]

theorem take_succ_blocks (x : FullChunk) (i : Fin 16) :
    x.toList.take (64 * (i.val + 1)) = x.toList.take (64 * i.val) ++ (blockBytes x i).toList := by
  have hblock : (x.toList.drop (64 * i.val)).take 64 = (blockBytes x i).toList := by
    refine List.ext_getElem (by simp; omega) fun _ _ _ => ?_
    simp [blockBytes]
  rw [Nat.mul_succ, List.take_add, hblock]

/-- The machine with block `i` of a chunk in its full buffer and the blocks before it compressed. -/
def holdingBlock (b : B3C) (x : FullChunk) (i : Fin 16) : B3C :=
  { b with cscv := chunkCV b.bk b.bf b.ccnt x i.val, blocks := i, buf := blockBytes x i, bufLen := 64 }

/-- The flags of a block that is not the chunk's last (R133). -/
theorem blockFlags_holdingBlock (b : B3C) (x : FullChunk) {i : Fin 16} (h : i.val < 15) :
    blockFlags (holdingBlock b x i) = fullChunkFlags b.bf i := by
  simp [blockFlags, startFlag, fullChunkFlags, holdingBlock, h.ne]

/-- The flags of the chunk's last block (R133, R134). -/
theorem chunkEndFlags_holdingBlock (b : B3C) (x : FullChunk) :
    chunkEndFlags (holdingBlock b x 15) = fullChunkFlags b.bf 15 := by
  simp [chunkEndFlags, startFlag, fullChunkFlags, holdingBlock]

/-- CompressBlock on a block that is not the chunk's last takes CSCV one block on (R131). -/
theorem compressBlock_holdingBlock (b : B3C) (x : FullChunk) {i : Fin 16} (h : i.val < 15) :
    compressBlock (holdingBlock b x i) =
      { b with cscv := chunkCV b.bk b.bf b.ccnt x (i.val + 1), blocks := i + 1, buf := zero64, bufLen := 0 } := by
  rw [compressBlock, blockFlags_holdingBlock b x h, chunkCV_succ]
  rfl

/-- 64 bytes into an empty buffer fill it (R132). -/
theorem fillBuf_of_empty {b : B3C} (h : b.bufLen.val = 0) (v : Bytes64) :
    fillBuf b v.toList = { b with buf := v, bufLen := 64 } := by
  refine (fillBuf_ext ⟨v, 64, rfl⟩ ?_ fun j hj => ?_).symm
  · rw [h, Vector.length_toList]; rfl
  · rw [h, Vector.length_toList, if_pos (by omega)]
    simp [List.getD_eq_getElem?_getD, hj]

/-- The first block's bytes into a fresh chunk are held (R132). -/
theorem foldl_pushByte_chunkReset (b : B3C) (x : FullChunk) :
    (blockBytes x 0).toList.foldl pushByte (chunkReset b) = holdingBlock b x 0 := by
  rw [foldl_pushByte_within _ _ (by rw [Vector.length_toList]; rfl), fillBuf_of_empty rfl]
  rfl

/-- A further block's bytes: the block held is compressed, and they are held in its place (R131, R132). -/
theorem foldl_pushByte_holdingBlock (b : B3C) (x : FullChunk) {i i' : Fin 16} (h : i.val + 1 = i'.val) :
    (blockBytes x i').toList.foldl pushByte (holdingBlock b x i) = holdingBlock b x i' := by
  have hnext : i + 1 = i' := by omega
  have hfull : (holdingBlock b x i).bufLen.val = 64 := rfl
  rw [foldl_pushByte_across _ _ (by simp [hfull]) (by simp), hfull, Nat.sub_self, List.take_zero, List.drop_zero,
    fillBuf_nil, compressBlock_holdingBlock b x (by omega), fillBuf_of_empty rfl, hnext, h]
  rfl

/-- The first `n + 1` blocks' bytes into a fresh chunk: all but the last of them are compressed (R132). -/
theorem foldl_pushByte_blocks (b : B3C) (x : FullChunk) (n : Nat) (h : n < 16) :
    (x.toList.take (64 * (n + 1))).foldl pushByte (chunkReset b) = holdingBlock b x ⟨n, h⟩ := by
  induction n with
  | zero =>
    rw [take_succ_blocks x ⟨0, h⟩, List.foldl_append]
    exact foldl_pushByte_chunkReset b x
  | succ n ih =>
    rw [take_succ_blocks x ⟨n + 1, h⟩, List.foldl_append, ih (by omega)]
    exact foldl_pushByte_holdingBlock b x rfl

/-- A full chunk's CV is its sixteenth chaining value: ChunkNode compresses the block held (R134). -/
theorem nodeCV_fullChunk (b : B3C) (x : FullChunk) :
    nodeCV (chunkNode (chunkUpdate x.toList (chunkReset b))) = chunkCV b.bk b.bf b.ccnt x 16 := by
  have hall : x.toList.take (64 * 16) = x.toList := List.take_of_length_le (by simp)
  rw [chunkUpdate_eq_foldl, ← hall, foldl_pushByte_blocks b x 15 (by decide), nodeCV, nodeOut, chunkNode,
    show (⟨15, by decide⟩ : Fin 16) = 15 from rfl, chunkEndFlags_holdingBlock]
  exact (chunkCV_succ b.bk b.bf b.ccnt x 15).symm

/-! ## The engine (R170) -/

/-- What the engine returns for chunk `j` is lane `j` after sixteen blocks. -/
theorem getElem_compress4x (bk : CV) (bf : Byte) (k : U64) (xs : Vector FullChunk 4) (j : Fin 4) :
    (compress4x bk bf k xs)[j] = lane j (fourLaneBlocks bk bf k xs 16) := by
  refine Vector.ext fun w hw => ?_
  simp [compress4x, getElem_lane]

/-- Settles O35: the engine's lane and the accumulator both go through the chunk's sixteen chaining values. -/
theorem fourLanesMatchScalar : Obligations.FourLanesMatchScalar := by
  intro b k xs j
  rw [getElem_compress4x, lane_fourLaneBlocks, nodeCV_fullChunk]

end Sys2Proof.Machine
end

section
/-! ABSORB by its rule (44_hasher.md R183, R188): its operand as the first bytes of DIN in stream order, an input cut into
pieces, bytes that fit the block buffer (41_chunk.md R132), and the errors before any byte is taken (R222). -/

namespace Sys2Proof.Machine

open Sys2Proof.Claims

/-! ## An input and its pieces (R188) -/

/-- ABSORB's operand is the first `n` bytes of DIN in stream order (R64, R183). -/
theorem absorbOperand_eq_map_streamByte (b : B3C) {n : Nat} (hn : n ≤ 64) :
    absorbOperand b n = (List.range n).map fun j => streamByte b.din j := by
  refine List.ext_getElem (by rw [length_absorbOperand b n hn, List.length_map, List.length_range]) fun j hj _ => ?_
  rw [length_absorbOperand b n hn] at hj
  rw [List.getElem_map, List.getElem_range, ← getD_absorbOperand_eq_streamByte b hn hj, List.getD_eq_getElem]

/-- Pieces absorbed one after the other are their concatenation absorbed at once, a stop included. -/
theorem foldlM_absorbBytes (pieces : List (List Byte)) (b : B3C) :
    pieces.foldlM (fun c xs => absorbBytes xs c) b = absorbBytes pieces.flatten b := by
  induction pieces generalizing b with
  | nil => rfl
  | cons xs pieces ih => simp only [List.foldlM_cons, List.flatten_cons, absorbBytes_append, ih]

/-- ABSORB in the ABSORBING phase is its operand absorbed, and the end of a command (R183, R91). -/
theorem exec_absorb_of_absorbing {n : Nat} {s : State} (hp : s.b3c.phase = .absorbing) (hn : n ≤ 64) :
    exec (.absorb n) s = commit s (absorbBytes (absorbOperand s.b3c n) s.b3c) := by
  rw [exec_eq_commit, execBody, absorbBody_of_absorbing hp hn]

/-- Settles O18: by induction on the pieces, and the operand is DIN's first bytes. -/
theorem absorbSplitInvariant : Obligations.AbsorbSplitInvariant := by
  refine ⟨foldlM_absorbBytes, fun n s hp hn => ?_⟩
  rw [exec_absorb_of_absorbing hp hn, absorbOperand_eq_map_streamByte s.b3c hn]

/-! ## Bytes that fit the block buffer (R132) -/

/-- A buffer with room for the operand takes all of it. -/
theorem fillBuf_absorbOperand_bufLen (b : B3C) {n : Nat} (h : b.bufLen.val + n ≤ 64) :
    (fillBuf b (absorbOperand b n)).bufLen.val = b.bufLen.val + n := by
  rw [fillBuf_bufLen_val, length_absorbOperand b n (by omega), Nat.min_eq_right (by omega)]

/-- The operand stands in the buffer from BUFLEN on, in stream order. -/
theorem getElem_fillBuf_absorbOperand (b : B3C) {n j : Nat} (hn : n ≤ 64) (hj : j < 64) :
    (fillBuf b (absorbOperand b n)).buf[j] =
      if b.bufLen.val ≤ j ∧ j < b.bufLen.val + n then streamByte b.din (j - b.bufLen.val) else b.buf[j] := by
  rw [getElem_fillBuf, length_absorbOperand b n hn]
  split
  · exact getD_absorbOperand_eq_streamByte b hn (by omega)
  · rfl

/-- ABSORB of bytes that fit the block buffer only fills it. -/
theorem exec_absorb_within_block {n : Nat} {s : State} (hp : s.b3c.phase = .absorbing)
    (h : s.b3c.bufLen.val + n ≤ 64) :
    exec (.absorb n) s = .next { s with b3c := fillBuf s.b3c (absorbOperand s.b3c n) } := by
  have hlen := length_absorbOperand s.b3c n (by omega)
  have hfit : chunkLen s.b3c + n ≤ 1024 := by
    have hblocks := s.b3c.blocks.isLt
    unfold chunkLen
    omega
  rw [exec_absorb_of_absorbing hp (by omega), absorbBytes_within _ _ (by rw [hlen]; exact hfit),
    foldl_pushByte_within _ _ (by rw [hlen]; exact h), commit_ok]

/-- Settles O12: the operand goes into the buffer, and the operand of ABSORB 0 is empty. -/
theorem absorbWithinBlock : Obligations.AbsorbWithinBlock := by
  intro n s hp hfit
  refine ⟨_, exec_absorb_within_block hp hfit, fillBuf_absorbOperand_bufLen s.b3c hfit,
    fun j => getElem_fillBuf_absorbOperand s.b3c (by omega) j.isLt, ?_, ?_⟩
  · simp only [fillBuf]
  · rintro rfl
    rw [absorbOperand, List.take_zero, fillBuf_nil]

/-! ## The errors before any byte (R222) -/

/-- A count over 64 is ILLEGAL_CMD in every phase (log 17). -/
theorem absorbBody_of_gt {n : Nat} (b : B3C) (h : 64 < n) : absorbBody n b = .error (.error .illegalCmd) := by
  rw [absorbBody, if_pos h]

theorem absorbBody_of_idle {n : Nat} {b : B3C} (hn : n ≤ 64) (hp : b.phase = .idle) :
    absorbBody n b = .error (.error .notInit) := by
  rw [absorbBody, if_neg (by omega), hp]

theorem absorbBody_of_finalized {n : Nat} {b : B3C} (hn : n ≤ 64) (hp : b.phase = .finalized) :
    absorbBody n b = .error (.error .afterFinal) := by
  rw [absorbBody, if_neg (by omega), hp]

/-- Settles O11: the count is looked at first, then the phase. -/
theorem absorbPhaseErrors : Obligations.AbsorbPhaseErrors := by
  refine fun n s => ⟨fun hn hp => ?_, fun hn hp => ?_, fun hn => ?_⟩
  · rw [exec_eq_commit, execBody, absorbBody_of_idle hn hp, commit_error]
  · rw [exec_eq_commit, execBody, absorbBody_of_finalized hn hp, commit_error]
  · rw [exec_eq_commit, execBody, absorbBody_of_gt _ hn, commit_error]

end Sys2Proof.Machine
end

section
/-! FINALIZE by its rule (44_hasher.md R184): the root of a single chunk (42_tree.md R157), the root that is a parent of
STACK[0] and everything to its right (R156), and the phase errors (R222). -/

namespace Sys2Proof.Machine

open Sys2Proof.Claims

/-! ## What FINALIZE captures (R184) -/

/-- The root registers, XPOS and PHASE are all that is written. -/
theorem captureRoot_frame (n : Node) (b : B3C) :
    captureRoot n b = { b with
      rCv := (captureRoot n b).rCv, rBlk := (captureRoot n b).rBlk
      rBlen := (captureRoot n b).rBlen, rFlg := (captureRoot n b).rFlg
      xpos := (captureRoot n b).xpos, phase := (captureRoot n b).phase } := by
  simp only [captureRoot]

/-- A chunk's length in its Node is BUFLEN (R134). -/
theorem toNat_chunkNode_blen (b : B3C) : (chunkNode b).blen.toNat = b.bufLen.val := by
  have hlt := b.bufLen.isLt
  rw [chunkNode, BitVec.toNat_ofNat]
  omega

/-- Settles O22: with no stack entry the chunk's own Node gets ROOT. -/
theorem finalizeSingleChunkRoot : Obligations.FinalizeSingleChunkRoot := by
  intro s hp hd
  have hroot := rootFold_of_depth_zero (b := s.b3c) (Fin.ext hd)
  refine ⟨_, exec_finalize_of_absorbing hp, ?_, ?_, ?_, ?_, captureRoot_xpos _ _, captureRoot_phase _ _,
    congrArg (fun b => { s with b3c := b }) (captureRoot_frame _ _)⟩
  · rw [captureRoot_rCv, hroot, chunkNode]
  · rw [captureRoot_rBlk, hroot, chunkNode]
  · rw [captureRoot_rBlen, hroot, toNat_chunkNode_blen]
  · rw [captureRoot_rFlg, hroot]
    rfl

/-! ## The fold to the right of STACK[0] (R156) -/

/-- A fold of `d + 1` entries ends in a parent of STACK[0] and of the CV that the entries from `d` down to 1 make of the
first Node's. -/
theorem foldFrom_succ_eq_parentNode (b : B3C) (d : Nat) (n : Node) :
    foldFrom b (d + 1) n = parentNode b (stackEntry b 0)
      ((List.range' 1 d).foldr (fun e cv => parentCV b (stackEntry b e) cv) (nodeCV n)) := by
  induction d generalizing n with
  | zero => rfl
  | succ d ih =>
    rw [foldFrom, ih, List.range'_1_concat, List.foldr_append, Nat.add_comm 1 d]
    rfl

/-- The CV of the rest is the fold over the last chunk's Node. -/
theorem rightCV_eq_foldr_parentCV (b : B3C) :
    rightCV b = (List.range' 1 (b.depth.val - 1)).foldr (fun e cv => parentCV b (stackEntry b e) cv)
      (nodeCV (chunkNode b)) := rfl

/-- With a stack entry the root is a parent with ROOT added. -/
theorem rootFold_of_depth_pos {b : B3C} (h : 1 ≤ b.depth.val) :
    rootFold b = { parentNode b (stackEntry b 0) (rightCV b) with flags := parentFlags b ||| rootFlag } := by
  have hd : b.depth.val = b.depth.val - 1 + 1 := by omega
  rw [rootFold, hd, foldFrom_succ_eq_parentNode, ← rightCV_eq_foldr_parentCV]
  rfl

/-- Settles O23: RootFold's last Node is a parent of STACK[0] and the folded rest. -/
theorem finalizeParentRoot : Obligations.FinalizeParentRoot := by
  intro s hp hd
  have hroot := rootFold_of_depth_pos hd
  refine ⟨_, exec_finalize_of_absorbing hp, ?_, ?_, ?_, ?_, captureRoot_xpos _ _, captureRoot_phase _ _,
    congrArg (fun b => { s with b3c := b }) (captureRoot_frame _ _)⟩
  · rw [captureRoot_rCv, hroot, parentNode]
  · rw [captureRoot_rBlk, hroot, parentNode]
  · rw [captureRoot_rBlen, hroot, parentNode_blen]
  · rw [captureRoot_rFlg, hroot, parentFlags, BitVec.or_assoc]
    rfl

/-! ## The phase errors (R222) -/

/-- Settles O21: outside ABSORBING the phase names the error. -/
theorem finalizePhaseErrors : Obligations.FinalizePhaseErrors := by
  refine fun s => ⟨fun hp => ?_, fun hp => ?_⟩
  · rw [exec_eq_commit, execBody, finalizeBody, hp, commit_error]
  · rw [exec_eq_commit, execBody, finalizeBody, hp, commit_error]

end Sys2Proof.Machine
end

section
/-! NOP and INIT by their rules (44_hasher.md R181, R182), and what every command's effect is a function of (R189). -/

namespace Sys2Proof.Machine

/-! ## NOP and INIT -/

/-- Settles O9: NOP commits the machine it finds. -/
theorem nopChangesNothing : Obligations.NopChangesNothing := by
  intro s
  rw [exec_eq_commit, execBody, commit_ok]

/-- The base key of a mode (R87). -/
theorem baseKey_eq_ite (m : Mode) (b : B3C) : baseKey m b = if m = .keyed ∨ m = .deriveMat then b.key else iv := by
  cases m <;> rfl

/-- INIT completes in every phase (R182). -/
theorem exec_init (m : Mode) (s : State) : exec (.init m) s = .next { s with b3c := initBody m s.b3c } := by
  rw [exec_eq_commit, execBody, commit_ok]

/-- INIT leaves the host operands alone (R31). -/
theorem initBody_sameOperands (m : Mode) (b : B3C) : SameOperands (initBody m b) b := by
  simp [SameOperands]

/-- INIT leaves the handshake and the error status alone (R29, R30). -/
theorem initBody_sameStatus (m : Mode) (b : B3C) : SameStatus (initBody m b) b := by
  simp [SameStatus]

/-- Settles O10: the machine after INIT, field by field. -/
theorem initStartsHash : Obligations.InitStartsHash := by
  intro m s
  refine ⟨_, exec_init m s, ?_, ?_, ?_⟩
  · rw [initBody_bk, baseKey_eq_ite]
  · rw [initBody_bf]
    cases m <;> rfl
  · simp [initBody_sameOperands, initBody_sameStatus, SameAgents, zero64, zeroCV]

/-! ## What a command depends on (R189) -/

/-- Error entry is a function of the machine too (R223). -/
theorem errorEntry_of_same_machine {s u : State} (h : s.b3c = u.b3c) (c : ErrCode) :
    errorEntry c u = { u with b3c := (errorEntry c s).b3c } := by
  simp only [errorEntry, h]

/-- The end of a command on another state with the same machine: the same machine after it, or the same fault. -/
theorem commit_of_same_machine {s u : State} (h : s.b3c = u.b3c) (r : Except Stop B3C) :
    (∀ t, commit s r = .next t → commit u r = .next { u with b3c := t.b3c }) ∧
    (∀ f, commit s r = .fault f → commit u r = .fault f) := by
  rcases r with (c | f) | b
  · refine ⟨fun t ht => ?_, nofun⟩
    obtain rfl : errorEntry c s = t := by simpa using ht
    rw [commit_error, errorEntry_of_same_machine h]
  · simp
  · refine ⟨fun t ht => ?_, nofun⟩
    obtain rfl : { s with b3c := b } = t := by simpa using ht
    rw [commit_ok]

/-- Settles O42: a command's body reads the machine only, and its end reads and writes no more. -/
theorem execDependsOnMachineOnly : Obligations.ExecDependsOnMachineOnly := by
  intro i s u h
  rw [exec_eq_commit, exec_eq_commit, ← h]
  exact commit_of_same_machine h _

end Sys2Proof.Machine
end

section
/-! The XOF output by its rules (45_xof.md): XOF_READ in range as the stream's bytes (R200 to R202), reads one after the
other (R205), XOF_SEEK (R203), and the errors (R222). -/

namespace Sys2Proof.Machine

open Sys2Proof.Claims

/-! ## What XOF_READ makes of the machine (R202) -/

/-- The machine after XOF_READ `n` that completes. -/
def afterXofRead (n : Nat) (b : B3C) : B3C :=
  { b with
    dout := wordsOf (padTo64 (streamBytes b b.xpos.toNat n))
    xpos := BitVec.ofNat 64 (b.xpos.toNat + n) }

theorem exec_xofRead_of_inRange {n : Nat} {s : State} (hp : s.b3c.phase = .finalized) (hn : n ≤ 64)
    (hr : s.b3c.xpos.toNat + n ≤ 2 ^ 64 - 1) :
    exec (.xofRead n) s = .next { s with b3c := afterXofRead n s.b3c } := by
  rw [exec_eq_commit, execBody, xofReadBody, if_neg (by omega), if_neg (not_not_intro hp), if_neg (by omega), commit_ok,
    afterXofRead]

/-- DOUT and XPOS are all that is written. -/
theorem afterXofRead_frame (n : Nat) (b : B3C) :
    afterXofRead n b = { b with dout := (afterXofRead n b).dout, xpos := (afterXofRead n b).xpos } := by
  simp only [afterXofRead]

theorem afterXofRead_phase (n : Nat) (b : B3C) : (afterXofRead n b).phase = b.phase := by
  simp only [afterXofRead]

theorem toNat_afterXofRead_xpos {n : Nat} {b : B3C} (hr : b.xpos.toNat + n ≤ 2 ^ 64 - 1) :
    (afterXofRead n b).xpos.toNat = b.xpos.toNat + n := by
  rw [afterXofRead, BitVec.toNat_ofNat, Nat.mod_eq_of_lt (by omega)]

/-- The root registers are not written, so a read leaves the stream alone (R201). -/
theorem stream_afterXofRead (n : Nat) (b : B3C) : stream (afterXofRead n b) = stream b := by
  funext p
  simp only [stream, outputBlock, afterXofRead]

/-- A byte of the stream is a byte of its output block in stream order (R201). -/
theorem stream_eq_streamByte_outputBlock (b : B3C) (p : Nat) :
    stream b p = streamByte (outputBlock b (p / 64)) (p % 64) :=
  (streamByte_eq_getElem_bytesOf _ _ (Nat.mod_lt p (by decide))).symm

/-- DOUT after a read: the stream's bytes from XPOS on, then zeros (R202, R65). -/
theorem streamByte_afterXofRead_dout (b : B3C) {n j : Nat} (hn : n ≤ 64) (hj : j < 64) :
    streamByte (afterXofRead n b).dout j = if j < n then stream b (b.xpos.toNat + j) else 0 := by
  have hlen := length_streamBytes b b.xpos.toNat n hn
  rw [streamByte_eq_getElem_bytesOf _ _ hj, afterXofRead, bytesOf_wordsOf, getElem_padTo64]
  split
  · next hlt => rw [List.getD_eq_getElem _ _ (by omega), getElem_streamBytes b _ n j hn]
  · rw [List.getD_eq_default _ _ (by omega)]

/-- Settles O26: DOUT's bytes are the stream's, and each of those is a byte of its output block. -/
theorem xofReadReturnsStream : Obligations.XofReadReturnsStream := by
  intro n s hp hn hr
  refine ⟨_, exec_xofRead_of_inRange hp hn hr, fun j hj => ?_, toNat_afterXofRead_xpos hr,
    congrArg (fun b => { s with b3c := b }) (afterXofRead_frame n s.b3c)⟩
  rw [streamByte_afterXofRead_dout s.b3c hn hj, stream_eq_streamByte_outputBlock, outputBlock]

/-! ## Reads one after the other (R205) -/

/-- The bytes a host takes from DOUT after XOF_READ `n` are the next `n` of the stream. -/
theorem take_bytesOf_afterXofRead_dout (b : B3C) {n : Nat} (hn : n ≤ 64) :
    (bytesOf (afterXofRead n b).dout).toList.take n = (List.range n).map fun j => stream b (b.xpos.toNat + j) := by
  rw [take_bytesOf_eq_map_streamByte _ hn]
  refine List.map_congr_left fun j hj => ?_
  have hlt : j < n := List.mem_range.mp hj
  rw [streamByte_afterXofRead_dout b hn (by omega), if_pos hlt]

/-- A first read in range gives its bytes, and the rest are read from the machine after it. -/
theorem readAll_cons_of_inRange {n : Nat} {s : State} (ns : List Nat) (hp : s.b3c.phase = .finalized) (hn : n ≤ 64)
    (hr : s.b3c.xpos.toNat + n ≤ 2 ^ 64 - 1) :
    readAll (n :: ns) s = (readAll ns { s with b3c := afterXofRead n s.b3c }).map fun bytes =>
      ((List.range n).map fun j => stream s.b3c (s.b3c.xpos.toNat + j)) ++ bytes := by
  rw [readAll, exec_xofRead_of_inRange hp hn hr, ← take_bytesOf_afterXofRead_dout s.b3c hn]

/-- Settles O28: by induction on the reads, each of which starts where the one before it ended, in the same stream. -/
theorem xofReadSplitInvariant : Obligations.XofReadSplitInvariant := by
  intro counts
  induction counts with
  | nil => exact fun _ _ _ _ => rfl
  | cons n ns ih =>
    intro s hp hcounts hr
    obtain ⟨hn, hns⟩ := List.forall_mem_cons.mp hcounts
    rw [List.sum_cons] at hr
    have hx : (afterXofRead n s.b3c).xpos.toNat = s.b3c.xpos.toNat + n := toNat_afterXofRead_xpos (by omega)
    have hrest := ih { s with b3c := afterXofRead n s.b3c } ((afterXofRead_phase n s.b3c).trans hp) hns
      (by dsimp only; omega)
    rw [readAll_cons_of_inRange ns hp hn (by omega), hrest, Option.map_some, List.sum_cons, List.range_add,
      List.map_append, List.map_map]
    simp only [stream_afterXofRead, hx, Nat.add_assoc, Function.comp_def]

/-! ## XOF_READ's errors, in their order (R202, R222) -/

/-- A count over 64 is ILLEGAL_CMD in every phase (log 17). -/
theorem xofReadBody_of_gt {n : Nat} (b : B3C) (h : 64 < n) : xofReadBody n b = .error (.error .illegalCmd) := by
  rw [xofReadBody, if_pos h]

theorem xofReadBody_of_not_finalized {n : Nat} {b : B3C} (hn : n ≤ 64) (hp : b.phase ≠ .finalized) :
    xofReadBody n b = .error (.error .notFinal) := by
  rw [xofReadBody, if_neg (by omega), if_pos hp]

theorem xofReadBody_of_past_limit {n : Nat} {b : B3C} (hn : n ≤ 64) (hp : b.phase = .finalized)
    (hr : 2 ^ 64 - 1 < b.xpos.toNat + n) : xofReadBody n b = .error (.error .xofRange) := by
  rw [xofReadBody, if_neg (by omega), if_neg (not_not_intro hp), if_pos hr]

/-- Settles O27: the count is looked at first, then the phase, then the range. -/
theorem xofReadErrors : Obligations.XofReadErrors := by
  refine fun n s => ⟨fun hn => ?_, fun hn hp => ?_, fun hn hp hr => ?_⟩
  · rw [exec_eq_commit, execBody, xofReadBody_of_gt _ hn, commit_error]
  · rw [exec_eq_commit, execBody, xofReadBody_of_not_finalized hn hp, commit_error]
  · rw [exec_eq_commit, execBody, xofReadBody_of_past_limit hn hp hr, commit_error]

/-! ## XOF_SEEK (R203) -/

/-- SEEK as a number (R41). -/
theorem toNat_seekOperand (b : B3C) : (seekOperand b).toNat = b.seekHi.toNat * 2 ^ 32 + b.seekLo.toNat :=
  toNat_append_word b.seekHi b.seekLo

theorem exec_xofSeek_of_finalized {s : State} (hp : s.b3c.phase = .finalized) :
    exec .xofSeek s = .next { s with b3c := { s.b3c with xpos := seekOperand s.b3c } } := by
  rw [exec_eq_commit, execBody, xofSeekBody, if_neg (not_not_intro hp), commit_ok]

theorem exec_xofSeek_of_not_finalized {s : State} (hp : s.b3c.phase ≠ .finalized) :
    exec .xofSeek s = .next (errorEntry .notFinal s) := by
  rw [exec_eq_commit, execBody, xofSeekBody, if_pos hp, commit_error]

/-- Settles O29: XPOS becomes SEEK whatever its value, and elsewhere nothing is committed. -/
theorem xofSeekSetsPosition : Obligations.XofSeekSetsPosition := by
  refine fun s => ⟨fun hp => ⟨_, exec_xofSeek_of_finalized hp, toNat_seekOperand s.b3c, ?_⟩,
    exec_xofSeek_of_not_finalized⟩
  simp only

end Sys2Proof.Machine
end

section
/-! Errors (60_exceptions.md R220 to R229): what error entry records and what it leaves, how long the record stays, what
ERR = 1 holds back, and the command that a BUSY_WRITE does not stop. -/

namespace Sys2Proof.Machine

/-! ## Error entry and the CMD write (R223, R226, R254) -/

/-- Settles O8: error entry as one update of the record, read with ERR 1 and with ERR 0. -/
theorem errorEntryKeepsFirstError : Obligations.ErrorEntryKeepsFirstError :=
  fun c s => ⟨errorEntry_eq c s, fun h => by rw [errorEntry_b3c, if_pos h], fun h => by simp [h]⟩

/-- With nothing pending, a CMD write is accepted or ignored as ERR says, and its word is not decoded (R254). -/
theorem hostWrite_cmd {b : B3C} (v : Word) (hb : b.busy = false) : hostWrite .cmd v b = issueCommand v b := by
  simp [hostWrite, hb]

theorem issueCommand_of_no_error {b : B3C} (v : Word) (he : b.err = false) :
    issueCommand v b = { b with pend := v, busy := true } := by
  simp [issueCommand, he]

/-- The error gate (R226). -/
theorem issueCommand_of_error {b : B3C} (v : Word) (he : b.err = true) : issueCommand v b = b := by
  rw [issueCommand, if_pos he]

/-- Settles O45: the write reaches CMD, which accepts it with ERR = 0 and ignores it with ERR = 1. -/
theorem commandWriteIssues : Obligations.CommandWriteIssues := by
  intro s host w rest hi hm hb
  refine ⟨_, step_wrReg hi hm, rfl, fun he => ?_, fun he => ?_⟩
  · rw [hostWrite_cmd w hb, issueCommand_of_no_error w he]
  · rw [hostWrite_cmd w hb, issueCommand_of_error w he]

/-! ## While ERR = 1 (R226, R229) -/

/-- A host write keeps the error that is recorded, BUSY_WRITE included (R256). -/
theorem hostWrite_keeps_error (r : Reg) (v : Word) {b : B3C} (he : b.err = true) :
    (hostWrite r v b).err = true ∧ (hostWrite r v b).errCode = b.errCode := by
  rcases hostWrite_cases r v b with ⟨_, e⟩ | ⟨_, _, _, e⟩ | ⟨_, _, hne, _⟩ | ⟨_, _, e⟩
  · simp [e, recordError, he]
  · simp [e, he]
  · simp [he] at hne
  · simp [e, he]

/-- With ERR = 1 and nothing pending, a host write makes no command pending and leaves DOUT alone (R226, R70). -/
theorem hostWrite_gated (r : Reg) (v : Word) {b : B3C} (he : b.err = true) (hb : b.busy = false) :
    (hostWrite r v b).busy = false ∧ (hostWrite r v b).pend = b.pend ∧ (hostWrite r v b).dout = b.dout := by
  by_cases hr : r = .cmd
  · rw [hr, hostWrite_cmd v hb, issueCommand_of_error v he]
    exact ⟨hb, rfl, rfl⟩
  · rw [hostWrite_eq_storeReg hb hr]
    simp [hb]

/-- Settles O40: error entry keeps the first error, a commit and a host write keep ERR and ERRCODE. -/
theorem errorIsSticky : Obligations.ErrorIsSticky := by
  intro s t h he hnr
  rcases step_machine_cases h with ⟨_, _, ⟨c, e, _⟩ | ⟨i, b, _, hb, e⟩⟩ | ⟨r, v, e, _⟩ | ⟨e, _⟩ | ⟨hr, _⟩
  · rw [e]; exact ⟨rfl, if_pos he⟩
  · obtain ⟨_, _, _, herr, hcode⟩ := execBody_frame hb
    rw [e]; exact ⟨herr.trans he, hcode⟩
  · rw [e]; exact hostWrite_keeps_error r v he
  · rw [e]; exact ⟨he, rfl⟩
  · exact absurd hr hnr

/-- Settles O41: the core has no step with nothing pending, and a host write passes the error gate with an operand only. -/
theorem errorGateStopsCommands : Obligations.ErrorGateStopsCommands := by
  intro s t h he hb hnr
  rcases step_machine_cases h with ⟨_, ⟨hbusy, _⟩, _⟩ | ⟨r, v, e, _⟩ | ⟨e, _⟩ | ⟨hr, _⟩
  · simp [hb] at hbusy
  · obtain ⟨hbusy, hpend, hdout⟩ := hostWrite_gated r v he hb
    rw [e]; exact ⟨hbusy, hpend, sameHash_hostWrite r v s.b3c, hdout⟩
  · rw [e]; simp [hb, SameHash]
  · exact absurd hr hnr

/-! ## No command reads ERR or ERRCODE (R227) -/

/-- The machine `b` with the error `e` recorded. -/
def withError (e : ErrCode) (b : B3C) : B3C := { b with err := true, errCode := e }

/-- The state `s` with the error `e` recorded in the machine. -/
def State.withError (e : ErrCode) (s : State) : State := { s with b3c := Machine.withError e s.b3c }

/-- An update of the machine that does not touch the accumulator and the stack may be made before or after an input. -/
theorem absorbBytes_comm_of_graft {f : B3C → B3C} (hf : ∀ b c, graft (f b) c = f (graft b c)) (xs : List Byte) (b : B3C) :
    absorbBytes xs (f b) = (absorbBytes xs b).map f := by
  have hself : graft (f b) b = f b := hf b b
  rw [← hself, absorbBytes_graft]
  cases ha : absorbBytes xs b with
  | error _ => rfl
  | ok c => simp only [Except.map, hf, ← absorbBytes_eq_graft ha]

theorem absorbBytes_withError (e : ErrCode) (xs : List Byte) (b : B3C) :
    absorbBytes xs (withError e b) = (absorbBytes xs b).map (withError e) :=
  absorbBytes_comm_of_graft (fun _ _ => rfl) xs b

theorem rootFold_withError (e : ErrCode) (b : B3C) : rootFold (withError e b) = rootFold b :=
  rootFold_graft (withError e b) b

theorem streamBytes_withError (e : ErrCode) (b : B3C) (p n : Nat) :
    streamBytes (withError e b) p n = streamBytes b p n := by
  simp only [streamBytes, outputBlock, withError]

/-- A command's body does the same with an error recorded, and keeps that error. -/
theorem execBody_withError (e : ErrCode) (i : Instr) (b : B3C) :
    execBody i (withError e b) = (execBody i b).map (withError e) := by
  have hphase : (withError e b).phase = b.phase := rfl
  cases i with
  | nop => rfl
  | init m => cases m <;> rfl
  | absorb n =>
    have hop : absorbOperand (withError e b) n = absorbOperand b n := rfl
    simp only [execBody, absorbBody, hphase, hop, absorbBytes_withError]
    split
    · rfl
    · cases b.phase <;> rfl
  | finalize =>
    simp only [execBody, finalizeBody, hphase, rootFold_withError]
    cases b.phase <;> rfl
  | xofRead n =>
    have hxpos : (withError e b).xpos = b.xpos := rfl
    simp only [execBody, xofReadBody, hphase, hxpos, streamBytes_withError]
    split_ifs <;> rfl
  | xofSeek =>
    simp only [execBody, xofSeekBody, hphase]
    split <;> rfl
  | compress =>
    have hblen : blenOperand (withError e b) = blenOperand b := rfl
    simp only [execBody, compressBody, hblen]
    split <;> rfl

/-- Error entry keeps an error recorded before it (R223). -/
theorem errorEntry_withError (c e : ErrCode) (s : State) :
    errorEntry c (s.withError e) = (errorEntry c s).withError e := by
  simp only [errorEntry_eq, State.withError, withError, if_true]

theorem exec_withError (e : ErrCode) {i : Instr} {s t : State} (h : exec i s = .next t) :
    exec i (s.withError e) = .next (t.withError e) := by
  have hbody : execBody i (s.withError e).b3c = (execBody i s.b3c).map (withError e) := execBody_withError e i s.b3c
  rw [exec_eq_commit, hbody]
  rcases exec_next_cases h with ⟨b, hb, rfl⟩ | ⟨c, hc, rfl⟩
  · rw [hb]; rfl
  · rw [hc, ← errorEntry_withError]; rfl

/-- The core's step is the same with an error recorded before it, and keeps that error (R227, R223). -/
theorem coreStep_withError (e : ErrCode) {s t : State} (hb : s.b3c.busy = true) (h : coreStep s = .next t) :
    coreStep (s.withError e) = .next (t.withError e) := by
  rcases coreStep_next_cases hb h with ⟨x, hd, rfl⟩ | ⟨i, u, hd, he, rfl⟩
  · rw [coreStep_of_error (s := s.withError e) hb hd, clearBusy_errorEntry, clearBusy_errorEntry, errorEntry_withError]
  · rw [coreStep_of_ok (s := s.withError e) hb hd, exec_withError e he]
    rfl

/-- The core's step ends with nothing pending (R91). -/
theorem coreStep_busy {s t : State} (hb : s.b3c.busy = true) (h : coreStep s = .next t) : t.b3c.busy = false := by
  rcases coreStep_next_cases hb h with ⟨_, _, rfl⟩ | ⟨_, _, _, _, rfl⟩ <;> rfl

/-- The first write while BUSY = 1 records BUSY_WRITE (R256). -/
theorem hostWrite_of_busy (r : Reg) (v : Word) {b : B3C} (hb : b.busy = true) (he : b.err = false) :
    hostWrite r v b = withError .busyWrite b := by
  simp [hostWrite, hb, recordError, he, withError]

/-- Settles O48: BUSY_WRITE only records an error, and no command reads or writes that record. -/
theorem pendingCommandSurvivesBusyWrite : Obligations.PendingCommandSurvivesBusyWrite := by
  intro s t r v hb he h
  refine ⟨coreStep_busy hb h, ?_⟩
  rw [hostWrite_of_busy r v hb he]
  exact coreStep_withError .busyWrite hb h

end Sys2Proof.Machine
end

section
/-! Reset and hazards (70_reset_and_hazards.md R250 to R258): what the reset input leaves, what a host write does while a
command is pending, and KEY, which INIT latches. -/

namespace Sys2Proof.Machine

/-! ## A host write while BUSY = 1 (R256) -/

/-- Settles O46: the write reaches a register, and with BUSY = 1 all it does is to record BUSY_WRITE. -/
theorem writeWhileBusyRaises : Obligations.WriteWhileBusyRaises := by
  intro s host r v rest hi hm hb
  have hw : hostWrite r v s.b3c = recordError .busyWrite s.b3c := by rw [hostWrite, if_pos hb]
  exact ⟨_, step_wrReg hi hm, rfl, by rw [hw, recordError_eq]⟩

/-! ## The reset (R250) -/

/-- The reset input comes next (R250). -/
theorem step_reset {s : State} {rest : List Event} (h : s.inputs = .reset :: rest) :
    step s = .next { s with b3c := B3C.reset, inputs := rest } := by
  rw [step_of_inputs h, eventStep_reset, resetInput]

/-- After the reset every register but ID reads 0 (R35). -/
theorem readReg_reset {r : Reg} (h : r ≠ .id) : readReg B3C.reset r = 0 := by
  cases r with
  | id => exact absurd rfl h
  | key j | cv j | din j | dout j => exact Vector.getElem_replicate j.isLt
  | _ => rfl

/-- Settles O54: the reset input's step, and the registers read at the reset values. -/
theorem resetClearsEverything : Obligations.ResetClearsEverything :=
  ⟨fun _ _ => step_reset, rfl, fun _ => readReg_reset, rfl, rfl⟩

/-! ## No command but INIT reads KEY (R258, R24) -/

/-- The machine `b` with `k` in KEY. -/
def withKey (k : CV) (b : B3C) : B3C := { b with key := k }

/-- The state `s` with `k` in the machine's KEY. -/
def State.withKey (k : CV) (s : State) : State := { s with b3c := Machine.withKey k s.b3c }

theorem absorbBytes_withKey (k : CV) (xs : List Byte) (b : B3C) :
    absorbBytes xs (withKey k b) = (absorbBytes xs b).map (withKey k) :=
  absorbBytes_comm_of_graft (fun _ _ => rfl) xs b

theorem rootFold_withKey (k : CV) (b : B3C) : rootFold (withKey k b) = rootFold b :=
  rootFold_graft (withKey k b) b

theorem streamBytes_withKey (k : CV) (b : B3C) (p n : Nat) : streamBytes (withKey k b) p n = streamBytes b p n := by
  simp only [streamBytes, outputBlock, withKey]

/-- The body of a command other than INIT does the same over another KEY, and keeps that KEY. -/
theorem execBody_withKey (k : CV) {i : Instr} (hi : ∀ m, i ≠ .init m) (b : B3C) :
    execBody i (withKey k b) = (execBody i b).map (withKey k) := by
  have hphase : (withKey k b).phase = b.phase := rfl
  cases i with
  | nop => rfl
  | init m => exact absurd rfl (hi m)
  | absorb n =>
    have hop : absorbOperand (withKey k b) n = absorbOperand b n := rfl
    simp only [execBody, absorbBody, hphase, hop, absorbBytes_withKey]
    split
    · rfl
    · cases b.phase <;> rfl
  | finalize =>
    simp only [execBody, finalizeBody, hphase, rootFold_withKey]
    cases b.phase <;> rfl
  | xofRead n =>
    have hxpos : (withKey k b).xpos = b.xpos := rfl
    simp only [execBody, xofReadBody, hphase, hxpos, streamBytes_withKey]
    split_ifs <;> rfl
  | xofSeek =>
    simp only [execBody, xofSeekBody, hphase]
    split_ifs <;> rfl
  | compress =>
    have hblen : blenOperand (withKey k b) = blenOperand b := rfl
    simp only [execBody, compressBody, hblen]
    split_ifs <;> rfl

/-- Error entry keeps KEY (R223). -/
theorem errorEntry_withKey (c : ErrCode) (k : CV) (s : State) :
    errorEntry c (s.withKey k) = (errorEntry c s).withKey k := by
  simp only [errorEntry_eq, State.withKey, withKey]

/-- The next state of a command other than INIT over another KEY: the same, but for KEY itself (R258). -/
theorem exec_withKey (k : CV) {i : Instr} {s t : State} (hi : ∀ m, i ≠ .init m) (h : exec i s = .next t) :
    exec i (s.withKey k) = .next (t.withKey k) := by
  have hbody : execBody i (s.withKey k).b3c = (execBody i s.b3c).map (withKey k) := execBody_withKey k hi s.b3c
  rw [exec_eq_commit, hbody]
  rcases exec_next_cases h with ⟨b, hb, rfl⟩ | ⟨c, hc, rfl⟩
  · rw [hb]; rfl
  · rw [hc, ← errorEntry_withKey]; rfl

/-- Settles O43: no body but INIT's reads KEY, and a command's end keeps it. -/
theorem keyIsLatched : Obligations.KeyIsLatched :=
  fun _ _ k hi _ h => exec_withKey k hi h

end Sys2Proof.Machine
end
